-- ==== Sys2Proof/Word.lean ====
section
/-! DEFINITION. The words of the machine: bytes, 32-bit register words and 16-bit hash-table entries. -/

namespace Sys2Proof

/-- A byte of memory, `u8` (00_scope.md R8, 20_memory.md R80). -/
abbrev Byte := BitVec 8

/-- A 32-bit register word, `u32` (00_scope.md R8, 10_state.md R31). -/
abbrev Word := BitVec 32

/-- An entry of the hash table, `u16` (10_state.md R61). -/
abbrev Entry := BitVec 16

end Sys2Proof
end

