-- ==== Sys2Proof/Config.lean ====
section
/-! DEFINITION. The constants of 00_scope.md R7, and the free values: the values the spec leaves open, as
constants without a body. The OPEN parameters of R7 are data, in `Machine.Params` (log 4). -/

namespace Sys2Proof.Config

/-- `WINDOW`: the most bytes in one compression window (R7, R12). -/
def window : Nat := 65536

/-- `HT_MIN`: the smallest hash-table size (R7). -/
def htMin : Nat := 256

/-- `HT_MAX`: the largest hash-table size (R7, R61). -/
def htMax : Nat := 16384

/-- `HASH_MUL`: the multiplier of the hash (R7, R175). -/
def hashMul : Word := 0x1e35a7bd#32

/-- `SKIP_INIT`: the value `skip` starts a search with (R7, R177). -/
def skipInit : Nat := 32

/-- `SKIP_SHIFT`: the scan stride is `skip >> 5` (R7, R177). -/
def skipShift : Nat := 5

/-- `LIT_DIRECT_MAX`: the longest literal whose length fits in the tag (R7, R124). -/
def litDirectMax : Nat := 60

/-- `COPY1_LEN_LIMIT`: COPY1 needs a length below it (R7, R183). -/
def copy1LenLimit : Nat := 12

/-- `COPY1_OFF_LIMIT`: COPY1 needs an offset below it (R7, R183). -/
def copy1OffLimit : Nat := 2048

/-- `COPY_PIECE`: the length of a full copy piece (R7, R182). -/
def copyPiece : Nat := 64

/-- `COPY_TAIL_PIECE`: the length of the extra piece (R7, R182). -/
def copyTailPiece : Nat := 60

/-- `COPY_SPLIT_AT`: a full piece is cut while the length reaches it (R7, R182; 92 D8). -/
def copySplitAt : Nat := 68

/-- `INPUT_MARGIN`: match search stops this many bytes before the window's end (R7, R174; 92 D7). -/
def inputMargin : Nat := 15

/-- `MAXLEN(n) = 32 + n + floor(n / 6)` (R7, R171, R300). -/
def maxLen (n : Nat) : Nat := 32 + n + n / 6

/-- `2^ADDR_W`: how many byte addresses there are (R7, R80). -/
def addrSpace : Nat := 4294967296

/-- `LEN_MAX`: the largest legal `SRC_LEN` and `DST_CAP` (R7, R294). -/
def lenMax : Nat := 2147483647

/-- The constant the `ID` register reads (10_state.md R33). -/
def idValue : Word := 0x534E4243#32

/-- How many bytes of bus space the register block takes: offsets 0x00 to 0xFF (10_state.md R32, R44). -/
def blockBytes : Nat := 256

/-- What a byte of memory reads as at power-on, before anything has written it.
DESIGN CHOICE (log 1), unsafe: the spec gives memory no power-on contents. -/
def initialByte : Byte := 0#8

/-- FREE VALUE (log 2). The byte that address `a` holds after the draw with number `k`: the unspecified
destination bytes of R188, R246 and R352, and a forbidden host read (R95). Nothing is known of it. -/
opaque freeByte : Nat → Nat → Byte

/-- FREE VALUE (log 3). The entry that index `i` of the hash table holds after the reset with draw number
`k`: "unspecified; unobservable" (R62, R65). Nothing is known of it. -/
opaque freeEntry : Nat → Nat → Entry

/-- FREE VALUE (log 7). The block that the draw with number `k` proposes for a source under
`COMPRESSOR_MODE = relational`; `Machine.relationalBlock` keeps it only if it satisfies R191. -/
opaque freeBlock : Nat → List Byte → List Byte

end Sys2Proof.Config
end

