-- ==== Sys2Proof/Syntax.lean ====
section
/-! DEFINITION. The instructions: the eight element forms of a compressed block, which the decompressor
executes, and the four host commands (00_scope.md R11; spec/opcode_table.json). Operands are those of
30_encoding.md R132 and R137: a literal's length, a copy's offset and length. A literal's payload follows
it in the source region and is no operand (R120). -/

namespace Sys2Proof

/-- One constructor per row of spec/opcode_table.json. Lengths and offsets are naturals (30_encoding.md R132). -/
inductive Instr where
  /-- `LIT`, tag `nnnnnn00` with `n ≤ 59`: copy `len` payload bytes, 1 to 60 (R124, R237). -/
  | lit (len : Nat)
  /-- `LIT1`, tag `0xF0`, one length byte: `len` 1 to 256 (R125, R238). -/
  | lit1 (len : Nat)
  /-- `LIT2`, tag `0xF4`, two length bytes: `len` 1 to 65536 (R126, R239). -/
  | lit2 (len : Nat)
  /-- `LIT3`, tag `0xF8`, three length bytes: `len` 1 to 2^24 (R127, R240). -/
  | lit3 (len : Nat)
  /-- `LIT4`, tag `0xFC`, four length bytes: `len` 1 to 2^32 (R128, R241). -/
  | lit4 (len : Nat)
  /-- `COPY1 off, len`, tag `oooLLL01`: `off` 0 to 2047, `len` 4 to 11 (R129, R243). -/
  | copy1 (off len : Nat)
  /-- `COPY2 off, len`, tag `LLLLLL10`: `off` 0 to 65535, `len` 1 to 64 (R130, R244). -/
  | copy2 (off len : Nat)
  /-- `COPY4 off, len`, tag `LLLLLL11`: `off` 0 to 2^32 - 1, `len` 1 to 64 (R131, R245). -/
  | copy4 (off len : Nat)
  /-- `NOP`, `CMD` value 0 (R299). -/
  | nop
  /-- `COMPRESS`, `CMD` value 1 (R170). -/
  | compress
  /-- `DECOMPRESS`, `CMD` value 2 (R230). -/
  | decompress
  /-- `MAXLEN`, `CMD` value 3 (R300). -/
  | maxlen
  deriving DecidableEq, Repr

/-- The two places an instruction comes from: the element stream in the source region (R120), and the
value written to `CMD` (R136). -/
inductive Space where
  /-- An element of a compressed block. -/
  | element
  /-- A value written to `CMD`. -/
  | command
  deriving DecidableEq, Repr

/-- Where an instruction stands. -/
def Instr.space : Instr → Space
  | .lit _ | .lit1 _ | .lit2 _ | .lit3 _ | .lit4 _ => .element
  | .copy1 _ _ | .copy2 _ _ | .copy4 _ _ => .element
  | .nop | .compress | .decompress | .maxlen => .command

end Sys2Proof
end

