-- ==== Sys2Proof/Decode.lean ====
section
/-! DEFINITION. The decoder of element streams and of `CMD` values, total on any bytes and rejecting by
name, the encoder, and the header varint (30_encoding.md). -/

namespace Sys2Proof

/-- Why the decoder refuses. -/
inductive Reject where
  /-- The source ends where a tag should stand. -/
  | noTag
  /-- The trailer a tag asks for runs past the source (R135, R234). -/
  | truncatedTrailer
  /-- Fewer than the four bytes of a `CMD` value. -/
  | shortCommand
  /-- A `CMD` value with bits 31:2 not zero (R136, R296). -/
  | illegalCommand
  deriving DecidableEq, Repr

/-- `LE_k`: the little-endian value of a byte sequence (00_scope.md R9). -/
def leValue : List Byte → Nat
  | [] => 0
  | b :: bs => b.toNat + 256 * leValue bs

/-- The `k` bytes whose `LE_k` is `v mod 256^k` (00_scope.md R9, 20_memory.md R84). -/
def leBytes : Nat → Nat → List Byte
  | 0, _ => []
  | k + 1, v => BitVec.ofNat 8 v :: leBytes k (v / 256)

/-- The class of a tag, `tag[1:0]` (R123). -/
def tagClass (tag : Byte) : Nat := tag.toNat % 4

/-- The field above the class, `tag[7:2]` (R123). -/
def tagField (tag : Byte) : Nat := tag.toNat / 4

/-- `TB(tag)`: how many trailer bytes a tag asks for (R123, R133). -/
def trailerBytes (tag : Byte) : Nat :=
  match tagClass tag with
  | 0 => if tagField tag < 60 then 0 else tagField tag - 59
  | 1 => 1
  | 2 => 2
  | _ => 4

/-- The operands of a literal tag whose trailer has the value `t` (R124 to R128, R132). -/
def assembleLiteral (tag : Byte) (t : Nat) : Instr :=
  if tagField tag < 60 then .lit (tagField tag + 1)
  else if tagField tag = 60 then .lit1 (t + 1)
  else if tagField tag = 61 then .lit2 (t + 1)
  else if tagField tag = 62 then .lit3 (t + 1)
  else .lit4 (t + 1)

/-- The operands of a tag whose trailer has the value `t`, zero-extended only (R132). For COPY1,
`off = (tag[7:5] << 8) | t` and `len = tag[4:2] + 4` (R129). -/
def assemble (tag : Byte) (t : Nat) : Instr :=
  match tagClass tag with
  | 0 => assembleLiteral tag t
  | 1 => .copy1 (tagField tag / 8 * 256 + t) (tagField tag % 8 + 4)
  | 2 => .copy2 t (tagField tag + 1)
  | _ => .copy4 t (tagField tag + 1)

/-- One element's tag and trailer, and the bytes after them: every one of the 256 tags is a form; only a
missing byte is refused (R133, R134, R135). -/
def decodeElement : List Byte → Except Reject (Instr × List Byte)
  | [] => .error .noTag
  | tag :: rest =>
    if rest.length < trailerBytes tag then .error .truncatedTrailer
    else .ok (assemble tag (leValue (rest.take (trailerBytes tag))), rest.drop (trailerBytes tag))

/-- The command a `CMD` value selects (R136). -/
def decodeCommand (v : Word) : Except Reject Instr :=
  match v.toNat with
  | 0 => .ok .nop
  | 1 => .ok .compress
  | 2 => .ok .decompress
  | 3 => .ok .maxlen
  | _ => .error .illegalCommand

/-- The decoder of both spaces on bytes in memory order; a `CMD` value is four little-endian bytes
(10_state.md R31). -/
def decode (sp : Space) (bytes : List Byte) : Except Reject (Instr × List Byte) :=
  match sp with
  | .element => decodeElement bytes
  | .command =>
    if bytes.length < 4 then .error .shortCommand
    else match decodeCommand (BitVec.ofNat 32 (leValue (bytes.take 4))) with
      | .ok i => .ok (i, bytes.drop 4)
      | .error r => .error r

/-- How many trailer bytes an element form has (R132); a command has none. -/
def Instr.trailer : Instr → Nat
  | .lit _ => 0
  | .lit1 _ => 1
  | .lit2 _ => 2
  | .lit3 _ => 3
  | .lit4 _ => 4
  | .copy1 _ _ => 1
  | .copy2 _ _ => 2
  | .copy4 _ _ => 4
  | .nop | .compress | .decompress | .maxlen => 0

/-- The tag and trailer of an element (R124 to R131), or the four bytes of a `CMD` value (R136). -/
def encode : Instr → List Byte
  | .lit len => [BitVec.ofNat 8 ((len - 1) * 4)]
  | .lit1 len => 0xF0#8 :: leBytes 1 (len - 1)
  | .lit2 len => 0xF4#8 :: leBytes 2 (len - 1)
  | .lit3 len => 0xF8#8 :: leBytes 3 (len - 1)
  | .lit4 len => 0xFC#8 :: leBytes 4 (len - 1)
  | .copy1 off len => BitVec.ofNat 8 (off / 256 * 32 + (len - 4) * 4 + 1) :: leBytes 1 off
  | .copy2 off len => BitVec.ofNat 8 ((len - 1) * 4 + 2) :: leBytes 2 off
  | .copy4 off len => BitVec.ofNat 8 ((len - 1) * 4 + 3) :: leBytes 4 off
  | .nop => leBytes 4 0
  | .compress => leBytes 4 1
  | .decompress => leBytes 4 2
  | .maxlen => leBytes 4 3

/-- The instruction the decoder reads from an instruction of `nbits` bits numbered as
spec/opcode_table.json numbers them. The table's commands are its rows of 32 bits; an element has 8 to 40,
and no element row has 32. The longest tag and trailer is five bytes. -/
def decodeTableWord (nbits w : Nat) : Option Instr :=
  if nbits = 32 then
    match decode .command (leBytes 4 w) with
    | .ok (i, _) => some i
    | .error _ => none
  else
    match decode .element (leBytes 5 w) with
    | .ok (i, _) => some i
    | .error _ => none

/-- `EncodeVarint` with at most `k` continuation bytes (R121). -/
def encodeVarintUpTo : Nat → Nat → List Byte
  | 0, v => [BitVec.ofNat 8 v]
  | k + 1, v =>
    if v < 128 then [BitVec.ofNat 8 v]
    else BitVec.ofNat 8 (v % 128 + 128) :: encodeVarintUpTo k (v / 128)

/-- `EncodeVarint(v)` for `v < 2^32`: the shortest sequence, at most five bytes (R121). -/
def encodeVarint (v : Nat) : List Byte := encodeVarintUpTo 4 v

/-- `DecodeHeader` from byte `k` on, with the value `v` gathered so far; `.error pos` is
`PARSING_ERROR(pos)` (R122, 41_decompressor.md R231). The first argument bounds the bytes still allowed;
byte 4 is always the last, so five suffice. -/
def decodeHeaderFrom : Nat → (Nat → Byte) → Nat → Nat → Nat → Except Nat (Nat × Nat)
  | 0, _, _, k, _ => .error k
  | fuel + 1, src, srcLen, k, v =>
    if srcLen ≤ k then .error srcLen
    else
      let b := (src k).toNat
      if k = 4 ∧ 128 ≤ b then .error 4
      else if k = 4 ∧ 16 ≤ b % 128 then .error 4
      else if b < 128 then .ok (v + b * 128 ^ k, k + 1)
      else decodeHeaderFrom fuel src srcLen (k + 1) (v + b % 128 * 128 ^ k)

/-- `DecodeHeader()`: the length `L` and the header's byte count (R231), from the source bytes `src` and
their number. -/
def decodeHeader (src : Nat → Byte) (srcLen : Nat) : Except Nat (Nat × Nat) :=
  decodeHeaderFrom 5 src srcLen 0 0

end Sys2Proof
end

