-- ==== Sys2Proof/Machine/State.lean ====
section
/-! DEFINITION. The machine's state as plain data (10_state.md, 20_memory.md), its faults and refusals, and
the state after reset. -/

namespace Sys2Proof.Machine

/-- Why the machine stops with a fault. -/
inductive Fault where
  /-- A device access to an address at or beyond 2^32, which does not exist (20_memory.md R80). Raised by a
  running engine whose latched regions leave the address space. Safe: the region checks (R294) keep
  every reachable state from it (log 12). -/
  | addressOutsideMemory
  deriving DecidableEq, Repr

/-- Why a move has no meaning. -/
inductive Refusal where
  /-- An instruction without a meaning yet; raised by `exec` alone. Safe: nothing can be proved of it. -/
  | notModelled (mnemonic : String)
  /-- A host access to the register block that is not an aligned 32-bit access: it "has no meaning; the model
  refuses it" (10_state.md R31; 93 U8). Raised by `hostMove`. Safe. -/
  | registerAccessShape
  /-- A host access to the bus outside the register block: "outside the device" (10_state.md R44; 93 U8).
  Raised by `hostMove`. Safe. -/
  | outsideDevice
  /-- A host write into the source or destination region while a command runs: "the model says nothing of
  such a run" (20_memory.md R95; 93 U7); or a host read of the destination of a finished command before
  `STATUS.DONE = 1` is read (42_commands.md R290, row finish; log 24). Raised by `hostMove`. Safe. -/
  | hostDutyBroken
  /-- An element form asked to run while no DECOMPRESS runs; its effect is given only inside one (10_state.md
  R53). Raised by the element meanings; no step gets there. Safe (log 11). -/
  | noElementRunning
  deriving DecidableEq, Repr

/-- `BUS_FAULTS` (00_scope.md R7, 20_memory.md R93). -/
inductive BusFaults where
  /-- Every access succeeds; the spec's default. -/
  | none
  /-- The platform may fail any device access. -/
  | platform
  deriving DecidableEq, Repr

/-- `COMPRESSOR_MODE` (00_scope.md R7, 40_compressor.md R191). -/
inductive CompressorMode where
  /-- The output bytes are those of R170 to R186. -/
  | exact
  /-- The output is any block that satisfies R191. -/
  | relational
  deriving DecidableEq, Repr

/-- The OPEN parameters of 00_scope.md R7, fixed for one machine (log 4). -/
structure Params where
  /-- `REG_BASE`, the register block's address on the host bus. DESIGN CHOICE (log 4): the spec gives the host
  bus no address width; 32 bits here. -/
  regBase : Word
  /-- `BUS_FAULTS`. -/
  busFaults : BusFaults
  /-- `COMPRESSOR_MODE`. -/
  mode : CompressorMode
  deriving DecidableEq, Repr

/-- The four configuration registers (10_state.md R36 to R39), and their latched copies (R64). -/
structure Regions where
  /-- `SRC_ADDR` (R36). -/
  srcAddr : Word
  /-- `SRC_LEN` (R37). -/
  srcLen : Word
  /-- `DST_ADDR` (R38). -/
  dstAddr : Word
  /-- `DST_CAP` (R39). -/
  dstCap : Word
  deriving DecidableEq, Repr

/-- The fields of `STATUS` (10_state.md R35); its reserved bits have no storage. -/
structure Status where
  /-- Bit 0. -/
  busy : Bool
  /-- Bit 1. -/
  done : Bool
  /-- Bit 2. -/
  err : Bool
  /-- Bit 3. -/
  ignored : Bool
  /-- Bits 7:4. -/
  errCode : BitVec 4
  /-- Bits 9:8. -/
  lastCmd : BitVec 2
  deriving DecidableEq, Repr

/-- The error kinds of 60_exceptions.md R310. -/
inductive ErrorKind where
  /-- `PARSING_ERROR`. -/
  | parsingError
  /-- `INVALID_CHUNK_SIZE`. -/
  | invalidChunkSize
  /-- `DST_TOO_SMALL`. -/
  | dstTooSmall
  /-- `ILLEGAL_COMMAND`. -/
  | illegalCommand
  /-- `REGION_ERROR`. -/
  | regionError
  /-- `BUS_ERROR`. -/
  | busError
  deriving DecidableEq, Repr

/-- The decompressor's working state between elements (10_state.md R50 to R52). -/
structure Decompressor where
  /-- `in_pos`: the source offset of the next tag (R50). -/
  inPos : Nat
  /-- `out_pos`: how many bytes are produced (R51). -/
  outPos : Nat
  /-- `L`: the length the header gives (R52). -/
  expect : Word
  deriving DecidableEq, Repr

/-- Where the compressor stands in the pseudocode of 40_compressor.md. -/
inductive Phase where
  /-- Before the header is written (R172). -/
  | header
  /-- At the test of the loop over windows (R170). -/
  | window
  /-- At the test of the window loop, before a search (R178). -/
  | scan
  /-- At the test of the search loop, before a probe (R177). -/
  | probe
  /-- At the top of the copy run, with a match at hand (R184). -/
  | copy
  /-- After the window loop, before the remainder (R185). -/
  | tail
  deriving DecidableEq, Repr

/-- The compressor's working state (10_state.md R56 to R59). -/
structure Compressor where
  /-- The place in the pseudocode. -/
  phase : Phase
  /-- `op`: how many bytes are written (R56). -/
  op : Nat
  /-- `wb`: the window's first source offset (R57). -/
  wb : Nat
  /-- `we`: one past the window's last source offset (R57). -/
  we : Nat
  /-- `ip`: the scan position (R57). -/
  ip : Nat
  /-- `next_emit`: the first source offset not yet emitted (R57). -/
  nextEmit : Nat
  /-- `ip_limit`: signed (R57). -/
  ipLimit : Int
  /-- `cand`: the candidate match position (R57). -/
  cand : Nat
  /-- `ts`: the hash-table size in use (R58). -/
  ts : Nat
  /-- `shift = 32 - log2(ts)` (R58). -/
  shift : Nat
  /-- `skip` (R59). -/
  skip : Nat
  deriving DecidableEq, Repr

/-- What the device is doing (60_exceptions.md R330). Working values exist only while a command runs
(10_state.md R30, R65). -/
inductive Engine where
  /-- No command runs. -/
  | idle
  /-- The value `v` written to `CMD` is accepted and has not begun (42_commands.md R292). -/
  | started (v : Word)
  /-- COMPRESS runs. -/
  | compress (c : Compressor)
  /-- DECOMPRESS runs; its header is decoded. -/
  | decompress (d : Decompressor)
  deriving DecidableEq, Repr

/-- The hash table `T` (10_state.md R61) as the entries written since they were last cleared, by rising
index. An entry not listed holds 0 below `cleared` (the window set-up, R174) and a free value above (R62). -/
structure HashTable where
  /-- How many low entries some window set-up has cleared since reset. -/
  cleared : Nat
  /-- The entries written, by rising index. -/
  entries : List (Nat × Entry)
  /-- The draw whose free values the other entries hold. -/
  draw : Nat
  deriving DecidableEq, Repr

/-- A range of addresses whose bytes are unspecified: address `a` with `lo ≤ a < hi` holds
`Config.freeByte seed a` (log 2). -/
structure FreeRange where
  /-- The first address. -/
  lo : Nat
  /-- One past the last address. -/
  hi : Nat
  /-- The number of the draw. -/
  seed : Nat
  deriving DecidableEq, Repr

/-- Memory (20_memory.md R80): the listed cells by rising address, and the ranges that hold free values.
An address in neither reads `Config.initialByte`. `Memory.wf` is its canonical form. -/
structure Memory where
  /-- The cells that differ from what an unlisted address reads as. -/
  cells : List Host.Cell
  /-- The ranges of unspecified bytes, by rising address. -/
  free : List FreeRange
  deriving DecidableEq, Repr

/-- What the host, or the platform for reset, can do to the device and to memory (42_commands.md R290). -/
inductive HostAction where
  /-- A read of `width` bytes at an address of the host bus, 32 bits wide (10_state.md R31; log 4). -/
  | readReg (addr : Word) (width : Nat)
  /-- A write of `width` bytes at an address of the host bus, 32 bits wide (10_state.md R31; log 4). -/
  | writeReg (addr : Word) (width : Nat) (value : Word)
  /-- A read of one byte of memory (20_memory.md R80). -/
  | readMem (addr : Word)
  /-- A write of one byte of memory (20_memory.md R80). -/
  | writeMem (addr : Word) (value : Byte)
  /-- Reset is asserted (70_reset_and_hazards.md R350). -/
  | reset
  deriving DecidableEq, Repr

/-- One turn of the schedule: who moves next (log 5). -/
inductive Turn where
  /-- The device moves by one action. -/
  | device
  /-- The host moves. -/
  | host (a : HostAction)
  deriving DecidableEq, Repr

/-- The state of the machine. -/
structure State where
  /-- The OPEN parameters; no step changes them (00_scope.md R7). -/
  params : Params
  /-- `SRC_ADDR`, `SRC_LEN`, `DST_ADDR`, `DST_CAP` (R36 to R39). -/
  cfg : Regions
  /-- `STATUS` (R35). -/
  status : Status
  /-- `RESULT_LEN` (R41). -/
  resultLen : Word
  /-- `EXPECT_LEN` (R42). -/
  expectLen : Word
  /-- `ERR_POS` (R43). -/
  errPos : Word
  /-- The latched configuration (R64). -/
  latch : Regions
  /-- The running engine and its working state (R50 to R59). -/
  engine : Engine
  /-- The hash table `T` (R61). -/
  table : HashTable
  /-- Memory (R80). -/
  mem : Memory
  /-- The schedule of moves still to come; empty when the host sends nothing more (log 5). -/
  turns : List Turn
  /-- The platform's decisions under `BUS_FAULTS = platform`: each number says how many memory phases of the
  device succeed before one fails (log 6). -/
  busPlan : List Nat
  /-- What the host's last read returned (R290; log 13). -/
  hostData : Word
  /-- The latched regions of the commands that have finished since the host last read `STATUS` with `DONE = 1`,
  the latest first: it must not read their destinations yet (42_commands.md R290, row finish; log 24). -/
  unseen : List Regions
  /-- The number of the next draw of free values (log 2). -/
  draws : Nat
  deriving DecidableEq, Repr

/-- All four configuration registers at 0 (R65). -/
def Regions.zero : Regions := ⟨0#32, 0#32, 0#32, 0#32⟩

/-- `STATUS` after reset: 0 (R65). -/
def Status.zero : Status := ⟨false, false, false, false, 0#4, 0#2⟩

/-- The machine right after reset (10_state.md R65, 70_reset_and_hazards.md R351): every register 0 but `ID`,
no engine running, the hash table unspecified (draw 0), memory with nothing listed. `BUS_FAULTS = none` is
the spec's default (R7); `REG_BASE = 0` and `exact` are DESIGN CHOICES (log 4); the schedule, the platform's
plan, `hostData`, `unseen` and `draws` are the model's own (logs 2, 5, 6, 13, 24). -/
def State.reset : State where
  params := ⟨0#32, .none, .exact⟩
  cfg := Regions.zero
  status := Status.zero
  resultLen := 0#32
  expectLen := 0#32
  errPos := 0#32
  latch := Regions.zero
  engine := .idle
  table := ⟨0, [], 0⟩
  mem := ⟨[], []⟩
  turns := []
  busPlan := []
  hostData := 0#32
  unseen := []
  draws := 1

end Sys2Proof.Machine
end

