-- ==== Sys2Proof/Machine/Flags.lean ====
section
/-! DEFINITION. The `STATUS` register: its image as a word, the codes of the errors, and what acceptance and
finish do to its fields (10_state.md R35, 42_commands.md R292, R298, 60_exceptions.md R310). An element
touches no flag (10_state.md R46). -/

namespace Sys2Proof.Machine

/-- The word a read of `STATUS` returns: bits 31:10 are 0 (10_state.md R35). -/
def Status.word (st : Status) : Word :=
  0#22 ++ st.lastCmd ++ st.errCode ++ BitVec.ofBool st.ignored ++ BitVec.ofBool st.err
    ++ BitVec.ofBool st.done ++ BitVec.ofBool st.busy

/-- `STATUS.ERRCODE` of an error kind (60_exceptions.md R310). -/
def ErrorKind.code : ErrorKind → BitVec 4
  | .parsingError => 1#4
  | .invalidChunkSize => 2#4
  | .dstTooSmall => 3#4
  | .illegalCommand => 4#4
  | .regionError => 5#4
  | .busError => 6#4

/-- `STATUS.ERRCODE` of a command that ends with the error `e`, or without one (10_state.md R35). -/
def errorCode : Option ErrorKind → BitVec 4
  | none => 0#4
  | some k => k.code

/-- `LASTCMD` for an accepted value: `v[1:0]` if `v[31:2] = 0`, else 0 (R292). -/
def lastCmdOf (v : Word) : BitVec 2 :=
  if v.toNat < 4 then BitVec.ofNat 2 v.toNat else 0#2

/-- `STATUS` once the value `v` is accepted (R292); it depends on nothing the register held before. -/
def Status.accepted (v : Word) : Status :=
  ⟨true, false, false, false, 0#4, lastCmdOf v⟩

/-- `STATUS` once the command has finished, with the error `e` or without one (R298). -/
def Status.finished (st : Status) (e : Option ErrorKind) : Status :=
  { st with
    busy := false, done := true, err := e.isSome
    errCode := errorCode e }

/-- `STATUS` after a `CMD` or configuration write while busy (10_state.md R45). -/
def Status.markIgnored (st : Status) : Status := { st with ignored := true }

end Sys2Proof.Machine
end

