-- ==== Sys2Proof/Machine/Ops.lean ====
section
/-! DEFINITION. The shared operations: memory and hash table, the register block, the region checks, accepting
and finishing a command, raising an error (the device's exception), the platform's bus faults, and reset. -/

namespace Sys2Proof.Machine

/-- Sequencing of outcomes: go on from a next state, stop otherwise. -/
def andThen (o : Host.Outcome State Fault Refusal)
    (k : State → Host.Outcome State Fault Refusal) : Host.Outcome State Fault Refusal :=
  match o with
  | .next s => k s
  | .fault f => .fault f
  | .refused r => .refused r

/-! ### Lists of keyed values, by rising key -/

/-- The value listed for a key. -/
def Store.lookup {α : Type} : List (Nat × α) → Nat → Option α
  | [], _ => none
  | (k, v) :: rest, a => if k = a then some v else Store.lookup rest a

/-- The list with a value for a key, replacing an earlier one. -/
def Store.insert {α : Type} : List (Nat × α) → Nat → α → List (Nat × α)
  | [], a, v => [(a, v)]
  | (k, w) :: rest, a, v =>
    if a < k then (a, v) :: (k, w) :: rest
    else if a = k then (a, v) :: rest
    else (k, w) :: Store.insert rest a v

/-- The list without any value for a key. -/
def Store.erase {α : Type} : List (Nat × α) → Nat → List (Nat × α)
  | [], _ => []
  | (k, w) :: rest, a => if k = a then Store.erase rest a else (k, w) :: Store.erase rest a

/-! ### Memory (20_memory.md) -/

/-- Whether an address lies in the range `[lo, hi)`. -/
abbrev inRange (lo hi a : Nat) : Prop := lo ≤ a ∧ a < hi

/-- The draw that an address's free value comes from, if it lies in a free range. -/
def freeSeed : List FreeRange → Nat → Option Nat
  | [], _ => none
  | r :: rest, a => if inRange r.lo r.hi a then some r.seed else freeSeed rest a

/-- What an unlisted address reads as: its free value in a free range, else the power-on byte (log 1). -/
def Memory.unlisted (m : Memory) (a : Nat) : Byte :=
  match freeSeed m.free a with
  | some k => Config.freeByte k a
  | none => Config.initialByte

/-- The byte at an address (20_memory.md R80). -/
def Memory.read (m : Memory) (a : Nat) : Byte :=
  match Store.lookup m.cells a with
  | some b => b
  | none => m.unlisted a

/-- What is left of a free range outside `[lo, hi)`. -/
def FreeRange.carve (lo hi : Nat) (r : FreeRange) : List FreeRange :=
  (if r.lo < min r.hi lo then [⟨r.lo, min r.hi lo, r.seed⟩] else [])
    ++ (if max r.lo hi < r.hi then [⟨max r.lo hi, r.hi, r.seed⟩] else [])

/-- The free ranges without the addresses `[lo, hi)`. -/
def carveFree (fs : List FreeRange) (lo hi : Nat) : List FreeRange :=
  fs.flatMap (FreeRange.carve lo hi)

/-- The free ranges with one more, at its place. -/
def placeFree : List FreeRange → FreeRange → List FreeRange
  | [], r => [r]
  | q :: rest, r => if r.lo < q.lo then r :: q :: rest else q :: placeFree rest r

/-- Memory with the byte `b` at `a`: the address is no longer free, and it is listed unless `b` is what an
unlisted address reads as. -/
def Memory.write (m : Memory) (a : Nat) (b : Byte) : Memory where
  cells := if b = Config.initialByte then Store.erase m.cells a else Store.insert m.cells a b
  free := carveFree m.free a (a + 1)

/-- Memory with every byte of `[lo, hi)` unspecified, holding the free values of the draw `seed`
(40_compressor.md R188, 41_decompressor.md R246, 70_reset_and_hazards.md R352). -/
def Memory.spoil (m : Memory) (lo hi seed : Nat) : Memory :=
  if lo < hi then
    { cells := m.cells.filter fun c => decide (¬ inRange lo hi c.1)
      free := placeFree (carveFree m.free lo hi) ⟨lo, hi, seed⟩ }
  else m

/-- Memory with a byte sequence at `a`, written in order (R172). -/
def Memory.writeList (m : Memory) (a : Nat) : List Byte → Memory
  | [] => m
  | b :: bs => (m.write a b).writeList (a + 1) bs

/-- Memory after `len` bytes are moved one at a time in increasing order, each read after the one before is
written (41_decompressor.md R236, R242; 20_memory.md R88, R94). -/
def Memory.move (m : Memory) (dst src : Nat) : Nat → Memory
  | 0 => m
  | len + 1 => (m.write dst (m.read src)).move (dst + 1) (src + 1) len

/-- The canonical form: cells by strictly rising address, none equal to what an unlisted address reads as,
none in a free range; free ranges not empty, disjoint, by rising address. -/
abbrev Memory.wf (m : Memory) : Prop :=
  m.cells.Pairwise (fun x y => x.1 < y.1)
    ∧ (∀ c ∈ m.cells, c.2 ≠ Config.initialByte ∧ freeSeed m.free c.1 = none)
    ∧ m.free.Pairwise (fun r q => r.hi ≤ q.lo)
    ∧ (∀ r ∈ m.free, r.lo < r.hi)

/-! ### The hash table (10_state.md R61) -/

/-- `T[h]`. -/
def HashTable.get (t : HashTable) (h : Nat) : Entry :=
  match Store.lookup t.entries h with
  | some v => v
  | none => if h < t.cleared then 0#16 else Config.freeEntry t.draw h

/-- `T[h] <- v`: a cleared entry written with 0 is not listed. -/
def HashTable.set (t : HashTable) (h : Nat) (v : Entry) : HashTable :=
  { t with entries :=
      if h < t.cleared ∧ v = 0#16 then Store.erase t.entries h else Store.insert t.entries h v }

/-- `for h in 0 .. ts-1: T[h] <- 0` (40_compressor.md R174). -/
def HashTable.clear (t : HashTable) (ts : Nat) : HashTable :=
  { t with cleared := max t.cleared ts
           entries := t.entries.filter fun e => decide (ts ≤ e.1) }

/-- The canonical form of the table: indexes below `HT_MAX` and rising, no cleared entry listed with 0. -/
abbrev HashTable.wf (t : HashTable) : Prop :=
  t.entries.Pairwise (fun x y => x.1 < y.1)
    ∧ (∀ e ∈ t.entries, e.1 < Config.htMax ∧ (e.1 < t.cleared → e.2 ≠ 0#16))
    ∧ t.cleared ≤ Config.htMax

/-! ### Regions (20_memory.md R81, 42_commands.md R294) -/

/-- One past the last address of the source region. -/
def Regions.srcEnd (r : Regions) : Nat := r.srcAddr.toNat + r.srcLen.toNat

/-- One past the last address of the destination region. -/
def Regions.dstEnd (r : Regions) : Nat := r.dstAddr.toNat + r.dstCap.toNat

/-- Check 1 of R294: both lengths at most `LEN_MAX`. -/
abbrev Regions.lengthsLegal (r : Regions) : Prop :=
  r.srcLen.toNat ≤ Config.lenMax ∧ r.dstCap.toNat ≤ Config.lenMax

/-- Check 2 of R294: neither region passes address 2^32. -/
abbrev Regions.inSpace (r : Regions) : Prop :=
  r.srcEnd ≤ Config.addrSpace ∧ r.dstEnd ≤ Config.addrSpace

/-- Check 3 of R294: two regions that are not empty do not overlap. -/
abbrev Regions.apart (r : Regions) : Prop :=
  r.srcLen.toNat = 0 ∨ r.dstCap.toNat = 0
    ∨ r.srcEnd ≤ r.dstAddr.toNat ∨ r.dstEnd ≤ r.srcAddr.toNat

/-- The region checks of R294. -/
abbrev Regions.legal (r : Regions) : Prop := r.lengthsLegal ∧ r.inSpace ∧ r.apart

/-- Whether an address lies in the source region (R81). -/
abbrev Regions.inSrc (r : Regions) (a : Nat) : Prop := inRange r.srcAddr.toNat r.srcEnd a

/-- Whether an address lies in the destination region (R81). -/
abbrev Regions.inDst (r : Regions) (a : Nat) : Prop := inRange r.dstAddr.toNat r.dstEnd a

/-- `src[i]`: a byte of the latched source region (00_scope.md R10). -/
def State.srcByte (s : State) (i : Nat) : Byte := s.mem.read (s.latch.srcAddr.toNat + i)

/-- The bytes `dst[lo .. DST_CAP)` of the latched destination region become unspecified. The end is cut at
2^32, past which there is no memory (20_memory.md R80). -/
def State.spoilDst (s : State) (lo : Nat) : State :=
  { s with
    mem := s.mem.spoil (s.latch.dstAddr.toNat + lo) (min s.latch.dstEnd Config.addrSpace) s.draws
    draws := s.draws + 1 }

/-! ### Accepting and finishing a command (42_commands.md R291 to R298) -/

/-- Acceptance of the value `v` written to `CMD`: `STATUS` and the latches in one step; the result registers
keep their old values (R292, R293). -/
def State.accept (s : State) (v : Word) : State :=
  { s with status := Status.accepted v, latch := s.cfg, engine := .started v }

/-- `Finish`: the result registers, then `STATUS`, in one step (R298). The host has still to see it (R290). -/
def State.finish (s : State) (e : Option ErrorKind) (result expect pos : Word) : State :=
  { s with
    resultLen := result, expectLen := expect, errPos := pos
    status := s.status.finished e, engine := .idle
    unseen := s.latch :: s.unseen }

/-- `L` if the header varint decoded in this command, else 0 (60_exceptions.md R313). -/
def State.decodedLen (s : State) : Word :=
  match s.engine with
  | .decompress d => d.expect
  | _ => 0#32

/-- TAKING AN ERROR, the device's exception: `raise E(pos)` ends the command with `RESULT_LEN = 0`,
`EXPECT_LEN = L` if the header decoded, and `ERR_POS = pos`; nothing else is saved, and there is no vector
and no mode (60_exceptions.md R313, R317). There is no return from it: the next acceptance clears it (R319). -/
def State.raise (s : State) (e : ErrorKind) (pos : Nat) : State :=
  s.finish (some e) 0#32 s.decodedLen (BitVec.ofNat 32 pos)

/-- An error after which every destination byte is unspecified (41_decompressor.md R246). -/
def State.raiseSpoiled (s : State) (e : ErrorKind) (pos : Nat) : State :=
  (s.raise e pos).spoilDst 0

/-! ### Bus faults (20_memory.md R93) -/

/-- Whether the platform fails the device's next memory phase; never under `BUS_FAULTS = none`. -/
def State.busFails (s : State) : Bool :=
  match s.params.busFaults, s.busPlan with
  | .platform, 0 :: _ => true
  | _, _ => false

/-- The state once the platform has decided that memory phase. -/
def State.busNext (s : State) : State :=
  match s.params.busFaults, s.busPlan with
  | .platform, 0 :: rest => { s with busPlan := rest }
  | .platform, (k + 1) :: rest => { s with busPlan := k :: rest }
  | _, _ => s

/-- A memory phase of the device that goes on as `k` says unless the platform fails it; then the command ends
with `BUS_ERROR(0)` and its destination bytes are unspecified (R93; 60_exceptions.md R312 cause 18). -/
def State.onBus (s : State) (k : State → Host.Outcome State Fault Refusal) :
    Host.Outcome State Fault Refusal :=
  if s.busFails then .next (s.busNext.raiseSpoiled .busError 0) else k s.busNext

/-! ### Reset (70_reset_and_hazards.md R350 to R352) -/

/-- The reset event: every register as 10_state.md R65 says, the hash table unspecified; memory unchanged,
but for the destination region of a command cut off, which becomes unspecified (R352; log 8). The
parameters, the inputs still to come, and what the host last read and has still to see are not the device's. -/
def State.resetEvent (s : State) : State :=
  let s := if s.status.busy then s.spoilDst 0 else s
  { s with
    cfg := Regions.zero, status := Status.zero
    resultLen := 0#32, expectLen := 0#32, errPos := 0#32
    latch := Regions.zero, engine := .idle
    table := ⟨0, [], s.draws⟩, draws := s.draws + 1 }

/-! ### The register block (10_state.md R31 to R45) -/

/-- What a read of the register at an offset returns; write-only and reserved offsets read 0 (R32, R44). -/
def State.readReg (s : State) (offset : Nat) : Word :=
  match offset with
  | 0x00 => Config.idValue
  | 0x08 => s.status.word
  | 0x0C => s.cfg.srcAddr
  | 0x10 => s.cfg.srcLen
  | 0x14 => s.cfg.dstAddr
  | 0x18 => s.cfg.dstCap
  | 0x1C => s.resultLen
  | 0x20 => s.expectLen
  | 0x24 => s.errPos
  | _ => 0#32

/-- A write to `CMD` or to a configuration register: while busy it is lost and sets `IGNORED` (R45). -/
def State.unlessBusy (s : State) (k : State → State) : State :=
  if s.status.busy then { s with status := s.status.markIgnored } else k s

/-- The state after a write to the register at an offset; read-only and reserved offsets ignore it (R32,
R34, R36 to R39, R44, R45). -/
def State.writeReg (s : State) (offset : Nat) (v : Word) : State :=
  match offset with
  | 0x04 => s.unlessBusy fun s => s.accept v
  | 0x0C => s.unlessBusy fun s => { s with cfg := { s.cfg with srcAddr := v } }
  | 0x10 => s.unlessBusy fun s => { s with cfg := { s.cfg with srcLen := v } }
  | 0x14 => s.unlessBusy fun s => { s with cfg := { s.cfg with dstAddr := v } }
  | 0x18 => s.unlessBusy fun s => { s with cfg := { s.cfg with dstCap := v } }
  | _ => s

end Sys2Proof.Machine
end

