-- ==== Sys2Proof/Machine/Operands.lean ====
section
/-! DEFINITION. How the decompressor fetches an element and what its operand forms do: the fetch of tag and
trailer (41_decompressor.md R234), the literal form (R236) and the copy form (R242), and the error of an
element. -/

namespace Sys2Proof.Machine

/-- The source bytes from offset `i` up to the source end, at most `k` of them. -/
def State.srcBytes (s : State) (i k : Nat) : List Byte :=
  (List.range (min k (s.latch.srcLen.toNat - i))).map fun j => s.srcByte (i + j)

/-- The element whose tag is at `in_pos`, decoded from its tag and trailer, at most five bytes (R234). -/
def State.fetchElement (s : State) (d : Decompressor) : Except Reject Instr :=
  match decodeElement (s.srcBytes d.inPos 5) with
  | .ok (i, _) => .ok i
  | .error r => .error r

/-- The error of the element whose tag is at `in_pos`: `PARSING_ERROR(t0)`, destination unspecified
(R234, R246). -/
def State.elementError (s : State) (d : Decompressor) : State :=
  s.raiseSpoiled .parsingError d.inPos

/-- What every element shares: it runs inside a DECOMPRESS, in regions that lie in memory, and its trailer
must lie in the source (R233, R234). The rest runs with the decompressor's working state. -/
def onElement (tb : Nat) (s : State)
    (k : Decompressor → Host.Outcome State Fault Refusal) : Host.Outcome State Fault Refusal :=
  match s.engine with
  | .decompress d =>
    if ¬ s.latch.inSpace then .fault .addressOutsideMemory
    else if s.latch.srcLen.toNat < d.inPos + 1 + tb then .next (s.elementError d)
    else k d
  | .idle | .started _ | .compress _ => .refused .noElementRunning

/-- `DoLiteral(len)` for a literal with `tb` trailer bytes whose tag is at `in_pos` (R236). -/
def doLiteral (tb len : Nat) (s : State) : Host.Outcome State Fault Refusal :=
  onElement tb s fun d =>
    if s.latch.srcLen.toNat < d.inPos + 1 + tb + len ∨ s.latch.dstCap.toNat < d.outPos + len then
      .next (s.elementError d)
    else
      s.onBus fun s => .next
        { s with
          mem := s.mem.move (s.latch.dstAddr.toNat + d.outPos)
            (s.latch.srcAddr.toNat + (d.inPos + 1 + tb)) len
          engine := .decompress
            { d with inPos := d.inPos + 1 + tb + len, outPos := d.outPos + len } }

/-- `DoCopy(off, len)` for a copy with `tb` trailer bytes whose tag is at `in_pos` (R242). -/
def doCopy (tb off len : Nat) (s : State) : Host.Outcome State Fault Refusal :=
  onElement tb s fun d =>
    if off = 0 ∨ d.outPos < off ∨ s.latch.dstCap.toNat < d.outPos + len then
      .next (s.elementError d)
    else
      s.onBus fun s => .next
        { s with
          mem := s.mem.move (s.latch.dstAddr.toNat + d.outPos)
            (s.latch.dstAddr.toNat + (d.outPos - off)) len
          engine := .decompress
            { d with inPos := d.inPos + 1 + tb, outPos := d.outPos + len } }

end Sys2Proof.Machine
end

