-- ==== Sys2Proof/Machine/Copies.lean ====
section
/-! DEFINITION. The copy forms (41_decompressor.md R243 to R245). -/

namespace Sys2Proof.Machine

/-- `COPY1 off, len`: one trailer byte (R243). -/
def execCopy1 (off len : Nat) (s : State) : Host.Outcome State Fault Refusal := doCopy 1 off len s

/-- `COPY2 off, len`: two trailer bytes (R244). -/
def execCopy2 (off len : Nat) (s : State) : Host.Outcome State Fault Refusal := doCopy 2 off len s

/-- `COPY4 off, len`: four trailer bytes (R245). -/
def execCopy4 (off len : Nat) (s : State) : Host.Outcome State Fault Refusal := doCopy 4 off len s

end Sys2Proof.Machine
end

