-- ==== Sys2Proof/Machine/Literals.lean ====
section
/-! DEFINITION. The literal forms (41_decompressor.md R237 to R241). -/

namespace Sys2Proof.Machine

/-- `LIT`: no trailer (R237). -/
def execLit (len : Nat) (s : State) : Host.Outcome State Fault Refusal := doLiteral 0 len s

/-- `LIT1`: one trailer byte (R238). -/
def execLit1 (len : Nat) (s : State) : Host.Outcome State Fault Refusal := doLiteral 1 len s

/-- `LIT2`: two trailer bytes (R239). -/
def execLit2 (len : Nat) (s : State) : Host.Outcome State Fault Refusal := doLiteral 2 len s

/-- `LIT3`: three trailer bytes (R240). -/
def execLit3 (len : Nat) (s : State) : Host.Outcome State Fault Refusal := doLiteral 3 len s

/-- `LIT4`: four trailer bytes (R241). -/
def execLit4 (len : Nat) (s : State) : Host.Outcome State Fault Refusal := doLiteral 4 len s

end Sys2Proof.Machine
end

