-- ==== Sys2Proof/Machine/Decompressor.lean ====
section
/-! DEFINITION. The decompressor's header, element loop and end (41_decompressor.md R230 to R235, R247,
R248). -/

namespace Sys2Proof.Machine

/-- The element an element form executes; a command is no element and never stands in the stream
(60_exceptions.md R325). -/
def execElement (i : Instr) (s : State) : Host.Outcome State Fault Refusal :=
  match i with
  | .lit len => execLit len s
  | .lit1 len => execLit1 len s
  | .lit2 len => execLit2 len s
  | .lit3 len => execLit3 len s
  | .lit4 len => execLit4 len s
  | .copy1 off len => execCopy1 off len s
  | .copy2 off len => execCopy2 off len s
  | .copy4 off len => execCopy4 off len s
  | .nop | .compress | .decompress | .maxlen => .refused .noElementRunning

/-- Header decode and capacity check (R231, R232): the header's errors change no destination byte (R246).
An empty source is read nowhere, so the platform has no access to fail. -/
def beginDecompress (s : State) : Host.Outcome State Fault Refusal :=
  let header (s : State) : Host.Outcome State Fault Refusal :=
    match decodeHeader s.srcByte s.latch.srcLen.toNat with
    | .error pos => .next (s.raise .parsingError pos)
    | .ok (len, hlen) =>
      let s := { s with engine := .decompress ⟨hlen, 0, BitVec.ofNat 32 len⟩ }
      if s.latch.dstCap.toNat < len then .next (s.raise .invalidChunkSize hlen) else .next s
  if s.latch.srcLen.toNat = 0 then header s else s.onBus header

/-- The end of the element loop: the final length check (R247), or success (R248), after which the bytes from
`L` on are unspecified (R246). -/
def finishDecompress (s : State) (d : Decompressor) : State :=
  if d.outPos = d.expect.toNat then (s.finish none d.expect d.expect 0#32).spoilDst d.outPos
  else s.raiseSpoiled .invalidChunkSize s.latch.srcLen.toNat

/-- One action of a running DECOMPRESS: the next element, which `run` executes, or the end (R233, R234). -/
def decompressorAction (run : Instr → State → Host.Outcome State Fault Refusal) (s : State)
    (d : Decompressor) : Host.Outcome State Fault Refusal :=
  if d.inPos < s.latch.srcLen.toNat then
    if ¬ s.latch.inSpace then .fault .addressOutsideMemory
    else s.onBus fun s =>
      match s.fetchElement d with
      | .ok i => run i s
      | .error _ => .next (s.elementError d)
  else .next (finishDecompress s d)

/-- At most `k` actions of a running DECOMPRESS. -/
def runDecompressor : Nat → State → Host.Outcome State Fault Refusal
  | 0, s => .next s
  | k + 1, s =>
    match s.engine with
    | .decompress d => andThen (decompressorAction execElement s d) (runDecompressor k)
    | .idle | .started _ | .compress _ => .next s

/-- A running DECOMPRESS carried to its end: every element takes at least two source bytes (R235), so this
many actions are enough. -/
def finishDecompressor (s : State) : Host.Outcome State Fault Refusal :=
  runDecompressor (s.latch.srcLen.toNat + 1) s

end Sys2Proof.Machine
end

