-- ==== Sys2Proof/Machine/Compressor.lean ====
section
/-! DEFINITION. The compressor's algorithm, one action per turn of a loop of its pseudocode
(40_compressor.md R170 to R187). -/

namespace Sys2Proof.Machine

/-! ### Emission (R180 to R183) -/

/-- The shortest literal form that holds a length (30_encoding.md R138, 40_compressor.md R180). -/
def literalForm (len : Nat) : Instr :=
  if len - 1 < Config.litDirectMax then .lit len
  else if len - 1 < 256 then .lit1 len
  else if len - 1 < 65536 then .lit2 len
  else if len - 1 < 16777216 then .lit3 len
  else .lit4 len

/-- `EmitLiteral(s, len)`: the form and the payload `src[s .. s+len)` (R180). -/
def emitLiteral (src : Nat → Byte) (start len : Nat) : List Byte :=
  encode (literalForm len) ++ (List.range len).map fun i => src (start + i)

/-- The copy form `EmitCopyLT64(off, m)` writes (R183). -/
def copyForm (off m : Nat) : Instr :=
  if m < Config.copy1LenLimit ∧ off < Config.copy1OffLimit then .copy1 off m else .copy2 off m

/-- The lengths of the pieces `EmitCopy` cuts a copy of length `m` into (R182); the first argument bounds the
number of full pieces, and `m` is enough. -/
def copyPieces : Nat → Nat → List Nat
  | 0, m => [m]
  | fuel + 1, m =>
    if Config.copySplitAt ≤ m then Config.copyPiece :: copyPieces fuel (m - Config.copyPiece)
    else if Config.copyPiece < m then [Config.copyTailPiece, m - Config.copyTailPiece]
    else [m]

/-- `EmitCopy(off, m)`: every piece has the same offset (R182). -/
def emitCopy (off m : Nat) : List Byte :=
  (copyPieces m m).flatMap fun piece => encode (copyForm off piece)

/-! ### Matching (R174 to R176, R181) -/

/-- `Load32(i) = LE_4(src, i)` (R176). -/
def load32 (src : Nat → Byte) (i : Nat) : Word :=
  BitVec.ofNat 32 (leValue [src i, src (i + 1), src (i + 2), src (i + 3)])

/-- `Hash(v)`: the low 32 bits of the product, shifted right (R175). -/
def hash (shift : Nat) (v : Word) : Nat := (v * Config.hashMul).toNat >>> shift

/-- The table size, doubled from `ts` at most `k` times (R174). -/
def growTable : Nat → Nat → Nat → Nat
  | 0, ts, _ => ts
  | k + 1, ts, w => if ts < Config.htMax ∧ ts < w then growTable k (2 * ts) w else ts

/-- The table size for a window of `w` bytes; six doublings lead from 256 to 16384 (R174). -/
def tableSize (w : Nat) : Nat := growTable 6 Config.htMin w

/-- `MatchLen(a, b, limit)` with `limit - b` as its last argument (R181). -/
def matchLen (src : Nat → Byte) (a b : Nat) : Nat → Nat
  | 0 => 0
  | room + 1 => if src a = src b then matchLen src (a + 1) (b + 1) room + 1 else 0

/-! ### One action -/

/-- The compressor before it writes the header: `op` is 0 and `wb` is 0 (R170). DESIGN CHOICE (log 23): the
per-window values, which have none in the spec until the first window set-up (10_state.md R57), are 0 here; no
action reads them before that set-up writes them. -/
def Compressor.initial : Compressor where
  phase := .header
  op := 0
  wb := 0
  we := 0
  ip := 0
  nextEmit := 0
  ipLimit := 0
  cand := 0
  ts := 0
  shift := 0
  skip := 0

/-- `WindowSetup` for the window at `wb` (R173, R174). -/
def windowSetup (n : Nat) (c : Compressor) (t : HashTable) : Compressor × HashTable :=
  let we := min n (c.wb + Config.window)
  let ts := tableSize (we - c.wb)
  ({ c with
     phase := .scan, we := we, ts := ts, shift := 32 - Nat.log2 ts
     ip := c.wb, nextEmit := c.wb, ipLimit := (we : Int) - Config.inputMargin },
   t.clear ts)

/-- The test of the window loop (R178) and, if it holds, the start of `Search` (R177). -/
def scanTest (c : Compressor) : Compressor :=
  if (c.ip : Int) ≤ c.ipLimit then
    { c with phase := .probe, skip := Config.skipInit, ip := c.ip + 1 }
  else { c with phase := .tail }

/-- The loop test of `Search`: a probe is made at `ip` (R177). -/
abbrev Compressor.probes (c : Compressor) : Prop :=
  ((c.ip + c.skip >>> Config.skipShift : Nat) : Int) ≤ c.ipLimit

/-- Whether source bytes of the window are left to emit (R185). -/
abbrev Compressor.pending (c : Compressor) : Prop := c.nextEmit < c.we

/-- One probe of `Search` (R177): the table is written before the compare, on a match as on a miss. A match
emits the literal before the copy (R179). Not found ends the window loop (R178). -/
def probe (src : Nat → Byte) (c : Compressor) (t : HashTable) :
    Compressor × HashTable × List Byte :=
  if c.probes then
    let cur := load32 src c.ip
    let h := hash c.shift cur
    let cand := c.wb + (t.get h).toNat
    let t := t.set h (BitVec.ofNat 16 (c.ip - c.wb))
    if load32 src cand = cur then
      ({ c with phase := .copy, cand := cand }, t,
        if c.nextEmit < c.ip then emitLiteral src c.nextEmit (c.ip - c.nextEmit) else [])
    else ({ c with cand := cand, ip := c.ip + c.skip >>> Config.skipShift, skip := c.skip + 1 }, t, [])
  else ({ c with phase := .tail }, t, [])

/-- One turn of `CopyRun`'s loop (R184). -/
def copyTurn (src : Nat → Byte) (c : Compressor) (t : HashTable) :
    Compressor × HashTable × List Byte :=
  let m := 4 + matchLen src (c.cand + 4) (c.ip + 4) (c.we - (c.ip + 4))
  let bytes := emitCopy (c.ip - c.cand) m
  let ip := c.ip + m
  let c := { c with ip := ip, nextEmit := ip }
  if c.ipLimit ≤ (ip : Int) then ({ c with phase := .scan }, t, bytes)
  else
    let t := t.set (hash c.shift (load32 src (ip - 1))) (BitVec.ofNat 16 (ip - 1 - c.wb))
    let h := hash c.shift (load32 src ip)
    let cand := c.wb + (t.get h).toNat
    let t := t.set h (BitVec.ofNat 16 (ip - c.wb))
    if load32 src cand = load32 src ip then ({ c with cand := cand }, t, bytes)
    else ({ c with phase := .scan, cand := cand }, t, bytes)

/-- The remainder of the window (R185), and on to the next window (R170). -/
def remainder (src : Nat → Byte) (c : Compressor) : Compressor × List Byte :=
  ({ c with phase := .window, wb := c.we },
    if c.pending then emitLiteral src c.nextEmit (c.we - c.nextEmit) else [])

/-- One action of the compressor on the source bytes `src`, `n` of them: its working state, the hash table, and
the bytes it emits next (R170 to R185). -/
def Compressor.act (n : Nat) (src : Nat → Byte) (c : Compressor) (t : HashTable) :
    Compressor × HashTable × List Byte :=
  match c.phase with
  | .header => ({ c with phase := .window }, t, encodeVarint n)
  | .window =>
    let r := windowSetup n c t
    (r.1, r.2, [])
  | .scan => (scanTest c, t, [])
  | .probe => probe src c t
  | .copy => copyTurn src c t
  | .tail =>
    let r := remainder src c
    (r.1, t, r.2)

/-- Whether the window loop is over: no window is left (R170). -/
abbrev Compressor.finished (n : Nat) (c : Compressor) : Prop := c.phase = .window ∧ n ≤ c.wb

/-- The block the algorithm makes from `c` on, at most `k` actions: the bytes R170 to R186 give, as a function
of the source bytes alone (R191, R192). -/
def exactFrom : Nat → Nat → (Nat → Byte) → Compressor → HashTable → List Byte
  | 0, _, _, _, _ => []
  | k + 1, n, src, c, t =>
    if c.finished n then []
    else
      let r := c.act n src t
      r.2.2 ++ exactFrom k n src r.1 r.2.1

/-- Enough actions for a source of `n` bytes: each window takes a set-up, a remainder and, for every byte of
it, at most a few more (R178, R302). -/
def compressorActions (n : Nat) : Nat := 8 * n + 8

/-- The compressed block of R170 to R186 for `n` source bytes. -/
def exactBlock (n : Nat) (src : Nat → Byte) : List Byte :=
  exactFrom (compressorActions n) n src Compressor.initial ⟨0, [], 0⟩

end Sys2Proof.Machine
end

