-- ==== Sys2Proof/Machine/Relational.lean ====
section
/-! DEFINITION. What a compressed block means as a byte sequence (30_encoding.md R120, 41_decompressor.md
R230), and the blocks `COMPRESSOR_MODE = relational` admits (40_compressor.md R191). -/

namespace Sys2Proof.Machine

/-- `len` bytes appended to an output, each the byte `off` before its place (41_decompressor.md R242). -/
def appendCopy (out : List Byte) (off : Nat) : Nat → List Byte
  | 0 => out
  | len + 1 => appendCopy (out ++ [out.getD (out.length - off) 0#8]) off len

/-- The output after one element, and the stream after it; nothing where the element is in error for the
capacity `cap` (R236, R242). -/
def elementOutput (cap : Nat) (i : Instr) (rest out : List Byte) : Option (List Byte × List Byte) :=
  let literal (len : Nat) :=
    if rest.length < len ∨ cap < out.length + len then none
    else some (rest.drop len, out ++ rest.take len)
  let copy (off len : Nat) :=
    if off = 0 ∨ out.length < off ∨ cap < out.length + len then none
    else some (rest, appendCopy out off len)
  match i with
  | .lit len | .lit1 len | .lit2 len | .lit3 len | .lit4 len => literal len
  | .copy1 off len | .copy2 off len | .copy4 off len => copy off len
  | .nop | .compress | .decompress | .maxlen => none

/-- The output of an element stream appended to `out`, where every element satisfies `ok` of its output
position; at most `k` elements (R233). -/
def expandFrom (ok : Nat → Instr → Bool) (cap : Nat) :
    Nat → List Byte → List Byte → Option (List Byte)
  | _, [], out => some out
  | 0, _ :: _, _ => none
  | k + 1, b :: bs, out =>
    match decodeElement (b :: bs) with
    | .error _ => none
    | .ok (i, rest) =>
      if ok out.length i then
        match elementOutput cap i rest out with
        | none => none
        | some (rest, out) => expandFrom ok cap k rest out
      else none

/-- What a block decodes to, with every element satisfying `ok`; nothing where DECOMPRESS ends in an error
(41_decompressor.md R230). -/
def expandBlockWith (ok : Nat → Instr → Bool) (cap : Nat) (block : List Byte) : Option (List Byte) :=
  match decodeHeader (fun k => block.getD k 0#8) block.length with
  | .error _ => none
  | .ok (len, hlen) =>
    if cap < len then none
    else match expandFrom ok cap block.length (block.drop hlen) [] with
      | none => none
      | some out => if out.length = len then some out else none

/-- What a block decodes to (41_decompressor.md R230, R251). -/
def expandBlock (cap : Nat) (block : List Byte) : Option (List Byte) :=
  expandBlockWith (fun _ _ => true) cap block

/-- The compressor's subset of the element forms (30_encoding.md R135), and, for a copy at the output position
`pos`, that source and destination lie in one window (40_compressor.md R173, R191). -/
def emitted (pos : Nat) (i : Instr) : Bool :=
  let inWindow (off len : Nat) : Bool :=
    decide (off ≤ pos ∧ (pos - off) / Config.window = (pos + len - 1) / Config.window)
  match i with
  | .lit len => decide (1 ≤ len ∧ len ≤ 60)
  | .lit1 len => decide (61 ≤ len ∧ len ≤ 256)
  | .lit2 len => decide (257 ≤ len ∧ len ≤ 65536)
  | .copy1 off len => decide (4 ≤ len ∧ len ≤ 11 ∧ 1 ≤ off ∧ off ≤ 2047) && inWindow off len
  | .copy2 off len => decide (4 ≤ len ∧ len ≤ 64 ∧ 1 ≤ off ∧ off ≤ 65535) && inWindow off len
  | .lit3 _ | .lit4 _ | .copy4 _ _ | .nop | .compress | .decompress | .maxlen => false

/-- R191: a block `c` that COMPRESS may write for the source `b` under `relational`. It begins with the shortest
header varint, is made of the emitted subset with no copy across a window boundary, decodes to `b` (R189),
and is no longer than R190 allows. -/
def admissible (b c : List Byte) : Bool :=
  decide (c.take (encodeVarint b.length).length = encodeVarint b.length)
    && decide (expandBlockWith emitted b.length c = some b)
    && decide (c.length ≤ Config.maxLen b.length)

/-- The block COMPRESS writes under `relational`: the free block of this draw if R191 admits it, else the exact
one, which R191 admits too (log 7). -/
def relationalBlock (draw n : Nat) (src : Nat → Byte) : List Byte :=
  let b := (List.range n).map src
  if admissible b (Config.freeBlock draw b) then Config.freeBlock draw b else exactBlock n src

end Sys2Proof.Machine
end

