-- ==== Sys2Proof/Machine/Commands.lean ====
section
/-! DEFINITION. The host commands (42_commands.md R299, R300; 40_compressor.md R170; 41_decompressor.md R230)
as the device runs them once they are accepted. -/

namespace Sys2Proof.Machine

/-- COMPRESS has made its block: `RESULT_LEN = op` (40_compressor.md R187); the bytes beyond are unspecified
(R188). -/
def finishCompress (s : State) (c : Compressor) : State :=
  (s.finish none (BitVec.ofNat 32 c.op) 0#32 0#32).spoilDst c.op

/-- `EmitBytes` (40_compressor.md R172): the bytes at `dst[op ..]`, with the compressor's new working state and
hash table. -/
def State.emit (s : State) (c : Compressor) (t : HashTable) (bytes : List Byte) : State :=
  { s with
    mem := s.mem.writeList (s.latch.dstAddr.toNat + c.op) bytes
    table := t
    engine := .compress { c with op := c.op + bytes.length } }

/-- The action of the mode: under `relational` the whole block is written in place of the header, and no window
is left (40_compressor.md R191). -/
def compressorWork (s : State) (c : Compressor) : State :=
  let n := s.latch.srcLen.toNat
  if s.params.mode = .relational ∧ c.phase = .header then
    { s.emit { c with phase := .window, wb := n } s.table (relationalBlock s.draws n s.srcByte) with
      draws := s.draws + 1 }
  else
    let r := c.act n s.srcByte s.table
    s.emit r.1 r.2.1 r.2.2

/-- Whether the next action reads or writes memory, so that the platform can fail it (20_memory.md R93): the header,
a probe that is made, a copy, and a remainder with bytes left. A window set-up, a loop test and a loop's end make no
access (log 6). -/
def Compressor.onMemory (c : Compressor) : Bool :=
  match c.phase with
  | .header | .copy => true
  | .probe => decide c.probes
  | .tail => decide c.pending
  | .window | .scan => false

/-- One action of a running COMPRESS, or its end. -/
def compressorAction (s : State) (c : Compressor) : Host.Outcome State Fault Refusal :=
  if c.finished s.latch.srcLen.toNat then .next (finishCompress s c)
  else if ¬ s.latch.inSpace then .fault .addressOutsideMemory
  else if c.onMemory then s.onBus fun s => .next (compressorWork s c)
  else .next (compressorWork s c)

/-- At most `k` actions of a running COMPRESS. -/
def runCompressor : Nat → State → Host.Outcome State Fault Refusal
  | 0, s => .next s
  | k + 1, s =>
    match s.engine with
    | .compress c => andThen (compressorAction s c) (runCompressor k)
    | .idle | .started _ | .decompress _ => .next s

/-- A running COMPRESS carried to its end. -/
def finishCompressor (s : State) : Host.Outcome State Fault Refusal :=
  runCompressor (compressorActions s.latch.srcLen.toNat) s

/-- A command that has begun: with no host move to come it is carried to its end in this step, else it goes on
by the device's next turns (42_commands.md R297, 70_reset_and_hazards.md R366; log 5). -/
def settle (carry : State → Host.Outcome State Fault Refusal) (s : State) :
    Host.Outcome State Fault Refusal :=
  if s.turns = [] then carry s else .next s

/-- `NOP`: `Finish(ok)` with every result 0 (R299). -/
def execNop (s : State) : Host.Outcome State Fault Refusal :=
  .next (s.finish none 0#32 0#32 0#32)

/-- `MAXLEN`: check 1 of R294 for `SRC_LEN` only, then `RESULT_LEN = MAXLEN(SRC_LEN)` (R300). -/
def execMaxlen (s : State) : Host.Outcome State Fault Refusal :=
  if Config.lenMax < s.latch.srcLen.toNat then .next (s.raise .regionError 0)
  else .next (s.finish none (BitVec.ofNat 32 (Config.maxLen s.latch.srcLen.toNat)) 0#32 0#32)

/-- `COMPRESS`: the region checks, the capacity check, then the block (R170, R171, R294, R295). -/
def execCompress (s : State) : Host.Outcome State Fault Refusal :=
  if ¬ s.latch.legal then .next (s.raise .regionError 0)
  else if s.latch.dstCap.toNat < Config.maxLen s.latch.srcLen.toNat then
    .next (s.raise .dstTooSmall 0)
  else settle finishCompressor { s with engine := .compress Compressor.initial }

/-- `DECOMPRESS`: the region checks, the header, then the elements (R230, R294, R295). -/
def execDecompress (s : State) : Host.Outcome State Fault Refusal :=
  if ¬ s.latch.legal then .next (s.raise .regionError 0)
  else andThen (beginDecompress s) (settle finishDecompressor)

/-- An accepted value with bits 31:2 set: `raise ILLEGAL_COMMAND(0)` (R296). -/
def illegalCommand (s : State) : Host.Outcome State Fault Refusal :=
  .next (s.raise .illegalCommand 0)

end Sys2Proof.Machine
end

