-- ==== Sys2Proof/Machine/Dispatch.lean ====
section
/-! DEFINITION. One arm per instruction. -/

namespace Sys2Proof.Machine

def exec (i : Instr) (s : State) : Host.Outcome State Fault Refusal :=
  match i with
  | .lit len => Sys2Proof.Machine.execLit len s
  | .lit1 len => Sys2Proof.Machine.execLit1 len s
  | .lit2 len => Sys2Proof.Machine.execLit2 len s
  | .lit3 len => Sys2Proof.Machine.execLit3 len s
  | .lit4 len => Sys2Proof.Machine.execLit4 len s
  | .copy1 off len => Sys2Proof.Machine.execCopy1 off len s
  | .copy2 off len => Sys2Proof.Machine.execCopy2 off len s
  | .copy4 off len => Sys2Proof.Machine.execCopy4 off len s
  | .nop => Sys2Proof.Machine.execNop s
  | .compress => Sys2Proof.Machine.execCompress s
  | .decompress => Sys2Proof.Machine.execDecompress s
  | .maxlen => Sys2Proof.Machine.execMaxlen s

end Sys2Proof.Machine
end

