-- ==== Sys2Proof/Machine/HostPort.lean ====
section
/-! DEFINITION. What the host's moves do (42_commands.md R290; 10_state.md R31 to R45; 20_memory.md R95). -/

namespace Sys2Proof.Machine

/-- The register offset of a host bus access, or why it has no meaning: it lies in the block of offsets 0x00 to
0xFF at `REG_BASE`, and it is an aligned 32-bit access (10_state.md R31, R44; logs 4, 16). -/
def State.registerOffset (s : State) (addr : Word) (width : Nat) : Except Refusal Nat :=
  let base := s.params.regBase.toNat
  let offset := addr.toNat - base
  if addr.toNat < base ∨ Config.blockBytes ≤ offset then .error .outsideDevice
  else if width = 4 ∧ addr.toNat % 4 = 0 ∧ offset % 4 = 0 then .ok offset
  else .error .registerAccessShape

/-- Whether an address lies in the destination of a finished command whose `DONE = 1` the host has not read
(42_commands.md R290, row finish; log 24). -/
abbrev State.unseenDst (s : State) (a : Nat) : Prop := ∃ r ∈ s.unseen, r.inDst a

/-- A host read of the register at an offset; a read of `STATUS` that returns `DONE = 1` shows the host that every
accepted command has finished (R290, 20_memory.md R96). -/
def State.hostReadReg (s : State) (offset : Nat) : State :=
  { s with
    hostData := s.readReg offset
    unseen := if offset = 0x08 ∧ s.status.done then [] else s.unseen }

/-- A host read of a byte of memory; the destination of a running command reads a free value (20_memory.md R95). -/
def State.hostRead (s : State) (a : Word) : State :=
  if s.status.busy ∧ s.latch.inDst a.toNat then
    { s with
      hostData := (Config.freeByte s.draws a.toNat).zeroExtend 32
      draws := s.draws + 1 }
  else { s with hostData := (s.mem.read a.toNat).zeroExtend 32 }

/-- One move of the host, or of the platform for reset (R290). -/
def hostMove (a : HostAction) (s : State) : Host.Outcome State Fault Refusal :=
  match a with
  | .readReg addr width =>
    match s.registerOffset addr width with
    | .ok offset => .next (s.hostReadReg offset)
    | .error r => .refused r
  | .writeReg addr width v =>
    match s.registerOffset addr width with
    | .ok offset => .next (s.writeReg offset v)
    | .error r => .refused r
  | .readMem addr =>
    if s.unseenDst addr.toNat then .refused .hostDutyBroken else .next (s.hostRead addr)
  | .writeMem addr b =>
    if s.status.busy ∧ (s.latch.inSrc addr.toNat ∨ s.latch.inDst addr.toNat) then
      .refused .hostDutyBroken
    else .next { s with mem := s.mem.write addr.toNat b }
  | .reset => .next s.resetEvent

end Sys2Proof.Machine
end

