-- ==== Sys2Proof/Machine/Cycle.lean ====
section
/-! DEFINITION. One move of the machine: the device's action or the host's, as the schedule says (00_scope.md
R13, 42_commands.md R297), and the state in which a given instruction comes next. -/

namespace Sys2Proof.Machine

/-- One move of the device: nothing while idle (70_reset_and_hazards.md R353); the accepted command, legal or not
(42_commands.md R295); the next action of a running engine, or all of them if the host sends nothing more. -/
def deviceMove (s : State) : Host.Outcome State Fault Refusal :=
  match s.engine with
  | .idle => .next s
  | .started v =>
    match decodeCommand v with
    | .ok i => exec i s
    | .error _ => illegalCommand s
  | .compress c => if s.turns = [] then finishCompressor s else compressorAction s c
  | .decompress d => if s.turns = [] then finishDecompressor s else decompressorAction exec s d

/-- One step: the head of the schedule moves; with an empty schedule, the device. -/
def cycle (s : State) : Host.Outcome State Fault Refusal :=
  match s.turns with
  | [] => deviceMove s
  | .device :: rest => deviceMove { s with turns := rest }
  | .host a :: rest => hostMove a { s with turns := rest }

/-- The schedule with the device's turn put first, and a turn after it: the device then makes one action. -/
def State.oneAction (s : State) : State :=
  { s with turns := .device :: (if s.turns = [] then [.device] else s.turns) }

/-- The state in which the value `v` is accepted and the device moves next (42_commands.md R292). -/
def State.withCommand (s : State) (v : Word) : State :=
  let s := s.accept v
  if s.turns = [] then s else { s with turns := .device :: s.turns }

/-- The configuration in which a lone element is placed: 64 KiB of source at 0, 64 KiB of destination after it. -/
def elementRegions : Regions := ⟨0#32, 65536#32, 65536#32, 65536#32⟩

/-- The state in which a DECOMPRESS runs and its next tag is at source offset `in_pos`, with room for the five
bytes of the longest tag and trailer: the running one if it has the room, else one whose header, at offset 0,
is the single byte 0. -/
def State.withDecompress (s : State) : State × Decompressor :=
  let fresh : State × Decompressor :=
    let d : Decompressor := ⟨1, 0, 0#32⟩
    ({ s with
       cfg := elementRegions, latch := elementRegions
       status := Status.accepted 2#32, engine := .decompress d
       mem := s.mem.write 0 0#8 }, d)
  match s.engine with
  | .decompress d =>
    if s.latch.inSpace ∧ d.inPos + 5 ≤ s.latch.srcLen.toNat then (s, d) else fresh
  | .idle | .started _ | .compress _ => fresh

/-- The state in which the element whose tag and trailer are the low bytes of `w` is what the device fetches and
executes next. -/
def State.withElement (s : State) (w : Nat) : State :=
  let (s, d) := s.withDecompress
  let s := { s with mem := s.mem.writeList (s.latch.srcAddr.toNat + d.inPos) (leBytes 5 w) }
  s.oneAction

end Sys2Proof.Machine
end

