-- ==== Sys2Proof/Machine/Step.lean ====
section
/-! DEFINITION. The machine's step, and the state in which a given instruction is fetched next. -/

namespace Sys2Proof.Machine

/-- One step of the machine (42_commands.md R297). -/
def step (s : State) : Host.Outcome State Fault Refusal :=
  Sys2Proof.Machine.cycle s

/-- The instruction of `nbits` bits `w` placed where the next step fetches it: a 32-bit row is a value accepted by
`CMD`, every other row an element at the decompressor's `in_pos` (log 10). -/
def State.withFetchWord (s : State) (nbits w : Nat) : State :=
  if nbits = 32 then s.withCommand (BitVec.ofNat 32 w) else s.withElement w

end Sys2Proof.Machine
end

