-- ==== Sys2Proof/Safety.lean ====
section
/-! DEFINITION. What the claims speak of: how a command ends, what an element and a command leave unchanged, and
the invariants that every step keeps. -/

namespace Sys2Proof.Machine

/-- The device is next to move in `s`, and `s'` is the state it moves from. -/
def DeviceTurn (s s' : State) : Prop :=
  (s.turns = [] ∧ s' = s) ∨ ∃ rest, s.turns = .device :: rest ∧ s' = { s with turns := rest }

/-- The host is next to move in `s` by `a`, and `s'` is the state it moves from. -/
def HostTurn (s : State) (a : HostAction) (s' : State) : Prop :=
  ∃ rest, s.turns = .host a :: rest ∧ s' = { s with turns := rest }

/-- A host bus address that names the register at an offset, aligned (10_state.md R31). -/
def State.registerAt (s : State) (addr : Word) (offset : Nat) : Prop :=
  addr.toNat = s.params.regBase.toNat + offset ∧ addr.toNat % 4 = 0

/-- The bytes of the latched source region (20_memory.md R81). -/
def State.source (s : State) : List Byte := (List.range s.latch.srcLen.toNat).map s.srcByte

/-- `dst[j]`: a byte of the latched destination region (00_scope.md R10). -/
def State.dstByte (s : State) (j : Nat) : Byte := s.mem.read (s.latch.dstAddr.toNat + j)

/-- Every byte of memory reads as before. -/
def SameMemory (s t : State) : Prop := ∀ a, t.mem.read a = s.mem.read a

/-- Every byte outside the latched destination region reads as before (20_memory.md R82, R83). -/
def SameOutsideDst (s t : State) : Prop := ∀ a, ¬ s.latch.inDst a → t.mem.read a = s.mem.read a

/-- What no command and no element changes: the parameters, the configuration registers, the latches, the
inputs still to come and what the host last read. -/
structure DeviceFrame (s t : State) : Prop where
  params : t.params = s.params
  cfg : t.cfg = s.cfg
  latch : t.latch = s.latch
  turns : t.turns = s.turns
  hostData : t.hostData = s.hostData

/-- What an element that ends without error leaves unchanged besides: every host-visible register, the hash table
and the draws (10_state.md R46); the platform has decided one memory phase. -/
structure ElementFrame (s t : State) : Prop extends DeviceFrame s t where
  status : t.status = s.status
  resultLen : t.resultLen = s.resultLen
  expectLen : t.expectLen = s.expectLen
  errPos : t.errPos = s.errPos
  table : t.table = s.table
  draws : t.draws = s.draws
  busPlan : t.busPlan = s.busNext.busPlan
  unseen : t.unseen = s.unseen

/-- The command of `s` has ended in `t` (42_commands.md R298): with the error `e`, or without one, and these
results. `IGNORED` and `LASTCMD` are as they were, and the host has still to see the end (R290). -/
structure Ended (s t : State) (e : Option ErrorKind) (result expect pos : Nat) : Prop
    extends DeviceFrame s t where
  busy : t.status.busy = false
  done : t.status.done = true
  err : t.status.err = e.isSome
  errCode : t.status.errCode = errorCode e
  ignored : t.status.ignored = s.status.ignored
  lastCmd : t.status.lastCmd = s.status.lastCmd
  resultLen : t.resultLen.toNat = result
  expectLen : t.expectLen.toNat = expect
  errPos : t.errPos.toNat = pos
  engine : t.engine = .idle
  unseen : t.unseen = s.latch :: s.unseen

/-- What a command leaves unchanged that touches neither memory nor the hash table nor any free value. -/
structure Untouched (s t : State) : Prop where
  mem : t.mem = s.mem
  table : t.table = s.table
  busPlan : t.busPlan = s.busPlan
  draws : t.draws = s.draws

/-- The state invariant: memory and table in canonical form; the `STATUS` rules of 10_state.md R35; `BUSY` exactly
while an engine is at work (60_exceptions.md R330); the configuration equal to its latches while busy (10_state.md
R45, R64); and, while an engine runs, legal regions (42_commands.md R294), COMPRESS's capacity (40_compressor.md
R171) and the cursors' ranges (10_state.md R50, R51, R58). -/
structure Inv (s : State) : Prop where
  mem : s.mem.wf
  table : s.table.wf
  busy : s.status.busy = true ↔ s.engine ≠ .idle
  notBoth : ¬ (s.status.busy = true ∧ s.status.done = true)
  errDone : s.status.err = true → s.status.done = true
  noCode : s.status.err = false → s.status.errCode = 0#4
  code : s.status.err = true → 1 ≤ s.status.errCode.toNat ∧ s.status.errCode.toNat ≤ 6
  latched : s.status.busy = true → s.latch = s.cfg
  decompressor : ∀ d, s.engine = .decompress d → s.latch.legal
    ∧ d.inPos ≤ s.latch.srcLen.toNat ∧ d.outPos ≤ s.latch.dstCap.toNat
    ∧ d.expect.toNat ≤ s.latch.dstCap.toNat
  compressor : ∀ c, s.engine = .compress c → s.latch.legal
    ∧ Config.maxLen s.latch.srcLen.toNat ≤ s.latch.dstCap.toNat
    ∧ (c.phase = .scan ∨ c.phase = .probe ∨ c.phase = .copy → 18 ≤ c.shift ∧ c.shift ≤ 24)

/-- A window is set up (40_compressor.md R173, R174): it starts at a multiple of `WINDOW`, ends at the next one or
at the source end, and its table size, shift and limit are those of its size; what is emitted is a part of what is
scanned. -/
structure Compressor.InWindow (n : Nat) (c : Compressor) : Prop where
  aligned : c.wb % Config.window = 0
  nonempty : c.wb < c.we
  ends : c.we = min n (c.wb + Config.window)
  ts : c.ts = tableSize (c.we - c.wb)
  shift : c.shift = 32 - Nat.log2 c.ts
  limit : c.ipLimit = (c.we : Int) - Config.inputMargin
  base : c.wb ≤ c.nextEmit
  emitted : c.nextEmit ≤ c.ip

/-- The compressor's invariant, phase by phase (10_state.md R57; 40_compressor.md R177, R179, R184): scan positions
stay in the window, a probe stands past everything emitted and past every position the table holds, and a
candidate is always below the scan position. Before a window the scan position is not past its start, so that it
never moves back; before the first window it is 0, the choice of log 23. -/
def Compressor.inv (n : Nat) (t : HashTable) (c : Compressor) : Prop :=
  match c.phase with
  | .header => c.op = 0 ∧ c.wb = 0 ∧ c.ip = 0
  | .window => c.wb ≤ n ∧ (c.wb = n ∨ c.wb % Config.window = 0) ∧ c.ip ≤ c.wb
  | .scan => c.InWindow n ∧ c.ip ≤ c.we ∧ ∀ h, h < c.ts → c.wb + (t.get h).toNat ≤ c.ip
  | .probe => c.InWindow n ∧ c.nextEmit < c.ip ∧ (c.ip : Int) ≤ c.ipLimit + 1 ∧ Config.skipInit ≤ c.skip
      ∧ ∀ h, h < c.ts → c.wb + (t.get h).toNat < c.ip
  | .copy => c.InWindow n ∧ (c.ip : Int) ≤ c.ipLimit ∧ c.wb ≤ c.cand ∧ c.cand < c.ip
      ∧ ∀ h, h < c.ts → c.wb + (t.get h).toNat ≤ c.ip
  | .tail => c.InWindow n ∧ c.nextEmit ≤ c.we ∧ c.ip ≤ c.we

/-- The compressor's invariant in a state. -/
def CompressorInv (s : State) : Prop :=
  ∀ c, s.engine = .compress c → c.inv s.latch.srcLen.toNat s.table

end Sys2Proof.Machine
end

