-- ==== Sys2Proof/WellFormed.lean ====
section
/-! DEFINITION. Which operand values an encoding can carry (30_encoding.md R124 to R132). -/

namespace Sys2Proof

/-- Every operand lies in the range its encoding has room for (R132). -/
def Instr.wf : Instr → Bool
  | .lit len => decide (1 ≤ len ∧ len ≤ 60)
  | .lit1 len => decide (1 ≤ len ∧ len ≤ 256)
  | .lit2 len => decide (1 ≤ len ∧ len ≤ 65536)
  | .lit3 len => decide (1 ≤ len ∧ len ≤ 16777216)
  | .lit4 len => decide (1 ≤ len ∧ len ≤ 4294967296)
  | .copy1 off len => decide (off ≤ 2047 ∧ 4 ≤ len ∧ len ≤ 11)
  | .copy2 off len => decide (off ≤ 65535 ∧ 1 ≤ len ∧ len ≤ 64)
  | .copy4 off len => decide (off ≤ 4294967295 ∧ 1 ≤ len ∧ len ≤ 64)
  | .nop | .compress | .decompress | .maxlen => true

end Sys2Proof
end

