-- ==== Sys2Proof/Certificates/Slice0/Obligations.lean ====
section
/-! DEFINITION. The statements about the model, from the numbered rules of spec/. -/

open Sys2Proof Sys2Proof.Machine

/-! ### Encoding -/

/-- Decoding what the encoder makes of a well-formed instruction gives it back, and leaves the bytes after it. -/
def Obligations.DecodeEncodeRoundTrip : Prop :=
  ∀ (i : Instr) (rest : List Byte), i.wf = true → decode i.space (encode i ++ rest) = .ok (i, rest)

/-- What the element decoder reads is a well-formed element, and the encoder gives back every byte it read: each tag
and trailer has one meaning. -/
def Obligations.DecodedElementEncodesBack : Prop :=
  ∀ (bytes rest : List Byte) (i : Instr), decodeElement bytes = .ok (i, rest) →
    i.wf = true ∧ i.space = .element ∧ encode i ++ rest = bytes

/-- The operand table of R132, form by form, in the bits of the tag and the value of the trailer. -/
def Obligations.OperandsAreAssembledByTable : Prop :=
  ∀ (tag : Byte) (trailer rest : List Byte),
    let cls := tag.extractLsb 1 0
    let hi := (tag.extractLsb 7 2).toNat
    let t := leValue trailer
    let is (i : Instr) := decodeElement (tag :: (trailer ++ rest)) = .ok (i, rest)
    (cls = 0#2 → hi ≤ 59 → trailer.length = 0 → is (.lit (hi + 1)))
      ∧ (tag = 0xF0#8 → trailer.length = 1 → is (.lit1 (t + 1)))
      ∧ (tag = 0xF4#8 → trailer.length = 2 → is (.lit2 (t + 1)))
      ∧ (tag = 0xF8#8 → trailer.length = 3 → is (.lit3 (t + 1)))
      ∧ (tag = 0xFC#8 → trailer.length = 4 → is (.lit4 (t + 1)))
      ∧ (cls = 1#2 → trailer.length = 1 →
          is (.copy1 (((tag.extractLsb 7 5).toNat <<< 8) ||| t) ((tag.extractLsb 4 2).toNat + 4)))
      ∧ (cls = 2#2 → trailer.length = 2 → is (.copy2 t (hi + 1)))
      ∧ (cls = 3#2 → trailer.length = 4 → is (.copy4 t (hi + 1)))

/-- No tag is reserved: with the trailer it asks for, every tag decodes, and what is left is what follows it. -/
def Obligations.EveryTagDecodes : Prop :=
  ∀ (tag : Byte) (rest : List Byte),
    (trailerBytes tag ≤ rest.length → ∃ i, decodeElement (tag :: rest) = .ok (i, rest.drop (trailerBytes tag))
      ∧ i.trailer = trailerBytes tag)
      ∧ (rest.length < trailerBytes tag → decodeElement (tag :: rest) = .error .truncatedTrailer)

/-- Words written out from the spec's encodings decode to the instructions they stand for (30_encoding.md R137,
95_test_vectors.md V13). -/
def Obligations.SampleWordsDecode : Prop :=
  decodeElement [0xEC#8] = .ok (.lit 60, [])
    ∧ decodeElement [0xF0#8, 0x3C#8] = .ok (.lit1 61, [])
    ∧ decodeElement [0xFD#8, 0xFF#8] = .ok (.copy1 2047 11, [])
    ∧ decodeElement [0xFE#8, 0x04#8, 0x00#8] = .ok (.copy2 4 64, [])
    ∧ decodeElement [0x0F#8, 0x02#8, 0x00#8, 0x00#8, 0x00#8] = .ok (.copy4 2 4, [])
    ∧ decodeCommand 3#32 = .ok .maxlen
    ∧ decodeCommand 4#32 = .error .illegalCommand

/-- The header varint of R121: the number of bytes, what each carries, and its continuation bit. -/
def Obligations.VarintCarriesSevenBitGroups : Prop :=
  ∀ v : Nat, v < 2 ^ 32 →
    let bytes := encodeVarint v
    bytes.length = (if v < 2 ^ 7 then 1 else if v < 2 ^ 14 then 2 else if v < 2 ^ 21 then 3
      else if v < 2 ^ 28 then 4 else 5)
    ∧ ∀ k, k < bytes.length →
        (bytes.getD k 0#8).toNat % 128 = v / 2 ^ (7 * k) % 128
        ∧ (128 ≤ (bytes.getD k 0#8).toNat ↔ k + 1 < bytes.length)

/-- Which headers decode, to what value and with what length; and which do not, with the position reported (R122,
R231). -/
def Obligations.HeaderDecodeIsExact : Prop :=
  ∀ (src : Nat → Byte) (n : Nat),
    let b (k : Nat) := (src k).toNat
    (∀ v k, decodeHeader src n = .ok (v, k) ↔
      1 ≤ k ∧ k ≤ 5 ∧ k ≤ n ∧ (∀ j, j + 1 < k → 128 ≤ b j) ∧ b (k - 1) < 128 ∧ (k = 5 → b 4 < 16)
        ∧ v = ((List.range k).map fun j => b j % 128 * 2 ^ (7 * j)).sum)
    ∧ (∀ pos, decodeHeader src n = .error pos ↔
      (n ≤ 4 ∧ (∀ j, j < n → 128 ≤ b j) ∧ pos = n)
        ∨ (5 ≤ n ∧ (∀ j, j < 4 → 128 ≤ b j) ∧ 16 ≤ b 4 ∧ pos = 4))

/-! ### Steps run instructions -/

/-- On the device's turn, an accepted `CMD` value that decodes to a command runs that command. -/
def Obligations.StepRunsAcceptedCommand : Prop :=
  ∀ (s s' : State) (v : Word) (i : Instr), DeviceTurn s s' → s.engine = .started v →
    decodeCommand v = .ok i → step s = exec i s'

/-- On the device's turn with a turn still to come (the schedule of log 5), the element that the source bytes at
`in_pos` decode to is executed, and it alone. -/
def Obligations.StepRunsElement : Prop :=
  ∀ (s : State) (d : Decompressor) (u : Turn) (rest : List Turn) (i : Instr) (after : List Byte),
    s.turns = .device :: u :: rest → s.engine = .decompress d → s.latch.inSpace → s.busFails = false →
    decodeElement (s.source.drop d.inPos) = .ok (i, after) →
    step s = exec i { s.busNext with turns := u :: rest }

/-- With no turn to come (log 5), the element is executed and the device goes on from there. -/
def Obligations.StepRunsElementAndGoesOn : Prop :=
  ∀ (s : State) (d : Decompressor) (i : Instr) (after : List Byte),
    Inv s → s.turns = [] → s.engine = .decompress d → s.busFails = false →
    decodeElement (s.source.drop d.inPos) = .ok (i, after) →
    step s = andThen (exec i s.busNext) step

/-- On the device's turn, a tag whose trailer runs past the source end is `PARSING_ERROR` at that tag (R234). -/
def Obligations.TruncatedTrailerIsParsingError : Prop :=
  ∀ (s s' : State) (d : Decompressor), Inv s → DeviceTurn s s' → s.engine = .decompress d →
    s.busFails = false → d.inPos < s.latch.srcLen.toNat →
    decodeElement (s.source.drop d.inPos) = .error .truncatedTrailer →
    ∃ t, step s = .next t ∧ Ended s' t (some .parsingError) 0 d.expect.toNat d.inPos
      ∧ SameOutsideDst s t ∧ t.table = s.table

/-- An idle device stays as it is until the host moves (R330, R353). -/
def Obligations.IdleDeviceStaysIdle : Prop :=
  ∀ s s' : State, DeviceTurn s s' → s.engine = .idle → step s = .next s'

/-! ### Elements -/

/-- The literal forms: the payload is copied and both cursors advance, or, where it does not fit, the command ends
with `PARSING_ERROR` at the tag. -/
def Obligations.LiteralCopiesItsPayload : Prop :=
  ∀ (i : Instr) (len : Nat),
    (i = .lit len ∨ i = .lit1 len ∨ i = .lit2 len ∨ i = .lit3 len ∨ i = .lit4 len) →
    ∀ (s : State) (d : Decompressor), Inv s → s.engine = .decompress d → s.busFails = false →
      let payload := d.inPos + 1 + i.trailer
      let dst := s.latch.dstAddr.toNat + d.outPos
      (payload + len ≤ s.latch.srcLen.toNat → d.outPos + len ≤ s.latch.dstCap.toNat →
        ∃ t, exec i s = .next t
          ∧ t.engine = .decompress ⟨payload + len, d.outPos + len, d.expect⟩
          ∧ (∀ j, j < len → t.mem.read (dst + j) = s.srcByte (payload + j))
          ∧ (∀ a, ¬ inRange dst (dst + len) a → t.mem.read a = s.mem.read a)
          ∧ ElementFrame s t)
      ∧ (s.latch.srcLen.toNat < payload + len ∨ s.latch.dstCap.toNat < d.outPos + len →
        ∃ t, exec i s = .next t ∧ Ended s t (some .parsingError) 0 d.expect.toNat d.inPos
          ∧ SameOutsideDst s t ∧ t.table = s.table ∧ t.busPlan = s.busPlan)

/-- The copy forms: `len` bytes repeat the `off` bytes before `out_pos`, in increasing order, and the cursors
advance; or, where the offset or the length is not allowed, the command ends with `PARSING_ERROR` at the tag. -/
def Obligations.CopyRepeatsTheOutput : Prop :=
  ∀ (i : Instr) (off len : Nat), (i = .copy1 off len ∨ i = .copy2 off len ∨ i = .copy4 off len) →
    ∀ (s : State) (d : Decompressor), Inv s → s.engine = .decompress d → s.busFails = false →
      let next := d.inPos + 1 + i.trailer
      let dst := s.latch.dstAddr.toNat + d.outPos
      (next ≤ s.latch.srcLen.toNat → 1 ≤ off → off ≤ d.outPos → d.outPos + len ≤ s.latch.dstCap.toNat →
        ∃ t, exec i s = .next t
          ∧ t.engine = .decompress ⟨next, d.outPos + len, d.expect⟩
          ∧ (∀ j, j < len → t.mem.read (dst + j) = s.dstByte (d.outPos - off + j % off))
          ∧ (∀ a, ¬ inRange dst (dst + len) a → t.mem.read a = s.mem.read a)
          ∧ ElementFrame s t)
      ∧ (s.latch.srcLen.toNat < next ∨ off = 0 ∨ d.outPos < off ∨ s.latch.dstCap.toNat < d.outPos + len →
        ∃ t, exec i s = .next t ∧ Ended s t (some .parsingError) 0 d.expect.toNat d.inPos
          ∧ SameOutsideDst s t ∧ t.table = s.table ∧ t.busPlan = s.busPlan)

/-- An element has a meaning only inside a DECOMPRESS whose regions lie in memory; the model's choices of logs 11
and 12. -/
def Obligations.ElementNeedsRunningDecompress : Prop :=
  ∀ (i : Instr) (s : State), i.space = .element →
    ((∀ d, s.engine ≠ .decompress d) → exec i s = .refused .noElementRunning)
      ∧ (∀ d, s.engine = .decompress d → ¬ s.latch.inSpace → exec i s = .fault .addressOutsideMemory)

/-! ### Commands -/

/-- NOP ends without error and with every result 0; once accepted as `CMD` value 0, it leaves `STATUS` at 0x02
(R299). -/
def Obligations.NopClearsTheResults : Prop :=
  ∀ s : State, ∃ t, exec .nop s = .next t ∧ Ended s t none 0 0 0 ∧ Untouched s t
    ∧ (s.status = Status.accepted 0#32 → t.status.word = 0x02#32)

/-- MAXLEN gives `32 + n + floor(n / 6)`, or `REGION_ERROR` for a length above `LEN_MAX` (R300); that `n / 6` rounds
down is the spec's own reading (93 I9). -/
def Obligations.MaxlenGivesTheBound : Prop :=
  ∀ (s : State) (v : Word), s.engine = .started v →
    let n := s.latch.srcLen.toNat
    (n ≤ 2147483647 → ∃ t, exec .maxlen s = .next t ∧ Ended s t none (32 + n + n / 6) 0 0 ∧ Untouched s t)
    ∧ (2147483647 < n → ∃ t, exec .maxlen s = .next t ∧ Ended s t (some .regionError) 0 0 0 ∧ Untouched s t)

/-- On the device's turn, an accepted value with bits 31:2 set ends with `ILLEGAL_COMMAND`; after acceptance
`STATUS` then reads 0x46 (R296). -/
def Obligations.IllegalCommandIsReported : Prop :=
  ∀ (s s' : State) (v : Word), DeviceTurn s s' → s.engine = .started v → v.extractLsb 31 2 ≠ 0#30 →
    ∃ t, step s = .next t ∧ Ended s' t (some .illegalCommand) 0 0 0 ∧ Untouched s t
      ∧ (s.status = Status.accepted v → t.status.word = 0x46#32)

/-- COMPRESS and DECOMPRESS with regions that fail a check of R294 end with `REGION_ERROR(0)` and touch no
memory. -/
def Obligations.BadRegionsAreRejected : Prop :=
  ∀ (s : State) (v : Word) (i : Instr), s.engine = .started v → (i = .compress ∨ i = .decompress) →
    let srcLen := s.latch.srcLen.toNat
    let dstCap := s.latch.dstCap.toNat
    let srcEnd := s.latch.srcAddr.toNat + srcLen
    let dstEnd := s.latch.dstAddr.toNat + dstCap
    (2147483647 < srcLen ∨ 2147483647 < dstCap ∨ 2 ^ 32 < srcEnd ∨ 2 ^ 32 < dstEnd
      ∨ (0 < srcLen ∧ 0 < dstCap ∧ s.latch.dstAddr.toNat < srcEnd ∧ s.latch.srcAddr.toNat < dstEnd)) →
    ∃ t, exec i s = .next t ∧ Ended s t (some .regionError) 0 0 0 ∧ Untouched s t

/-- COMPRESS with a capacity below `32 + n + floor(n / 6)` ends with `DST_TOO_SMALL(0)` and writes nothing (R171;
the rounding is 93 I9). -/
def Obligations.CompressChecksCapacity : Prop :=
  ∀ (s : State) (v : Word), s.engine = .started v → s.latch.legal →
    s.latch.dstCap.toNat < 32 + s.latch.srcLen.toNat + s.latch.srcLen.toNat / 6 →
    ∃ t, exec .compress s = .next t ∧ Ended s t (some .dstTooSmall) 0 0 0 ∧ Untouched s t

/-- COMPRESS under `exact`: it ends without error, the destination holds the block of R170 to R186 (with the spec's
own values of 92 D7 to D11, log 15), `RESULT_LEN` is its length, and no other byte of memory outside the
destination region changes. -/
def Obligations.CompressWritesTheExactBlock : Prop :=
  ∀ (s : State) (v : Word), s.engine = .started v → s.latch.legal →
    Config.maxLen s.latch.srcLen.toNat ≤ s.latch.dstCap.toNat →
    s.params.busFaults = .none → s.params.mode = .exact → s.turns = [] →
    let block := exactBlock s.latch.srcLen.toNat s.srcByte
    ∃ t, exec .compress s = .next t ∧ Ended s t none block.length 0 0
      ∧ (∀ j, j < block.length → t.dstByte j = block.getD j 0#8) ∧ SameOutsideDst s t

/-- COMPRESS under `relational`: it ends without error and the destination holds a block that R191 admits, whichever
free block it draws (log 7). -/
def Obligations.CompressRelationalIsAdmissible : Prop :=
  ∀ (s : State) (v : Word), s.engine = .started v → s.latch.legal →
    Config.maxLen s.latch.srcLen.toNat ≤ s.latch.dstCap.toNat →
    s.params.busFaults = .none → s.params.mode = .relational → s.turns = [] →
    ∃ t block, exec .compress s = .next t ∧ admissible s.source block = true
      ∧ Ended s t none block.length 0 0
      ∧ (∀ j, j < block.length → t.dstByte j = block.getD j 0#8) ∧ SameOutsideDst s t

/-- Every block the exact algorithm makes begins with the shortest header, is made of the emitted subset, crosses no
window boundary, decodes to its source, and is within the size bound (R189, R190, R191). -/
def Obligations.ExactBlocksRoundTripWithinBound : Prop :=
  ∀ b : List Byte, b.length ≤ Config.lenMax →
    admissible b (exactBlock b.length fun i => b.getD i 0#8) = true

/-- The exact block depends on the source bytes alone: not on the hash table, the addresses or a larger capacity
(R192, R62). -/
def Obligations.CompressDependsOnSourceAlone : Prop :=
  ∀ (s₁ s₂ : State) (v₁ v₂ : Word), s₁.engine = .started v₁ → s₂.engine = .started v₂ →
    s₁.latch.legal → s₂.latch.legal → s₁.source = s₂.source →
    Config.maxLen s₁.latch.srcLen.toNat ≤ s₁.latch.dstCap.toNat →
    Config.maxLen s₂.latch.srcLen.toNat ≤ s₂.latch.dstCap.toNat →
    s₁.params.busFaults = .none → s₂.params.busFaults = .none →
    s₁.params.mode = .exact → s₂.params.mode = .exact → s₁.turns = [] → s₂.turns = [] →
    ∃ t₁ t₂, exec .compress s₁ = .next t₁ ∧ exec .compress s₂ = .next t₂ ∧ t₁.resultLen = t₂.resultLen
      ∧ ∀ j, j < t₁.resultLen.toNat → t₁.dstByte j = t₂.dstByte j

/-- DECOMPRESS of a header that does not decode ends with `PARSING_ERROR` at the position of R231 and changes no
byte of memory (R246). -/
def Obligations.BadHeaderIsParsingError : Prop :=
  ∀ (s : State) (v : Word) (pos : Nat), s.engine = .started v → s.latch.legal → s.busFails = false →
    decodeHeader s.srcByte s.latch.srcLen.toNat = .error pos →
    ∃ t, exec .decompress s = .next t ∧ Ended s t (some .parsingError) 0 0 pos ∧ SameMemory s t
      ∧ t.table = s.table ∧ t.draws = s.draws

/-- DECOMPRESS of a block whose header length exceeds the capacity ends with `INVALID_CHUNK_SIZE(hlen)` before any
element, reports the length, and changes no byte of memory (R232). -/
def Obligations.OversizedHeaderIsInvalidChunkSize : Prop :=
  ∀ (s : State) (v : Word) (len hlen : Nat), s.engine = .started v → s.latch.legal → s.busFails = false →
    decodeHeader s.srcByte s.latch.srcLen.toNat = .ok (len, hlen) → s.latch.dstCap.toNat < len →
    ∃ t, exec .decompress s = .next t ∧ Ended s t (some .invalidChunkSize) 0 len hlen ∧ SameMemory s t
      ∧ t.table = s.table ∧ t.draws = s.draws

/-- With a turn still to come (the schedule of log 5), COMPRESS and DECOMPRESS begin and stay busy: the compressor
before its header (R170; its per-window zeros are log 23), the decompressor at its first element, `in_pos` after
the header, `out_pos` 0 and `L` from the header (R230). -/
def Obligations.LongCommandsBegin : Prop :=
  ∀ s : State, s.latch.legal → s.turns ≠ [] →
    (Config.maxLen s.latch.srcLen.toNat ≤ s.latch.dstCap.toNat →
      exec .compress s = .next { s with engine := .compress Compressor.initial })
    ∧ ∀ len hlen, s.busFails = false → decodeHeader s.srcByte s.latch.srcLen.toNat = .ok (len, hlen) →
        len ≤ s.latch.dstCap.toNat →
        exec .decompress s = .next { s.busNext with engine := .decompress ⟨hlen, 0, BitVec.ofNat 32 len⟩ }

/-- On the device's turn with the input used up, DECOMPRESS ends: without error if `out_pos = L`, else with
`INVALID_CHUNK_SIZE(SRC_LEN)` (R247, R248). -/
def Obligations.ElementLoopEndChecksLength : Prop :=
  ∀ (s s' : State) (d : Decompressor), Inv s → DeviceTurn s s' → s.engine = .decompress d →
    d.inPos = s.latch.srcLen.toNat →
    (d.outPos = d.expect.toNat →
      ∃ t, step s = .next t ∧ Ended s' t none d.expect.toNat d.expect.toNat 0
        ∧ (∀ j, j < d.expect.toNat → t.dstByte j = s.dstByte j) ∧ SameOutsideDst s t ∧ t.table = s.table)
    ∧ (d.outPos ≠ d.expect.toNat →
      ∃ t, step s = .next t
        ∧ Ended s' t (some .invalidChunkSize) 0 d.expect.toNat s.latch.srcLen.toNat
        ∧ SameOutsideDst s t ∧ t.table = s.table)

/-- DECOMPRESS carried to its end is the expansion of the block as a byte sequence: the same bytes where the block
is sound for the capacity, one of the two errors where it is not (R230, R250). -/
def Obligations.DecompressExpandsTheBlock : Prop :=
  ∀ (s : State) (v : Word), s.engine = .started v → s.latch.legal → s.params.busFaults = .none →
    s.turns = [] →
    (∀ out, expandBlock s.latch.dstCap.toNat s.source = some out →
      ∃ t, exec .decompress s = .next t ∧ Ended s t none out.length out.length 0
        ∧ (∀ j, j < out.length → t.dstByte j = out.getD j 0#8) ∧ SameOutsideDst s t ∧ t.table = s.table)
    ∧ (expandBlock s.latch.dstCap.toNat s.source = none →
      ∃ t e expect pos, exec .decompress s = .next t ∧ (e = .parsingError ∨ e = .invalidChunkSize)
        ∧ Ended s t (some e) 0 expect pos ∧ SameOutsideDst s t ∧ t.table = s.table)

/-- DECOMPRESS's result is a function of the source bytes and the capacity alone (R251). -/
def Obligations.DecompressDependsOnSourceAndCapacity : Prop :=
  ∀ (s₁ s₂ : State) (v₁ v₂ : Word), s₁.engine = .started v₁ → s₂.engine = .started v₂ →
    s₁.latch.legal → s₂.latch.legal → s₁.source = s₂.source →
    s₁.latch.dstCap = s₂.latch.dstCap →
    s₁.params.busFaults = .none → s₂.params.busFaults = .none → s₁.turns = [] → s₂.turns = [] →
    ∃ t₁ t₂, exec .decompress s₁ = .next t₁ ∧ exec .decompress s₂ = .next t₂
      ∧ t₁.status.err = t₂.status.err ∧ t₁.status.errCode = t₂.status.errCode
      ∧ t₁.resultLen = t₂.resultLen ∧ t₁.expectLen = t₂.expectLen ∧ t₁.errPos = t₂.errPos
      ∧ (t₁.status.err = false → ∀ j, j < t₁.resultLen.toNat → t₁.dstByte j = t₂.dstByte j)

/-- A device memory phase the platform fails ends the command with `BUS_ERROR(0)`: the fetch of an element, its byte
moves, the header read, and the four kinds of compressor action that access memory. With `BUS_FAULTS = none` no
phase fails (R93), and a compressor action that accesses no memory cannot fail. That a phase fails as a whole is
the model's choice of log 6; what becomes of the destination is log 18's reading. -/
def Obligations.BusFaultEndsTheCommand : Prop :=
  ∀ s : State,
    (s.params.busFaults = .none → s.busFails = false)
    ∧ (s.busFails = true →
      (∀ s' d, DeviceTurn s s' → s.engine = .decompress d → s.latch.inSpace →
        d.inPos < s.latch.srcLen.toNat →
        ∃ t, step s = .next t ∧ Ended s' t (some .busError) 0 d.expect.toNat 0 ∧ SameOutsideDst s t)
      ∧ (∀ i d, Inv s → s.engine = .decompress d →
        ((∃ len, (i = .lit len ∨ i = .lit1 len ∨ i = .lit2 len ∨ i = .lit3 len ∨ i = .lit4 len)
            ∧ d.inPos + 1 + i.trailer + len ≤ s.latch.srcLen.toNat ∧ d.outPos + len ≤ s.latch.dstCap.toNat)
          ∨ ∃ off len, (i = .copy1 off len ∨ i = .copy2 off len ∨ i = .copy4 off len)
            ∧ d.inPos + 1 + i.trailer ≤ s.latch.srcLen.toNat ∧ 1 ≤ off ∧ off ≤ d.outPos
            ∧ d.outPos + len ≤ s.latch.dstCap.toNat) →
        ∃ t, exec i s = .next t ∧ Ended s t (some .busError) 0 d.expect.toNat 0 ∧ SameOutsideDst s t)
      ∧ (∀ v, s.engine = .started v → s.latch.legal → 0 < s.latch.srcLen.toNat →
        ∃ t, exec .decompress s = .next t ∧ Ended s t (some .busError) 0 0 0 ∧ SameOutsideDst s t)
      ∧ (∀ s' c, DeviceTurn s s' → s.engine = .compress c → s.latch.inSpace →
        (c.phase = .header ∨ (c.phase = .probe ∧ ((c.ip + c.skip / 32 : Nat) : Int) ≤ c.ipLimit)
          ∨ c.phase = .copy ∨ (c.phase = .tail ∧ c.nextEmit < c.we)) →
        ∃ t, step s = .next t ∧ Ended s' t (some .busError) 0 0 0 ∧ SameOutsideDst s t))
    ∧ (∀ c u rest, s.turns = .device :: u :: rest → s.engine = .compress c → s.latch.inSpace →
      ((c.phase = .window ∧ c.wb < s.latch.srcLen.toNat) ∨ c.phase = .scan
        ∨ (c.phase = .probe ∧ c.ipLimit < ((c.ip + c.skip / 32 : Nat) : Int))
        ∨ (c.phase = .tail ∧ c.we ≤ c.nextEmit)) →
      ∃ t c', step s = .next t ∧ t.engine = .compress c' ∧ t.busPlan = s.busPlan ∧ t.status = s.status
        ∧ SameMemory s t)

/-! ### The compressor's parts -/

/-- `EmitLiteral` (R180): the shortest form's tag and length bytes, then the payload. -/
def Obligations.LiteralEmissionIsShortest : Prop :=
  ∀ (src : Nat → Byte) (start len : Nat), 1 ≤ len → len ≤ 2 ^ 32 →
    let m := len - 1
    let byte (k : Nat) : Byte := BitVec.ofNat 8 (m >>> (8 * k))
    emitLiteral src start len =
      (if m < 60 then [BitVec.ofNat 8 (m <<< 2)]
        else if m < 2 ^ 8 then [0xF0#8, byte 0]
        else if m < 2 ^ 16 then [0xF4#8, byte 0, byte 1]
        else if m < 2 ^ 24 then [0xF8#8, byte 0, byte 1, byte 2]
        else [0xFC#8, byte 0, byte 1, byte 2, byte 3])
      ++ (List.range len).map fun i => src (start + i)

/-- `EmitCopyLT64` (R183), in the bits of its length and offset (93 I4). -/
def Obligations.ShortCopyEncoding : Prop :=
  ∀ off m : Nat, 1 ≤ off → off ≤ 65535 → 4 ≤ m → m ≤ 64 →
    encode (copyForm off m) =
      if m < 12 ∧ off < 2048 then
        [BitVec.ofNat 8 (0x01 ||| ((m - 4) <<< 2) ||| ((off >>> 8 &&& 7) <<< 5)), BitVec.ofNat 8 off]
      else [BitVec.ofNat 8 (0x02 ||| ((m - 1) <<< 2)), BitVec.ofNat 8 off, BitVec.ofNat 8 (off >>> 8)]

/-- `EmitCopy` (R182; the thresholds are 92 D8): full pieces of 64 while the length is at least 68, then 60 if it is
above 64, then the rest, which is 4 to 64; every piece has the same offset. -/
def Obligations.LongCopiesAreSplit : Prop :=
  ∀ off m : Nat, 1 ≤ off → off ≤ 65535 → 4 ≤ m →
    let piece (k : Nat) := encode (copyForm off k)
    (68 ≤ m → emitCopy off m = piece 64 ++ emitCopy off (m - 64) ∧ 4 ≤ m - 64)
    ∧ (64 < m → m < 68 → emitCopy off m = piece 60 ++ piece (m - 60) ∧ 4 ≤ m - 60)
    ∧ (m ≤ 64 → emitCopy off m = piece m)

/-- `WindowSetup`'s table size is the smallest power of two at least the window size, kept in 256 to 16384
(R174). -/
def Obligations.TableSizeIsSmallestPower : Prop :=
  ∀ w : Nat, 1 ≤ w → w ≤ 65536 →
    let ts := tableSize w
    (∃ e, ts = 2 ^ e) ∧ 256 ≤ ts ∧ ts ≤ 16384 ∧ (w ≤ ts ∨ ts = 16384)
      ∧ ∀ e, 256 ≤ 2 ^ e → w ≤ 2 ^ e → ts ≤ 2 ^ e

/-- `Hash` is the low 32 bits of the product (93 I6) shifted right, and it is an index of the window's table
(R175). -/
def Obligations.HashIsBelowTableSize : Prop :=
  ∀ (w : Nat) (v : Word), 1 ≤ w → w ≤ 65536 →
    let ts := tableSize w
    let shift := 32 - Nat.log2 ts
    hash shift v = v.toNat * 0x1e35a7bd % 2 ^ 32 / 2 ^ shift ∧ hash shift v < ts

/-- `MatchLen(a, b, limit)` is the largest length on which the two ranges agree below the limit (R181). -/
def Obligations.MatchLengthIsLargest : Prop :=
  ∀ (src : Nat → Byte) (a b limit : Nat), a < b → b ≤ limit →
    let agree (k : Nat) := b + k ≤ limit ∧ ∀ i, i < k → src (a + i) = src (b + i)
    agree (matchLen src a b (limit - b)) ∧ ∀ k, agree k → k ≤ matchLen src a b (limit - b)

/-- A probe that misses moves the scan forward and writes its position into the table; a probe that hits does so
too, before the compare, and hands over a candidate (R177). One turn of a copy run emits the copy of the offset
and the match length; unless that reaches `ip_limit`, it records `ip - 1`, looks `ip` up, records `ip`, and goes
on with the candidate exactly if its four bytes agree (R184). That positions are recorded before the compare,
the two records after a copy and the stop at `ip_limit` are the spec's own choices, 92 D9, D10 and 93 I7 (log
15). -/
def Obligations.ProbeAndCopyRecordBeforeCompare : Prop :=
  ∀ (n : Nat) (src : Nat → Byte) (c : Compressor) (t : HashTable),
    let r := c.act n src t
    (c.phase = .probe → ((c.ip + c.skip / 32 : Nat) : Int) ≤ c.ipLimit →
      let h := hash c.shift (load32 src c.ip)
      let cand := c.wb + (t.get h).toNat
      (r.2.1.get h = BitVec.ofNat 16 (c.ip - c.wb) ∧ ∀ h', h' ≠ h → r.2.1.get h' = t.get h')
      ∧ (load32 src cand = load32 src c.ip → r.1 = { c with phase := .copy, cand := cand }
          ∧ (c.nextEmit < c.ip → r.2.2 = emitLiteral src c.nextEmit (c.ip - c.nextEmit)))
      ∧ (load32 src cand ≠ load32 src c.ip → r.2.2 = []
          ∧ r.1 = { c with cand := cand, ip := c.ip + c.skip / 32, skip := c.skip + 1 }))
    ∧ (c.phase = .copy →
      let m := 4 + matchLen src (c.cand + 4) (c.ip + 4) (c.we - (c.ip + 4))
      let ip := c.ip + m
      r.2.2 = emitCopy (c.ip - c.cand) m
      ∧ (c.ipLimit ≤ (ip : Int) → r.2.1 = t ∧ r.1 = { c with phase := .scan, ip := ip, nextEmit := ip })
      ∧ ((ip : Int) < c.ipLimit →
        let before := hash c.shift (load32 src (ip - 1))
        let here := hash c.shift (load32 src ip)
        let found := if here = before then BitVec.ofNat 16 (ip - 1 - c.wb) else t.get here
        let cand := c.wb + found.toNat
        r.2.1.get here = BitVec.ofNat 16 (ip - c.wb)
        ∧ (before ≠ here → r.2.1.get before = BitVec.ofNat 16 (ip - 1 - c.wb))
        ∧ (∀ h, h ≠ before → h ≠ here → r.2.1.get h = t.get h)
        ∧ (load32 src cand = load32 src ip → r.1 = { c with ip := ip, nextEmit := ip, cand := cand })
        ∧ (load32 src cand ≠ load32 src ip →
          r.1 = { c with phase := .scan, ip := ip, nextEmit := ip, cand := cand })))

/-- The scan position never moves back, whatever the action; a copy moves it by at least 4 and keeps it in the
window; a probe that misses moves it by its stride, at least 1; and a search starts at `ip + 1` (R178). The
strides and that start are the spec's own choice, 92 D11 and 93 I7 (log 15). -/
def Obligations.ScanPositionAdvances : Prop :=
  ∀ (n : Nat) (src : Nat → Byte) (c : Compressor) (t : HashTable), c.inv n t →
    let r := (c.act n src t).1
    c.ip ≤ r.ip
    ∧ (c.phase = .copy → c.ip + 4 ≤ r.ip ∧ r.ip ≤ c.we)
    ∧ (c.phase = .probe → r.phase = .probe → r.ip = c.ip + c.skip / 32 ∧ c.ip + 1 ≤ r.ip)
    ∧ (c.phase = .scan → r.phase = .probe → r.ip = c.ip + 1)

/-- A source of 1 to 16 bytes is one header byte and one short literal (R186; it rests on 92 D7). -/
def Obligations.ShortSourceIsOneLiteral : Prop :=
  ∀ (n : Nat) (src : Nat → Byte), 1 ≤ n → n ≤ 16 →
    exactBlock n src =
      [BitVec.ofNat 8 n, BitVec.ofNat 8 ((n - 1) <<< 2)] ++ (List.range n).map fun i => src i

/-! ### The host's side -/

/-- A host write to `CMD` while idle is accepted: `STATUS`, the latches and the engine in one step, and nothing else
(R291, R292, R293). -/
def Obligations.CommandWriteIsAccepted : Prop :=
  ∀ (s s' : State) (a v : Word), HostTurn s (.writeReg a 4 v) s' → s.registerAt a 0x04 →
    s.status.busy = false →
    step s = .next { s' with
      latch := s.cfg, engine := .started v
      status := ⟨true, false, false, false, 0#4,
        if v.extractLsb 31 2 = 0#30 then v.extractLsb 1 0 else 0#2⟩ }

/-- A host write to `CMD` or to a configuration register while busy changes no register but `STATUS.IGNORED`, which
the next accepted command clears (R45). -/
def Obligations.WritesWhileBusyAreIgnored : Prop :=
  ∀ (s s' : State) (a v : Word) (offset : Nat), HostTurn s (.writeReg a 4 v) s' → s.registerAt a offset →
    (offset = 0x04 ∨ offset = 0x0C ∨ offset = 0x10 ∨ offset = 0x14 ∨ offset = 0x18) →
    (s.status.busy = true → step s = .next { s' with status := { s.status with ignored := true } })
    ∧ (s.status.busy = false → offset = 0x04 →
      ∃ t, step s = .next t ∧ t.engine = .started v ∧ t.status.ignored = false)

/-- The configuration registers take any value while idle and read it back; no other register changes (R32, R36 to
R39). -/
def Obligations.ConfigurationReadsBack : Prop :=
  ∀ (s : State) (a v : Word) (rest : List Turn),
    s.turns = .host (.writeReg a 4 v) :: .host (.readReg a 4) :: rest → s.status.busy = false →
    (s.registerAt a 0x0C → Host.Core.run Sys2Proof.core 2 s
      = .next { s with turns := rest, hostData := v, cfg := { s.cfg with srcAddr := v } })
    ∧ (s.registerAt a 0x10 → Host.Core.run Sys2Proof.core 2 s
      = .next { s with turns := rest, hostData := v, cfg := { s.cfg with srcLen := v } })
    ∧ (s.registerAt a 0x14 → Host.Core.run Sys2Proof.core 2 s
      = .next { s with turns := rest, hostData := v, cfg := { s.cfg with dstAddr := v } })
    ∧ (s.registerAt a 0x18 → Host.Core.run Sys2Proof.core 2 s
      = .next { s with turns := rest, hostData := v, cfg := { s.cfg with dstCap := v } })

/-- A register read returns the register and changes no register: `ID` its constant, `CMD` and the reserved offsets
0 (R32, R33, R34, R44). A read of `STATUS` with `DONE = 1` lets the host read the destinations (R290; log
24). -/
def Obligations.RegisterReadsReturnTheRegister : Prop :=
  ∀ (s s' : State) (a : Word) (offset : Nat), HostTurn s (.readReg a 4) s' → s.registerAt a offset →
    offset ≤ 0xFC → offset % 4 = 0 →
    step s = .next { s' with
      unseen := if offset = 0x08 ∧ s.status.done = true then [] else s.unseen
      hostData :=
        if offset = 0x00 then 0x534E4243#32
        else if offset = 0x08 then s.status.word
        else if offset = 0x0C then s.cfg.srcAddr
        else if offset = 0x10 then s.cfg.srcLen
        else if offset = 0x14 then s.cfg.dstAddr
        else if offset = 0x18 then s.cfg.dstCap
        else if offset = 0x1C then s.resultLen
        else if offset = 0x20 then s.expectLen
        else if offset = 0x24 then s.errPos
        else 0#32 }

/-- Writes to read-only and reserved offsets are ignored, busy or not (R32, R44). -/
def Obligations.ReadOnlyRegistersIgnoreWrites : Prop :=
  ∀ (s s' : State) (a v : Word) (offset : Nat), HostTurn s (.writeReg a 4 v) s' → s.registerAt a offset →
    offset % 4 = 0 →
    (offset = 0x00 ∨ offset = 0x08 ∨ offset = 0x1C ∨ offset = 0x20 ∨ offset = 0x24
      ∨ (0x28 ≤ offset ∧ offset ≤ 0xFC)) →
    step s = .next s'

/-- A host access to the block that is not an aligned 32-bit access is refused, and so is one outside the block
(R31, R44; the refusals' names are the model's, log 16). -/
def Obligations.OtherBusAccessesAreRefused : Prop :=
  ∀ (s s' : State) (act : HostAction) (a v : Word) (width : Nat),
    (act = .readReg a width ∨ act = .writeReg a width v) → HostTurn s act s' →
    let base := s.params.regBase.toNat
    (base ≤ a.toNat → a.toNat < base + 256 → (width ≠ 4 ∨ a.toNat % 4 ≠ 0) →
      step s = .refused .registerAccessShape)
    ∧ (a.toNat < base ∨ base + 256 ≤ a.toNat → step s = .refused .outsideDevice)

/-- The bits of the `STATUS` word (R35). -/
def Obligations.StatusWordLayout : Prop :=
  ∀ st : Status,
    st.word.getLsbD 0 = st.busy ∧ st.word.getLsbD 1 = st.done ∧ st.word.getLsbD 2 = st.err
      ∧ st.word.getLsbD 3 = st.ignored ∧ st.word.extractLsb 7 4 = st.errCode
      ∧ st.word.extractLsb 9 8 = st.lastCmd ∧ st.word.extractLsb 31 10 = 0#22

/-- Host memory accesses: a byte written reads back and no other byte changes; while a command runs, a write into
either region is refused, and a read of its destination returns a free value and changes no memory (R80, R95;
logs 9 and 19). A read of the destination of a finished command whose `DONE = 1` the host has not read is
refused (R290; log 24); every other read returns the byte. -/
def Obligations.HostMemoryAccess : Prop :=
  ∀ (s s' : State) (a : Word),
    (∀ b, HostTurn s (.writeMem a b) s' →
      (s.status.busy = false ∨ (¬ s.latch.inSrc a.toNat ∧ ¬ s.latch.inDst a.toNat) →
        ∃ t, step s = .next t ∧ t.mem.read a.toNat = b
          ∧ (∀ a', a' ≠ a.toNat → t.mem.read a' = s.mem.read a') ∧ t = { s' with mem := t.mem })
      ∧ (s.status.busy = true → s.latch.inSrc a.toNat ∨ s.latch.inDst a.toNat →
        step s = .refused .hostDutyBroken))
    ∧ (HostTurn s (.readMem a) s' →
      ((∃ r ∈ s.unseen, r.inDst a.toNat) → step s = .refused .hostDutyBroken)
      ∧ ((∀ r ∈ s.unseen, ¬ r.inDst a.toNat) →
        (s.status.busy = false ∨ ¬ s.latch.inDst a.toNat →
          step s = .next { s' with hostData := (s.mem.read a.toNat).zeroExtend 32 })
        ∧ (s.status.busy = true → s.latch.inDst a.toNat →
          ∃ t, step s = .next t ∧ t = { s' with hostData := t.hostData, draws := s.draws + 1 })))

/-- The reset event gives every register its reset value and leaves the machine idle (R65, R351). -/
def Obligations.ResetEventGivesResetValues : Prop :=
  ∀ s s' : State, HostTurn s .reset s' →
    ∃ t, step s = .next t ∧ t.engine = .idle ∧ t.status.word = 0#32
      ∧ t.cfg = ⟨0#32, 0#32, 0#32, 0#32⟩ ∧ t.latch = ⟨0#32, 0#32, 0#32, 0#32⟩
      ∧ t.resultLen = 0#32 ∧ t.expectLen = 0#32 ∧ t.errPos = 0#32 ∧ t.readReg 0x00 = 0x534E4243#32
      ∧ t.params = s.params ∧ t.turns = s'.turns ∧ (s.status.busy = false → t.mem = s.mem)

/-- Reset during a command leaves all memory outside the destination region unchanged, the source region of legal
regions with it (R352). -/
def Obligations.ResetKeepsMemoryOutsideDestination : Prop :=
  ∀ s s' : State, HostTurn s .reset s' →
    ∃ t, step s = .next t ∧ SameOutsideDst s t
      ∧ (s.latch.legal → ∀ i, i < s.latch.srcLen.toNat →
          t.mem.read (s.latch.srcAddr.toNat + i) = s.srcByte i)

/-- The state after reset, as R65 gives it. -/
def Obligations.ResetStateValues : Prop :=
  State.reset.status.word = 0#32 ∧ State.reset.engine = .idle
    ∧ State.reset.cfg = ⟨0#32, 0#32, 0#32, 0#32⟩ ∧ State.reset.latch = ⟨0#32, 0#32, 0#32, 0#32⟩
    ∧ State.reset.resultLen = 0#32 ∧ State.reset.expectLen = 0#32 ∧ State.reset.errPos = 0#32
    ∧ State.reset.readReg 0x00 = 0x534E4243#32 ∧ State.reset.params.busFaults = .none

/-! ### The whole machine -/

/-- The invariants hold after reset. -/
def Obligations.InvariantsHoldAtReset : Prop := Inv State.reset ∧ CompressorInv State.reset

/-- Every step keeps the state invariant. -/
def Obligations.StepKeepsInvariant : Prop :=
  ∀ s t : State, Inv s → step s = .next t → Inv t

/-- Every step keeps the compressor's invariant: scan positions and candidates stay where R57, R177 and R184 put
them; `ip` before the first window is log 23's 0. -/
def Obligations.StepKeepsCompressorInvariant : Prop :=
  ∀ s t : State, Inv s → CompressorInv s → step s = .next t → CompressorInv t

/-- On its own turn the device always goes on: no state that meets the invariant is stuck, faults or is refused. -/
def Obligations.DeviceNeverStops : Prop :=
  ∀ s s' : State, Inv s → DeviceTurn s s' → ∃ t, step s = .next t

/-- Every accepted command finishes: with no host move to come, the device's step ends it (R302). -/
def Obligations.AcceptedCommandFinishes : Prop :=
  ∀ (s : State) (v : Word), s.engine = .started v → s.turns = [] →
    ∃ t, step s = .next t ∧ t.engine = .idle ∧ t.status.busy = false ∧ t.status.done = true

/-- A command may be one step or many: carried out by any number of device turns, the last of which is followed by
none, it ends in the state the one step ends in (R297, R366; the schedule is log 5's). -/
def Obligations.GranularityDoesNotMatter : Prop :=
  ∀ (s : State) (v : Word) (k : Nat), s.engine = .started v → s.turns = [] → 1 ≤ k →
    Host.Core.run Sys2Proof.core k { s with turns := List.replicate k .device } = step s

/-- Nothing but a write to `CMD` starts the device (R330, R353). -/
def Obligations.OnlyCommandWriteStartsDevice : Prop :=
  ∀ s t : State, s.engine = .idle → step s = .next t → t.engine ≠ .idle →
    ∃ a v s', HostTurn s (.writeReg a 4 v) s' ∧ s.registerAt a 0x04

/-- No host move but reset stops a running command or changes what it works on: its working state, latches, table,
results, and every byte of its regions (R45, R322, R354). The bytes stay because a host write into them is
refused (R95, log 9). -/
def Obligations.HostCannotDisturbRunningCommand : Prop :=
  ∀ (s s' t : State) (a : HostAction), Inv s → s.status.busy = true → HostTurn s a s' → a ≠ .reset →
    step s = .next t →
    t.engine = s.engine ∧ t.latch = s.latch ∧ t.cfg = s.cfg ∧ t.table = s.table
      ∧ t.resultLen = s.resultLen ∧ t.expectLen = s.expectLen ∧ t.errPos = s.errPos
      ∧ (t.status = s.status ∨ t.status = { s.status with ignored := true })
      ∧ ∀ x, s.latch.inSrc x ∨ s.latch.inDst x → t.mem.read x = s.mem.read x

/-- No step changes the parameters (R7). A step takes at most one turn of the schedule of log 5, from its front, and
consumes the platform's plan of log 6 only from its front, not at all under `BUS_FAULTS = none` or on the host's
turn. -/
def Obligations.ParametersFixedAndInputsConsumed : Prop :=
  ∀ s t : State, step s = .next t →
    t.params = s.params
    ∧ (∃ front, s.turns = front ++ t.turns ∧ front.length ≤ 1)
    ∧ (∃ j, t.busPlan = s.busPlan.drop j
        ∨ ∃ a b rest, s.busPlan.drop j = a :: rest ∧ b ≤ a ∧ t.busPlan = b :: rest)
    ∧ (s.params.busFaults = .none → t.busPlan = s.busPlan)
    ∧ (∀ a s', HostTurn s a s' → t.busPlan = s.busPlan)
end

