-- ==== Sys2Proof/Laws/Memory.lean ====
section
/-! SUPPORT. The laws of keyed lists, memory and the hash table: reading after writing, spoiling and moving, and
that every memory operation keeps the canonical form. -/

namespace Sys2Proof.Machine

/-! ### Keyed lists -/

@[simp] theorem Store.lookup_nil {α : Type} (a : Nat) : Store.lookup ([] : List (Nat × α)) a = none := rfl

theorem Store.lookup_insert {α : Type} (l : List (Nat × α)) (a a' : Nat) (v : α) :
    Store.lookup (Store.insert l a v) a' = if a = a' then some v else Store.lookup l a' := by
  induction l with
  | nil => simp [Store.insert, Store.lookup]
  | cons x rest ih =>
    obtain ⟨k, w⟩ := x
    simp only [Store.insert]
    split
    · simp [Store.lookup]
    · split
      · subst_vars; simp only [Store.lookup]; split <;> rfl
      · simp only [Store.lookup, ih]
        split <;> rename_i hk
        · subst hk; split <;> [omega; rfl]
        · rfl

theorem Store.lookup_erase {α : Type} (l : List (Nat × α)) (a a' : Nat) :
    Store.lookup (Store.erase l a) a' = if a = a' then none else Store.lookup l a' := by
  induction l with
  | nil => simp [Store.erase]
  | cons x rest ih =>
    obtain ⟨k, w⟩ := x
    simp only [Store.erase, Store.lookup]
    split <;> rename_i hk
    · subst hk; rw [ih]; split <;> rfl
    · simp only [Store.lookup, ih]
      split <;> rename_i hk'
      · subst hk'; split <;> [omega; rfl]
      · rfl

theorem Store.lookup_filter {α : Type} (l : List (Nat × α)) (p : Nat → Bool) (a : Nat) :
    Store.lookup (l.filter fun c => p c.1) a = if p a then Store.lookup l a else none := by
  induction l with
  | nil => simp
  | cons x rest ih =>
    obtain ⟨k, w⟩ := x
    rw [List.filter_cons]
    simp only [Store.lookup]
    by_cases hk : k = a
    · subst hk; by_cases hp : p k <;> simp [hp, Store.lookup, ih]
    · by_cases hp : p k <;> simp [hp, Store.lookup, ih, hk]

theorem Store.mem_insert {α : Type} {l : List (Nat × α)} {a : Nat} {v : α} {x : Nat × α}
    (h : x ∈ Store.insert l a v) : x = (a, v) ∨ (x ∈ l ∧ (l.Pairwise (fun x y => x.1 < y.1) → x.1 ≠ a)) := by
  induction l with
  | nil => simpa [Store.insert] using h
  | cons y rest ih =>
    obtain ⟨k, w⟩ := y
    simp only [Store.insert] at h
    split at h
    · rcases List.mem_cons.1 h with rfl | h
      · exact .inl rfl
      · refine .inr ⟨h, fun hp => ?_⟩
        rcases List.mem_cons.1 h with rfl | h
        · simp only; omega
        · have := (List.pairwise_cons.1 hp).1 _ h
          simp only at this; omega
    · split at h
      · rcases List.mem_cons.1 h with rfl | h
        · exact .inl rfl
        · refine .inr ⟨List.mem_cons_of_mem _ h, fun hp => ?_⟩
          have := (List.pairwise_cons.1 hp).1 _ h
          simp only at this; omega
      · rcases List.mem_cons.1 h with rfl | h
        · exact .inr ⟨List.mem_cons_self, fun _ => by simp only; omega⟩
        · rcases ih h with rfl | ⟨hm, hn⟩
          · exact .inl rfl
          · exact .inr ⟨List.mem_cons_of_mem _ hm, fun hp => hn (List.pairwise_cons.1 hp).2⟩

theorem Store.insert_rising {α : Type} {l : List (Nat × α)} (a : Nat) (v : α)
    (h : l.Pairwise (fun x y => x.1 < y.1)) :
    (Store.insert l a v).Pairwise (fun x y => x.1 < y.1) := by
  induction l with
  | nil => simp [Store.insert]
  | cons y rest ih =>
    obtain ⟨k, w⟩ := y
    have ⟨hk, hr⟩ := List.pairwise_cons.1 h
    simp only [Store.insert]
    split
    · refine List.pairwise_cons.2 ⟨fun x hx => ?_, h⟩
      rcases List.mem_cons.1 hx with rfl | hx
      · simpa using ‹a < k›
      · have := hk _ hx; simp only at this ⊢; omega
    · split
      · subst_vars; exact List.pairwise_cons.2 ⟨hk, hr⟩
      · refine List.pairwise_cons.2 ⟨fun x hx => ?_, ih hr⟩
        rcases Store.mem_insert hx with rfl | ⟨hm, -⟩
        · simp only; omega
        · exact hk _ hm

theorem Store.mem_erase {α : Type} {l : List (Nat × α)} {a : Nat} {x : Nat × α} :
    x ∈ Store.erase l a ↔ x ∈ l ∧ x.1 ≠ a := by
  induction l with
  | nil => simp [Store.erase]
  | cons y rest ih =>
    obtain ⟨k, w⟩ := y
    simp only [Store.erase]
    split <;> rename_i hk
    · rw [ih]; constructor
      · exact fun ⟨h, hn⟩ => ⟨List.mem_cons_of_mem _ h, hn⟩
      · rintro ⟨h, hn⟩
        rcases List.mem_cons.1 h with rfl | h
        · exact absurd hk hn
        · exact ⟨h, hn⟩
    · rw [List.mem_cons, List.mem_cons, ih]
      constructor
      · rintro (rfl | ⟨h, hn⟩)
        · exact ⟨.inl rfl, hk⟩
        · exact ⟨.inr h, hn⟩
      · rintro ⟨rfl | h, hn⟩
        · exact .inl rfl
        · exact .inr ⟨h, hn⟩

theorem Store.erase_rising {α : Type} {l : List (Nat × α)} (a : Nat)
    (h : l.Pairwise (fun x y => x.1 < y.1)) :
    (Store.erase l a).Pairwise (fun x y => x.1 < y.1) := by
  induction l with
  | nil => simp [Store.erase]
  | cons y rest ih =>
    obtain ⟨k, w⟩ := y
    have ⟨hk, hr⟩ := List.pairwise_cons.1 h
    simp only [Store.erase]
    split
    · exact ih hr
    · exact List.pairwise_cons.2 ⟨fun x hx => hk _ (Store.mem_erase.1 hx).1, ih hr⟩

/-! ### Free ranges -/

theorem freeSeed_append (f g : List FreeRange) (a : Nat) :
    freeSeed (f ++ g) a = (freeSeed f a).or (freeSeed g a) := by
  induction f with
  | nil => simp [freeSeed]
  | cons r rest ih => simp only [List.cons_append, freeSeed, ih]; split <;> simp

theorem freeSeed_carve (lo hi : Nat) (r : FreeRange) (a : Nat) (h : lo ≤ hi) :
    freeSeed (r.carve lo hi) a =
      if inRange lo hi a then none else if inRange r.lo r.hi a then some r.seed else none := by
  simp only [FreeRange.carve, freeSeed_append, inRange]
  by_cases h1 : r.lo < min r.hi lo <;> by_cases h2 : max r.lo hi < r.hi <;>
    simp only [h1, h2, if_true, if_false, freeSeed, inRange] <;>
    (repeat' split) <;> simp <;> omega

theorem freeSeed_carveFree (fs : List FreeRange) (lo hi a : Nat) (h : lo ≤ hi) :
    freeSeed (carveFree fs lo hi) a = if inRange lo hi a then none else freeSeed fs a := by
  induction fs with
  | nil => simp [carveFree, freeSeed]
  | cons r rest ih =>
    simp only [carveFree, List.flatMap_cons] at ih ⊢
    rw [freeSeed_append, ih, freeSeed_carve _ _ _ _ h]
    by_cases h1 : inRange lo hi a
    · rw [if_pos h1, if_pos h1, if_pos h1]; rfl
    · rw [if_neg h1, if_neg h1, if_neg h1, freeSeed]
      by_cases h2 : inRange r.lo r.hi a
      · rw [if_pos h2, if_pos h2]; rfl
      · rw [if_neg h2, if_neg h2]; rfl

theorem freeSeed_placeFree (fs : List FreeRange) (r : FreeRange) (a : Nat)
    (h : inRange r.lo r.hi a → freeSeed fs a = none) :
    freeSeed (placeFree fs r) a = if inRange r.lo r.hi a then some r.seed else freeSeed fs a := by
  induction fs with
  | nil => simp [placeFree, freeSeed]
  | cons q rest ih =>
    simp only [placeFree]
    split
    · simp [freeSeed]
    · simp only [freeSeed] at h ⊢
      by_cases hq : inRange q.lo q.hi a
      · rw [if_pos hq, if_neg fun hr => ?_, if_pos hq]
        have := h hr
        rw [if_pos hq] at this
        exact absurd this (by simp)
      · rw [if_neg hq] at h ⊢
        rw [if_neg hq]
        exact ih h

theorem freeSeed_none_iff (fs : List FreeRange) (a : Nat) :
    freeSeed fs a = none ↔ ∀ r ∈ fs, ¬ inRange r.lo r.hi a := by
  induction fs with
  | nil => simp [freeSeed]
  | cons r rest ih =>
    simp only [freeSeed, List.forall_mem_cons]
    split <;> rename_i h
    · simp [h]
    · simp [h, ih]

/-! ### Reading memory -/

@[simp] theorem Memory.read_empty (a : Nat) : (⟨[], []⟩ : Memory).read a = Config.initialByte := rfl

/-- Reading after writing one byte: the byte written there, and every other byte as before. -/
theorem Memory.read_write (m : Memory) (a : Nat) (b : Byte) (a' : Nat) :
    (m.write a b).read a' = if a = a' then b else m.read a' := by
  have hf : freeSeed (carveFree m.free a (a + 1)) a' = if a = a' then none else freeSeed m.free a' := by
    rw [freeSeed_carveFree _ _ _ _ (by omega)]
    by_cases h : a = a'
    · rw [if_pos h, if_pos ⟨by omega, by omega⟩]
    · rw [if_neg h, if_neg (by simp only [inRange]; omega)]
  simp only [Memory.read, Memory.unlisted, Memory.write, hf]
  by_cases hb : b = Config.initialByte
  · simp only [hb, if_true, Store.lookup_erase]
    by_cases h : a = a' <;> simp [h]
  · simp only [hb, if_false, Store.lookup_insert]
    by_cases h : a = a' <;> simp [h]

@[simp] theorem Memory.read_write_same (m : Memory) (a : Nat) (b : Byte) : (m.write a b).read a = b := by
  simp [Memory.read_write]

theorem Memory.read_write_ne (m : Memory) {a a' : Nat} (b : Byte) (h : a ≠ a') :
    (m.write a b).read a' = m.read a' := by
  simp [Memory.read_write, h]

/-- Reading after a draw: the free value of the draw inside the range, and every other byte as before. -/
theorem Memory.read_spoil (m : Memory) (lo hi seed a : Nat) :
    (m.spoil lo hi seed).read a = if inRange lo hi a then Config.freeByte seed a else m.read a := by
  simp only [Memory.spoil]
  split <;> rename_i h
  · have hf : freeSeed (placeFree (carveFree m.free lo hi) ⟨lo, hi, seed⟩) a =
        if inRange lo hi a then some seed else freeSeed m.free a := by
      rw [freeSeed_placeFree]
      · by_cases hr : inRange lo hi a
        · rw [if_pos hr, if_pos hr]
        · rw [if_neg hr, if_neg hr, freeSeed_carveFree _ _ _ _ (by omega), if_neg hr]
      · intro hr; rw [freeSeed_carveFree _ _ _ _ (by omega), if_pos hr]
    have hl := Store.lookup_filter m.cells (fun k => decide (¬ inRange lo hi k)) a
    simp only [Memory.read, Memory.unlisted, hf]
    rw [hl]
    by_cases hr : inRange lo hi a
    · rw [if_pos hr, if_neg (by simpa using hr), if_pos hr]
    · rw [if_neg hr, if_pos (decide_eq_true hr), if_neg hr]
  · rw [if_neg (by simp only [inRange]; omega)]

theorem Memory.read_spoil_outside (m : Memory) {lo hi a : Nat} (seed : Nat) (h : ¬ inRange lo hi a) :
    (m.spoil lo hi seed).read a = m.read a := by
  rw [Memory.read_spoil, if_neg h]

/-- Reading after a byte sequence is written: its bytes inside, and every other byte as before. -/
theorem Memory.read_writeList (m : Memory) (bytes : List Byte) (a a' : Nat) :
    (m.writeList a bytes).read a' =
      if inRange a (a + bytes.length) a' then bytes.getD (a' - a) 0#8 else m.read a' := by
  induction bytes generalizing m a with
  | nil => rw [if_neg (by simp [inRange])]; rfl
  | cons b bs ih =>
    simp only [Memory.writeList, ih, List.length_cons, Memory.read_write, inRange]
    by_cases h : a = a'
    · subst h
      rw [if_neg (by omega), if_pos rfl, if_pos (by omega)]; simp
    · by_cases h1 : a + 1 ≤ a' ∧ a' < a + 1 + bs.length
      · rw [if_pos h1, if_pos (by omega), show a' - a = (a' - (a + 1)) + 1 by omega, List.getD_cons_succ]
      · rw [if_neg h1, if_neg h, if_neg (by omega)]

theorem Memory.read_move_outside (m : Memory) {dst src len a : Nat} (h : ¬ inRange dst (dst + len) a) :
    (m.move dst src len).read a = m.read a := by
  induction len generalizing m dst src with
  | zero => rfl
  | succ len ih =>
    simp only [inRange] at h ih
    rw [Memory.move, ih _ (by omega), Memory.read_write_ne _ _ (by omega)]

/-- A move whose source lies outside its destination is a plain copy. -/
theorem Memory.read_move_apart (m : Memory) {dst src len j : Nat} (hj : j < len)
    (h : src + len ≤ dst ∨ dst + len ≤ src) :
    (m.move dst src len).read (dst + j) = m.read (src + j) := by
  induction len generalizing m dst src j with
  | zero => omega
  | succ len ih =>
    rw [Memory.move]
    cases j with
    | zero =>
      rw [Memory.read_move_outside _ (by simp only [inRange]; omega)]
      simp
    | succ j =>
      have := ih (m.write dst (m.read src)) (dst := dst + 1) (src := src + 1) (j := j) (by omega) (by omega)
      rw [show dst + (j + 1) = dst + 1 + j by omega, this, Memory.read_write_ne _ _ (by omega)]
      congr 1; omega

/-- A move from `off` bytes below its destination: after it, every byte moved is the byte `off` before it
(41_decompressor.md R242). -/
theorem Memory.read_move_back (m : Memory) {dst off len j : Nat} (hj : j < len) (h0 : 0 < off)
    (h : off ≤ dst) :
    (m.move dst (dst - off) len).read (dst + j) = (m.move dst (dst - off) len).read (dst + j - off) := by
  induction len generalizing m dst j with
  | zero => omega
  | succ len ih =>
    rw [Memory.move]
    cases j with
    | zero =>
      rw [Memory.read_move_outside _ (by simp only [inRange]; omega),
        Memory.read_move_outside _ (by simp only [inRange]; omega)]
      rw [Nat.add_zero, Memory.read_write_same, Memory.read_write_ne _ _ (by omega)]
    | succ j =>
      have := ih (m.write dst (m.read (dst - off))) (dst := dst + 1) (j := j) (by omega) (by omega)
      rw [show dst + 1 - off = dst - off + 1 by omega] at this
      rw [show dst + (j + 1) = dst + 1 + j by omega]
      exact this

/-! ### The canonical form -/

theorem Memory.wf_empty : (⟨[], []⟩ : Memory).wf := by decide

theorem mem_carve {lo hi : Nat} {r q : FreeRange} (h : q ∈ r.carve lo hi) :
    r.lo ≤ q.lo ∧ q.hi ≤ r.hi ∧ q.lo < q.hi ∧ (q.hi ≤ lo ∨ hi ≤ q.lo) := by
  simp only [FreeRange.carve, List.mem_append] at h
  rcases h with h | h <;> split at h <;> simp at h <;> subst h <;> simp only <;> omega

theorem carve_rising (lo hi : Nat) (r : FreeRange) (h : lo ≤ hi) :
    (r.carve lo hi).Pairwise (fun r q => r.hi ≤ q.lo) := by
  simp only [FreeRange.carve]
  (repeat' split) <;> (simp; try omega)

theorem carveFree_wf {fs : List FreeRange} (lo hi : Nat) (hle : lo ≤ hi)
    (h : fs.Pairwise (fun r q => r.hi ≤ q.lo)) :
    (carveFree fs lo hi).Pairwise (fun r q => r.hi ≤ q.lo)
      ∧ (∀ q ∈ carveFree fs lo hi, q.lo < q.hi ∧ (q.hi ≤ lo ∨ hi ≤ q.lo)) := by
  constructor
  · rw [carveFree, List.pairwise_flatMap]
    refine ⟨fun r _ => carve_rising lo hi r hle, h.imp fun {r q} hrq x hx y hy => ?_⟩
    have := mem_carve hx; have := mem_carve hy; omega
  · intro q hq
    obtain ⟨r, -, hq⟩ := List.mem_flatMap.1 hq
    have := mem_carve hq; exact ⟨this.2.2.1, this.2.2.2⟩

theorem mem_placeFree {fs : List FreeRange} {r q : FreeRange} (h : q ∈ placeFree fs r) : q = r ∨ q ∈ fs := by
  induction fs with
  | nil => simpa [placeFree] using h
  | cons p rest ih =>
    simp only [placeFree] at h
    split at h
    · simpa using h
    · rcases List.mem_cons.1 h with rfl | h
      · exact .inr List.mem_cons_self
      · rcases ih h with rfl | h
        · exact .inl rfl
        · exact .inr (List.mem_cons_of_mem _ h)

theorem placeFree_rising {fs : List FreeRange} {r : FreeRange} (hr : r.lo < r.hi)
    (h : fs.Pairwise (fun r q => r.hi ≤ q.lo)) (hne : ∀ q ∈ fs, q.lo < q.hi)
    (ha : ∀ q ∈ fs, q.hi ≤ r.lo ∨ r.hi ≤ q.lo) :
    (placeFree fs r).Pairwise (fun r q => r.hi ≤ q.lo) := by
  induction fs with
  | nil => simp [placeFree]
  | cons p rest ih =>
    have ⟨hp, hrest⟩ := List.pairwise_cons.1 h
    have hpn := hne p List.mem_cons_self
    have hpa := ha p List.mem_cons_self
    simp only [placeFree]
    split
    · refine List.pairwise_cons.2 ⟨fun q hq => ?_, h⟩
      rcases List.mem_cons.1 hq with rfl | hq
      · omega
      · have := hp q hq; omega
    · refine List.pairwise_cons.2 ⟨fun q hq => ?_, ih hrest (fun q hq => hne q (List.mem_cons_of_mem _ hq))
        (fun q hq => ha q (List.mem_cons_of_mem _ hq))⟩
      rcases mem_placeFree hq with rfl | hq
      · omega
      · exact hp q hq

/-- Writing a byte keeps the canonical form. -/
theorem Memory.write_wf {m : Memory} (h : m.wf) (a : Nat) (b : Byte) : (m.write a b).wf := by
  obtain ⟨hc, hv, hf, hn⟩ := h
  have ⟨hf', hn'⟩ := carveFree_wf (fs := m.free) a (a + 1) (by omega) hf
  have key : ∀ c : Host.Cell, freeSeed m.free c.1 = none → freeSeed (carveFree m.free a (a + 1)) c.1 = none := by
    intro c hcf; rw [freeSeed_carveFree _ _ _ _ (by omega), hcf]; simp
  refine ⟨?_, ?_, hf', fun r hr => (hn' r hr).1⟩
  · simp only [Memory.write]; split
    · exact Store.erase_rising a hc
    · exact Store.insert_rising a b hc
  · intro c hc'
    simp only [Memory.write] at hc' ⊢
    split at hc' <;> rename_i hb
    · have := (Store.mem_erase.1 hc').1
      exact ⟨(hv c this).1, key c (hv c this).2⟩
    · rcases Store.mem_insert hc' with rfl | ⟨hm, -⟩
      · refine ⟨hb, ?_⟩
        rw [freeSeed_carveFree _ _ _ _ (by omega), if_pos ⟨by simp, by simp⟩]
      · exact ⟨(hv c hm).1, key c (hv c hm).2⟩

/-- A draw keeps the canonical form. -/
theorem Memory.spoil_wf {m : Memory} (h : m.wf) (lo hi seed : Nat) : (m.spoil lo hi seed).wf := by
  obtain ⟨hc, hv, hf, hn⟩ := h
  simp only [Memory.spoil]
  split <;> rename_i hlt
  · have ⟨hf', hn'⟩ := carveFree_wf (fs := m.free) lo hi (by omega) hf
    refine ⟨hc.filter _, ?_, placeFree_rising hlt hf' (fun q hq => (hn' q hq).1) (fun q hq => (hn' q hq).2), ?_⟩
    · intro c hc'
      obtain ⟨hm, hout⟩ := List.mem_filter.1 hc'
      have hout : ¬ inRange lo hi c.1 := of_decide_eq_true hout
      refine ⟨(hv c hm).1, ?_⟩
      rw [freeSeed_placeFree _ _ _ (fun hr => absurd hr hout), if_neg hout,
        freeSeed_carveFree _ _ _ _ (by omega), if_neg hout]
      exact (hv c hm).2
    · intro r hr
      rcases mem_placeFree hr with rfl | hr
      · exact hlt
      · exact (hn' r hr).1
  · exact ⟨hc, hv, hf, hn⟩

/-- Writing a byte sequence keeps the canonical form. -/
theorem Memory.writeList_wf {m : Memory} (h : m.wf) (a : Nat) (bytes : List Byte) : (m.writeList a bytes).wf := by
  induction bytes generalizing m a with
  | nil => exact h
  | cons b bs ih => exact ih (Memory.write_wf h a b) (a + 1)

/-- Moving bytes keeps the canonical form. -/
theorem Memory.move_wf {m : Memory} (h : m.wf) (dst src len : Nat) : (m.move dst src len).wf := by
  induction len generalizing m dst src with
  | zero => exact h
  | succ len ih => exact ih (Memory.write_wf h dst _) (dst + 1) (src + 1)

/-! ### The hash table -/

theorem HashTable.get_set (t : HashTable) (h h' : Nat) (v : Entry) :
    (t.set h v).get h' = if h = h' then v else t.get h' := by
  unfold HashTable.get HashTable.set
  by_cases hv : h < t.cleared ∧ v = 0#16
  · simp only [if_pos hv, Store.lookup_erase]
    by_cases hh : h = h'
    · subst hh; simp [hv.1, hv.2]
    · simp [hh]
  · simp only [if_neg hv, Store.lookup_insert]
    by_cases hh : h = h' <;> simp [hh]

theorem HashTable.get_clear (t : HashTable) (ts h : Nat) :
    (t.clear ts).get h = if h < ts then 0#16 else t.get h := by
  have hl := Store.lookup_filter t.entries (fun k => decide (ts ≤ k)) h
  simp only [HashTable.get, HashTable.clear]
  rw [hl]
  by_cases hh : h < ts
  · have : ¬ ts ≤ h := by omega
    simp [hh, this]
  · have : ts ≤ h := by omega
    simp only [this, decide_true, if_true, hh, if_false]
    have : (h < max t.cleared ts) ↔ (h < t.cleared) := by omega
    simp only [this]

@[simp] theorem HashTable.cleared_set (t : HashTable) (h : Nat) (v : Entry) : (t.set h v).cleared = t.cleared := rfl

@[simp] theorem HashTable.cleared_clear (t : HashTable) (ts : Nat) : (t.clear ts).cleared = max t.cleared ts := rfl

theorem HashTable.set_wf {t : HashTable} (ht : t.wf) {h : Nat} (hh : h < Config.htMax) (v : Entry) :
    (t.set h v).wf := by
  obtain ⟨hp, he, hc⟩ := ht
  refine ⟨?_, ?_, hc⟩
  · simp only [HashTable.set]
    split
    · exact Store.erase_rising h hp
    · exact Store.insert_rising h v hp
  · intro e hm
    simp only [HashTable.set] at hm ⊢
    split at hm
    · exact he e (Store.mem_erase.1 hm).1
    · rename_i hn
      rcases Store.mem_insert hm with rfl | ⟨hm, -⟩
      · exact ⟨hh, fun hlt hv => hn ⟨hlt, hv⟩⟩
      · exact he e hm

theorem HashTable.clear_wf {t : HashTable} (ht : t.wf) {ts : Nat} (h : ts ≤ Config.htMax) : (t.clear ts).wf := by
  obtain ⟨hp, he, hc⟩ := ht
  refine ⟨hp.filter _, ?_, by simp only [HashTable.clear]; omega⟩
  intro e hm
  simp only [HashTable.clear, List.mem_filter, decide_eq_true_eq] at hm ⊢
  exact ⟨(he e hm.1).1, fun hlt => (he e hm.1).2 (by omega)⟩

/-- Memory and table have their canonical form after reset. -/
theorem State.reset_wf : State.reset.mem.wf ∧ State.reset.table.wf := by decide

/-- A copy repeats the `off` bytes before its destination (41_decompressor.md R242). -/
theorem Memory.read_move_back_mod (m : Memory) {dst off len j : Nat} (hj : j < len) (h0 : 0 < off) (h : off ≤ dst) :
    (m.move dst (dst - off) len).read (dst + j) = m.read (dst - off + j % off) := by
  induction j using Nat.strong_induction_on with
  | _ j ih =>
    rw [Memory.read_move_back _ hj h0 h]
    by_cases hlt : j < off
    · rw [Nat.mod_eq_of_lt hlt, Memory.read_move_outside _ (by simp only [inRange]; omega)]
      congr 1; omega
    · rw [show dst + j - off = dst + (j - off) by omega, ih (j - off) (by omega) (by omega),
        ← Nat.mod_eq_sub_mod (by omega)]

end Sys2Proof.Machine
end

