-- ==== Sys2Proof/Laws/State.lean ====
section
/-! SUPPORT. One lemma per field of State and per shared update of it. -/

namespace Sys2Proof.Machine

/-! Acceptance writes `STATUS`, the latches and the engine (42_commands.md R292, R293). -/

@[simp] theorem State.accept_params (s : State) (v : Word) : (s.accept v).params = s.params := rfl

@[simp] theorem State.accept_cfg (s : State) (v : Word) : (s.accept v).cfg = s.cfg := rfl

@[simp] theorem State.accept_status (s : State) (v : Word) : (s.accept v).status = Status.accepted v := rfl

@[simp] theorem State.accept_resultLen (s : State) (v : Word) : (s.accept v).resultLen = s.resultLen := rfl

@[simp] theorem State.accept_expectLen (s : State) (v : Word) : (s.accept v).expectLen = s.expectLen := rfl

@[simp] theorem State.accept_errPos (s : State) (v : Word) : (s.accept v).errPos = s.errPos := rfl

@[simp] theorem State.accept_latch (s : State) (v : Word) : (s.accept v).latch = s.cfg := rfl

@[simp] theorem State.accept_engine (s : State) (v : Word) : (s.accept v).engine = .started v := rfl

@[simp] theorem State.accept_table (s : State) (v : Word) : (s.accept v).table = s.table := rfl

@[simp] theorem State.accept_mem (s : State) (v : Word) : (s.accept v).mem = s.mem := rfl

@[simp] theorem State.accept_turns (s : State) (v : Word) : (s.accept v).turns = s.turns := rfl

@[simp] theorem State.accept_busPlan (s : State) (v : Word) : (s.accept v).busPlan = s.busPlan := rfl

@[simp] theorem State.accept_hostData (s : State) (v : Word) : (s.accept v).hostData = s.hostData := rfl

@[simp] theorem State.accept_unseen (s : State) (v : Word) : (s.accept v).unseen = s.unseen := rfl

@[simp] theorem State.accept_draws (s : State) (v : Word) : (s.accept v).draws = s.draws := rfl

/-! Finish writes the result registers, `STATUS`, the engine and what the host has still to see (42_commands.md R298). -/

@[simp] theorem State.finish_params (s : State) (e : Option ErrorKind) (result expect pos : Word) :
    (s.finish e result expect pos).params = s.params := rfl

@[simp] theorem State.finish_cfg (s : State) (e : Option ErrorKind) (result expect pos : Word) :
    (s.finish e result expect pos).cfg = s.cfg := rfl

@[simp] theorem State.finish_status (s : State) (e : Option ErrorKind) (result expect pos : Word) :
    (s.finish e result expect pos).status = s.status.finished e := rfl

@[simp] theorem State.finish_resultLen (s : State) (e : Option ErrorKind) (result expect pos : Word) :
    (s.finish e result expect pos).resultLen = result := rfl

@[simp] theorem State.finish_expectLen (s : State) (e : Option ErrorKind) (result expect pos : Word) :
    (s.finish e result expect pos).expectLen = expect := rfl

@[simp] theorem State.finish_errPos (s : State) (e : Option ErrorKind) (result expect pos : Word) :
    (s.finish e result expect pos).errPos = pos := rfl

@[simp] theorem State.finish_latch (s : State) (e : Option ErrorKind) (result expect pos : Word) :
    (s.finish e result expect pos).latch = s.latch := rfl

@[simp] theorem State.finish_engine (s : State) (e : Option ErrorKind) (result expect pos : Word) :
    (s.finish e result expect pos).engine = .idle := rfl

@[simp] theorem State.finish_table (s : State) (e : Option ErrorKind) (result expect pos : Word) :
    (s.finish e result expect pos).table = s.table := rfl

@[simp] theorem State.finish_mem (s : State) (e : Option ErrorKind) (result expect pos : Word) :
    (s.finish e result expect pos).mem = s.mem := rfl

@[simp] theorem State.finish_turns (s : State) (e : Option ErrorKind) (result expect pos : Word) :
    (s.finish e result expect pos).turns = s.turns := rfl

@[simp] theorem State.finish_busPlan (s : State) (e : Option ErrorKind) (result expect pos : Word) :
    (s.finish e result expect pos).busPlan = s.busPlan := rfl

@[simp] theorem State.finish_hostData (s : State) (e : Option ErrorKind) (result expect pos : Word) :
    (s.finish e result expect pos).hostData = s.hostData := rfl

@[simp] theorem State.finish_unseen (s : State) (e : Option ErrorKind) (result expect pos : Word) :
    (s.finish e result expect pos).unseen = s.latch :: s.unseen := rfl

@[simp] theorem State.finish_draws (s : State) (e : Option ErrorKind) (result expect pos : Word) :
    (s.finish e result expect pos).draws = s.draws := rfl

/-! Raising an error (60_exceptions.md R313). -/

@[simp] theorem State.raise_params (s : State) (e : ErrorKind) (pos : Nat) :
    (s.raise e pos).params = s.params := rfl

@[simp] theorem State.raise_cfg (s : State) (e : ErrorKind) (pos : Nat) : (s.raise e pos).cfg = s.cfg := rfl

@[simp] theorem State.raise_status (s : State) (e : ErrorKind) (pos : Nat) :
    (s.raise e pos).status = s.status.finished (some e) := rfl

@[simp] theorem State.raise_resultLen (s : State) (e : ErrorKind) (pos : Nat) :
    (s.raise e pos).resultLen = 0#32 := rfl

@[simp] theorem State.raise_expectLen (s : State) (e : ErrorKind) (pos : Nat) :
    (s.raise e pos).expectLen = s.decodedLen := rfl

@[simp] theorem State.raise_errPos (s : State) (e : ErrorKind) (pos : Nat) :
    (s.raise e pos).errPos = BitVec.ofNat 32 pos := rfl

@[simp] theorem State.raise_latch (s : State) (e : ErrorKind) (pos : Nat) :
    (s.raise e pos).latch = s.latch := rfl

@[simp] theorem State.raise_engine (s : State) (e : ErrorKind) (pos : Nat) :
    (s.raise e pos).engine = .idle := rfl

@[simp] theorem State.raise_table (s : State) (e : ErrorKind) (pos : Nat) :
    (s.raise e pos).table = s.table := rfl

@[simp] theorem State.raise_mem (s : State) (e : ErrorKind) (pos : Nat) : (s.raise e pos).mem = s.mem := rfl

@[simp] theorem State.raise_turns (s : State) (e : ErrorKind) (pos : Nat) :
    (s.raise e pos).turns = s.turns := rfl

@[simp] theorem State.raise_busPlan (s : State) (e : ErrorKind) (pos : Nat) :
    (s.raise e pos).busPlan = s.busPlan := rfl

@[simp] theorem State.raise_hostData (s : State) (e : ErrorKind) (pos : Nat) :
    (s.raise e pos).hostData = s.hostData := rfl

@[simp] theorem State.raise_unseen (s : State) (e : ErrorKind) (pos : Nat) :
    (s.raise e pos).unseen = s.latch :: s.unseen := rfl

@[simp] theorem State.raise_draws (s : State) (e : ErrorKind) (pos : Nat) :
    (s.raise e pos).draws = s.draws := rfl

/-! A draw for destination bytes writes memory and the draw number. -/

@[simp] theorem State.spoilDst_params (s : State) (lo : Nat) : (s.spoilDst lo).params = s.params := rfl

@[simp] theorem State.spoilDst_cfg (s : State) (lo : Nat) : (s.spoilDst lo).cfg = s.cfg := rfl

@[simp] theorem State.spoilDst_status (s : State) (lo : Nat) : (s.spoilDst lo).status = s.status := rfl

@[simp] theorem State.spoilDst_resultLen (s : State) (lo : Nat) :
    (s.spoilDst lo).resultLen = s.resultLen := rfl

@[simp] theorem State.spoilDst_expectLen (s : State) (lo : Nat) :
    (s.spoilDst lo).expectLen = s.expectLen := rfl

@[simp] theorem State.spoilDst_errPos (s : State) (lo : Nat) : (s.spoilDst lo).errPos = s.errPos := rfl

@[simp] theorem State.spoilDst_latch (s : State) (lo : Nat) : (s.spoilDst lo).latch = s.latch := rfl

@[simp] theorem State.spoilDst_engine (s : State) (lo : Nat) : (s.spoilDst lo).engine = s.engine := rfl

@[simp] theorem State.spoilDst_table (s : State) (lo : Nat) : (s.spoilDst lo).table = s.table := rfl

@[simp] theorem State.spoilDst_mem (s : State) (lo : Nat) :
    (s.spoilDst lo).mem = s.mem.spoil (s.latch.dstAddr.toNat + lo) (min s.latch.dstEnd Config.addrSpace) s.draws := rfl

@[simp] theorem State.spoilDst_turns (s : State) (lo : Nat) : (s.spoilDst lo).turns = s.turns := rfl

@[simp] theorem State.spoilDst_busPlan (s : State) (lo : Nat) : (s.spoilDst lo).busPlan = s.busPlan := rfl

@[simp] theorem State.spoilDst_hostData (s : State) (lo : Nat) : (s.spoilDst lo).hostData = s.hostData := rfl

@[simp] theorem State.spoilDst_unseen (s : State) (lo : Nat) : (s.spoilDst lo).unseen = s.unseen := rfl

@[simp] theorem State.spoilDst_draws (s : State) (lo : Nat) : (s.spoilDst lo).draws = s.draws + 1 := rfl

/-! Raising an error that leaves the destination unspecified (41_decompressor.md R246). -/

@[simp] theorem State.raiseSpoiled_params (s : State) (e : ErrorKind) (pos : Nat) :
    (s.raiseSpoiled e pos).params = s.params := rfl

@[simp] theorem State.raiseSpoiled_cfg (s : State) (e : ErrorKind) (pos : Nat) :
    (s.raiseSpoiled e pos).cfg = s.cfg := rfl

@[simp] theorem State.raiseSpoiled_status (s : State) (e : ErrorKind) (pos : Nat) :
    (s.raiseSpoiled e pos).status = s.status.finished (some e) := rfl

@[simp] theorem State.raiseSpoiled_resultLen (s : State) (e : ErrorKind) (pos : Nat) :
    (s.raiseSpoiled e pos).resultLen = 0#32 := rfl

@[simp] theorem State.raiseSpoiled_expectLen (s : State) (e : ErrorKind) (pos : Nat) :
    (s.raiseSpoiled e pos).expectLen = s.decodedLen := rfl

@[simp] theorem State.raiseSpoiled_errPos (s : State) (e : ErrorKind) (pos : Nat) :
    (s.raiseSpoiled e pos).errPos = BitVec.ofNat 32 pos := rfl

@[simp] theorem State.raiseSpoiled_latch (s : State) (e : ErrorKind) (pos : Nat) :
    (s.raiseSpoiled e pos).latch = s.latch := rfl

@[simp] theorem State.raiseSpoiled_engine (s : State) (e : ErrorKind) (pos : Nat) :
    (s.raiseSpoiled e pos).engine = .idle := rfl

@[simp] theorem State.raiseSpoiled_table (s : State) (e : ErrorKind) (pos : Nat) :
    (s.raiseSpoiled e pos).table = s.table := rfl

@[simp] theorem State.raiseSpoiled_mem (s : State) (e : ErrorKind) (pos : Nat) :
    (s.raiseSpoiled e pos).mem = s.mem.spoil (s.latch.dstAddr.toNat + 0) (min s.latch.dstEnd Config.addrSpace) s.draws := rfl

@[simp] theorem State.raiseSpoiled_turns (s : State) (e : ErrorKind) (pos : Nat) :
    (s.raiseSpoiled e pos).turns = s.turns := rfl

@[simp] theorem State.raiseSpoiled_busPlan (s : State) (e : ErrorKind) (pos : Nat) :
    (s.raiseSpoiled e pos).busPlan = s.busPlan := rfl

@[simp] theorem State.raiseSpoiled_hostData (s : State) (e : ErrorKind) (pos : Nat) :
    (s.raiseSpoiled e pos).hostData = s.hostData := rfl

@[simp] theorem State.raiseSpoiled_unseen (s : State) (e : ErrorKind) (pos : Nat) :
    (s.raiseSpoiled e pos).unseen = s.latch :: s.unseen := rfl

@[simp] theorem State.raiseSpoiled_draws (s : State) (e : ErrorKind) (pos : Nat) :
    (s.raiseSpoiled e pos).draws = s.draws + 1 := rfl

/-! The error of an element (41_decompressor.md R234). -/

@[simp] theorem State.elementError_params (s : State) (d : Decompressor) :
    (s.elementError d).params = s.params := rfl

@[simp] theorem State.elementError_cfg (s : State) (d : Decompressor) : (s.elementError d).cfg = s.cfg := rfl

@[simp] theorem State.elementError_status (s : State) (d : Decompressor) :
    (s.elementError d).status = s.status.finished (some .parsingError) := rfl

@[simp] theorem State.elementError_resultLen (s : State) (d : Decompressor) :
    (s.elementError d).resultLen = 0#32 := rfl

@[simp] theorem State.elementError_expectLen (s : State) (d : Decompressor) :
    (s.elementError d).expectLen = s.decodedLen := rfl

@[simp] theorem State.elementError_errPos (s : State) (d : Decompressor) :
    (s.elementError d).errPos = BitVec.ofNat 32 d.inPos := rfl

@[simp] theorem State.elementError_latch (s : State) (d : Decompressor) :
    (s.elementError d).latch = s.latch := rfl

@[simp] theorem State.elementError_engine (s : State) (d : Decompressor) :
    (s.elementError d).engine = .idle := rfl

@[simp] theorem State.elementError_table (s : State) (d : Decompressor) :
    (s.elementError d).table = s.table := rfl

@[simp] theorem State.elementError_mem (s : State) (d : Decompressor) :
    (s.elementError d).mem = s.mem.spoil (s.latch.dstAddr.toNat + 0) (min s.latch.dstEnd Config.addrSpace) s.draws := rfl

@[simp] theorem State.elementError_turns (s : State) (d : Decompressor) :
    (s.elementError d).turns = s.turns := rfl

@[simp] theorem State.elementError_busPlan (s : State) (d : Decompressor) :
    (s.elementError d).busPlan = s.busPlan := rfl

@[simp] theorem State.elementError_hostData (s : State) (d : Decompressor) :
    (s.elementError d).hostData = s.hostData := rfl

@[simp] theorem State.elementError_unseen (s : State) (d : Decompressor) :
    (s.elementError d).unseen = s.latch :: s.unseen := rfl

@[simp] theorem State.elementError_draws (s : State) (d : Decompressor) :
    (s.elementError d).draws = s.draws + 1 := rfl

/-! The platform's decision writes only the plan (20_memory.md R93). -/

@[simp] theorem State.busNext_params (s : State) :
    (s.busNext).params = s.params := by unfold State.busNext; split <;> rfl

@[simp] theorem State.busNext_cfg (s : State) :
    (s.busNext).cfg = s.cfg := by unfold State.busNext; split <;> rfl

@[simp] theorem State.busNext_status (s : State) :
    (s.busNext).status = s.status := by unfold State.busNext; split <;> rfl

@[simp] theorem State.busNext_resultLen (s : State) :
    (s.busNext).resultLen = s.resultLen := by unfold State.busNext; split <;> rfl

@[simp] theorem State.busNext_expectLen (s : State) :
    (s.busNext).expectLen = s.expectLen := by unfold State.busNext; split <;> rfl

@[simp] theorem State.busNext_errPos (s : State) :
    (s.busNext).errPos = s.errPos := by unfold State.busNext; split <;> rfl

@[simp] theorem State.busNext_latch (s : State) :
    (s.busNext).latch = s.latch := by unfold State.busNext; split <;> rfl

@[simp] theorem State.busNext_engine (s : State) :
    (s.busNext).engine = s.engine := by unfold State.busNext; split <;> rfl

@[simp] theorem State.busNext_table (s : State) :
    (s.busNext).table = s.table := by unfold State.busNext; split <;> rfl

@[simp] theorem State.busNext_mem (s : State) :
    (s.busNext).mem = s.mem := by unfold State.busNext; split <;> rfl

@[simp] theorem State.busNext_turns (s : State) :
    (s.busNext).turns = s.turns := by unfold State.busNext; split <;> rfl

@[simp] theorem State.busNext_hostData (s : State) :
    (s.busNext).hostData = s.hostData := by unfold State.busNext; split <;> rfl

@[simp] theorem State.busNext_unseen (s : State) :
    (s.busNext).unseen = s.unseen := by unfold State.busNext; split <;> rfl

@[simp] theorem State.busNext_draws (s : State) :
    (s.busNext).draws = s.draws := by unfold State.busNext; split <;> rfl

/-! Emission writes memory, the table and the engine (40_compressor.md R172). -/

@[simp] theorem State.emit_params (s : State) (c : Compressor) (t : HashTable) (bytes : List Byte) :
    (s.emit c t bytes).params = s.params := rfl

@[simp] theorem State.emit_cfg (s : State) (c : Compressor) (t : HashTable) (bytes : List Byte) :
    (s.emit c t bytes).cfg = s.cfg := rfl

@[simp] theorem State.emit_status (s : State) (c : Compressor) (t : HashTable) (bytes : List Byte) :
    (s.emit c t bytes).status = s.status := rfl

@[simp] theorem State.emit_resultLen (s : State) (c : Compressor) (t : HashTable) (bytes : List Byte) :
    (s.emit c t bytes).resultLen = s.resultLen := rfl

@[simp] theorem State.emit_expectLen (s : State) (c : Compressor) (t : HashTable) (bytes : List Byte) :
    (s.emit c t bytes).expectLen = s.expectLen := rfl

@[simp] theorem State.emit_errPos (s : State) (c : Compressor) (t : HashTable) (bytes : List Byte) :
    (s.emit c t bytes).errPos = s.errPos := rfl

@[simp] theorem State.emit_latch (s : State) (c : Compressor) (t : HashTable) (bytes : List Byte) :
    (s.emit c t bytes).latch = s.latch := rfl

@[simp] theorem State.emit_engine (s : State) (c : Compressor) (t : HashTable) (bytes : List Byte) :
    (s.emit c t bytes).engine = .compress { c with op := c.op + bytes.length } := rfl

@[simp] theorem State.emit_table (s : State) (c : Compressor) (t : HashTable) (bytes : List Byte) :
    (s.emit c t bytes).table = t := rfl

@[simp] theorem State.emit_mem (s : State) (c : Compressor) (t : HashTable) (bytes : List Byte) :
    (s.emit c t bytes).mem = s.mem.writeList (s.latch.dstAddr.toNat + c.op) bytes := rfl

@[simp] theorem State.emit_turns (s : State) (c : Compressor) (t : HashTable) (bytes : List Byte) :
    (s.emit c t bytes).turns = s.turns := rfl

@[simp] theorem State.emit_busPlan (s : State) (c : Compressor) (t : HashTable) (bytes : List Byte) :
    (s.emit c t bytes).busPlan = s.busPlan := rfl

@[simp] theorem State.emit_hostData (s : State) (c : Compressor) (t : HashTable) (bytes : List Byte) :
    (s.emit c t bytes).hostData = s.hostData := rfl

@[simp] theorem State.emit_unseen (s : State) (c : Compressor) (t : HashTable) (bytes : List Byte) :
    (s.emit c t bytes).unseen = s.unseen := rfl

@[simp] theorem State.emit_draws (s : State) (c : Compressor) (t : HashTable) (bytes : List Byte) :
    (s.emit c t bytes).draws = s.draws := rfl

/-! Putting the device's turn first writes the schedule. -/

@[simp] theorem State.oneAction_params (s : State) : (s.oneAction).params = s.params := rfl

@[simp] theorem State.oneAction_cfg (s : State) : (s.oneAction).cfg = s.cfg := rfl

@[simp] theorem State.oneAction_status (s : State) : (s.oneAction).status = s.status := rfl

@[simp] theorem State.oneAction_resultLen (s : State) : (s.oneAction).resultLen = s.resultLen := rfl

@[simp] theorem State.oneAction_expectLen (s : State) : (s.oneAction).expectLen = s.expectLen := rfl

@[simp] theorem State.oneAction_errPos (s : State) : (s.oneAction).errPos = s.errPos := rfl

@[simp] theorem State.oneAction_latch (s : State) : (s.oneAction).latch = s.latch := rfl

@[simp] theorem State.oneAction_engine (s : State) : (s.oneAction).engine = s.engine := rfl

@[simp] theorem State.oneAction_table (s : State) : (s.oneAction).table = s.table := rfl

@[simp] theorem State.oneAction_mem (s : State) : (s.oneAction).mem = s.mem := rfl

@[simp] theorem State.oneAction_turns (s : State) :
    (s.oneAction).turns = Turn.device :: (if s.turns = [] then [.device] else s.turns) := rfl

@[simp] theorem State.oneAction_busPlan (s : State) : (s.oneAction).busPlan = s.busPlan := rfl

@[simp] theorem State.oneAction_hostData (s : State) : (s.oneAction).hostData = s.hostData := rfl

@[simp] theorem State.oneAction_unseen (s : State) : (s.oneAction).unseen = s.unseen := rfl

@[simp] theorem State.oneAction_draws (s : State) : (s.oneAction).draws = s.draws := rfl

/-! The reset event (70_reset_and_hazards.md R351, R352). -/

@[simp] theorem State.resetEvent_params (s : State) :
    (s.resetEvent).params = s.params := by unfold State.resetEvent; cases s.status.busy <;> rfl

@[simp] theorem State.resetEvent_cfg (s : State) :
    (s.resetEvent).cfg = Regions.zero := by unfold State.resetEvent; cases s.status.busy <;> rfl

@[simp] theorem State.resetEvent_status (s : State) :
    (s.resetEvent).status = Status.zero := by unfold State.resetEvent; cases s.status.busy <;> rfl

@[simp] theorem State.resetEvent_resultLen (s : State) :
    (s.resetEvent).resultLen = 0#32 := by unfold State.resetEvent; cases s.status.busy <;> rfl

@[simp] theorem State.resetEvent_expectLen (s : State) :
    (s.resetEvent).expectLen = 0#32 := by unfold State.resetEvent; cases s.status.busy <;> rfl

@[simp] theorem State.resetEvent_errPos (s : State) :
    (s.resetEvent).errPos = 0#32 := by unfold State.resetEvent; cases s.status.busy <;> rfl

@[simp] theorem State.resetEvent_latch (s : State) :
    (s.resetEvent).latch = Regions.zero := by unfold State.resetEvent; cases s.status.busy <;> rfl

@[simp] theorem State.resetEvent_engine (s : State) :
    (s.resetEvent).engine = .idle := by unfold State.resetEvent; cases s.status.busy <;> rfl

@[simp] theorem State.resetEvent_mem (s : State) :
    (s.resetEvent).mem = if s.status.busy then (s.spoilDst 0).mem else s.mem := by unfold State.resetEvent; cases s.status.busy <;> rfl

@[simp] theorem State.resetEvent_turns (s : State) :
    (s.resetEvent).turns = s.turns := by unfold State.resetEvent; cases s.status.busy <;> rfl

@[simp] theorem State.resetEvent_busPlan (s : State) :
    (s.resetEvent).busPlan = s.busPlan := by unfold State.resetEvent; cases s.status.busy <;> rfl

@[simp] theorem State.resetEvent_hostData (s : State) :
    (s.resetEvent).hostData = s.hostData := by unfold State.resetEvent; cases s.status.busy <;> rfl

@[simp] theorem State.resetEvent_unseen (s : State) :
    (s.resetEvent).unseen = s.unseen := by unfold State.resetEvent; cases s.status.busy <;> rfl

end Sys2Proof.Machine
end

