-- ==== Sys2Proof/Laws/Ops.lean ====
section
/-! SUPPORT. For each shared operation, one lemma that says what it can do; the provers cite these instead of
unfolding the operation. -/

namespace Sys2Proof.Machine

/-! ### Outcomes -/

@[simp] theorem andThen_next (s : State) (k : State → Host.Outcome State Fault Refusal) :
    andThen (.next s) k = k s := rfl

@[simp] theorem andThen_fault (f : Fault) (k : State → Host.Outcome State Fault Refusal) :
    andThen (.fault f) k = .fault f := rfl

@[simp] theorem andThen_refused (r : Refusal) (k : State → Host.Outcome State Fault Refusal) :
    andThen (.refused r) k = .refused r := rfl

theorem andThen_eq_next {o : Host.Outcome State Fault Refusal}
    {k : State → Host.Outcome State Fault Refusal} {t : State} (h : andThen o k = .next t) :
    ∃ u, o = .next u ∧ k u = .next t := by
  cases o with
  | next u => exact ⟨u, rfl, h⟩
  | fault f => simp at h
  | refused r => simp at h

theorem andThen_assoc (o : Host.Outcome State Fault Refusal)
    (k l : State → Host.Outcome State Fault Refusal) :
    andThen (andThen o k) l = andThen o fun s => andThen (k s) l := by
  cases o <;> rfl

/-! ### Bus faults -/

theorem State.busFails_eq_false {s : State} (h : s.params.busFaults = .none) : s.busFails = false := by
  simp [State.busFails, h]

theorem State.busNext_eq_self {s : State} (h : s.params.busFaults = .none) : s.busNext = s := by
  simp [State.busNext, h]

@[simp] theorem State.srcByte_busNext (s : State) : s.busNext.srcByte = s.srcByte := by
  funext i; simp [State.srcByte]

theorem State.onBus_of_fails {s : State} (h : s.busFails = true)
    (k : State → Host.Outcome State Fault Refusal) :
    s.onBus k = .next (s.busNext.raiseSpoiled .busError 0) := by
  simp [State.onBus, h]

theorem State.onBus_of_not_fails {s : State} (h : s.busFails = false)
    (k : State → Host.Outcome State Fault Refusal) : s.onBus k = k s.busNext := by
  simp [State.onBus, h]

/-- A memory phase either ends the command with `BUS_ERROR` or goes on. -/
theorem State.onBus_cases (s : State) (k : State → Host.Outcome State Fault Refusal) :
    s.onBus k = .next (s.busNext.raiseSpoiled .busError 0) ∨ s.onBus k = k s.busNext := by
  unfold State.onBus; split
  · exact .inl rfl
  · exact .inr rfl

/-! ### Memory of the destination -/

/-- A draw for destination bytes changes no byte outside the destination region. -/
theorem State.read_spoilDst_outside (s : State) (lo : Nat) {a : Nat} (h : ¬ s.latch.inDst a) :
    (s.spoilDst lo).mem.read a = s.mem.read a := by
  rw [State.spoilDst_mem, Memory.read_spoil_outside]
  simp only [Regions.inDst, inRange] at h ⊢
  omega

/-- A draw from `lo` on changes no destination byte below `lo`. -/
theorem State.read_spoilDst_below (s : State) {lo j : Nat} (h : j < lo) :
    (s.spoilDst lo).mem.read (s.latch.dstAddr.toNat + j) = s.mem.read (s.latch.dstAddr.toNat + j) := by
  rw [State.spoilDst_mem, Memory.read_spoil_outside]
  simp only [inRange]; omega

/-- A byte read while legal regions are in use: the source lies outside the destination. -/
theorem Regions.src_not_inDst {r : Regions} (h : r.apart) {i : Nat} (hi : i < r.srcLen.toNat) :
    ¬ r.inDst (r.srcAddr.toNat + i) := by
  simp only [Regions.apart, Regions.inDst, inRange, Regions.srcEnd, Regions.dstEnd] at h ⊢
  omega

/-! ### Elements -/

/-- What every element does first: outside a DECOMPRESS it is refused, outside memory it faults, with a trailer past
the source it is in error; else it goes on. -/
theorem onElement_eq {s : State} {d : Decompressor} (h : s.engine = .decompress d) (tb : Nat)
    (k : Decompressor → Host.Outcome State Fault Refusal) :
    onElement tb s k =
      if ¬ s.latch.inSpace then .fault .addressOutsideMemory
      else if s.latch.srcLen.toNat < d.inPos + 1 + tb then .next (s.elementError d)
      else k d := by
  simp only [onElement, h]

/-- An element that answers a next state `t`: the error of the element, a bus error, or its effect, which takes
`tb + taken` source bytes after the tag and moves `len` bytes from the address `src`. -/
def ElementEffect (s : State) (d : Decompressor) (tb taken len src : Nat) (t : State) : Prop :=
  t = s.elementError d
    ∨ (s.busFails = true ∧ t = s.busNext.raiseSpoiled .busError 0)
    ∨ (s.busFails = false ∧ d.inPos + 1 + tb + taken ≤ s.latch.srcLen.toNat
        ∧ d.outPos + len ≤ s.latch.dstCap.toNat
        ∧ t = { s.busNext with
            mem := s.mem.move (s.latch.dstAddr.toNat + d.outPos) src len
            engine := .decompress ⟨d.inPos + 1 + tb + taken, d.outPos + len, d.expect⟩ })

/-- Everything a literal can do (41_decompressor.md R236). -/
theorem doLiteral_next {tb len : Nat} {s t : State} (h : doLiteral tb len s = .next t) :
    ∃ d, s.engine = .decompress d ∧ s.latch.inSpace
      ∧ ElementEffect s d tb len len (s.latch.srcAddr.toNat + (d.inPos + 1 + tb)) t := by
  cases he : s.engine with
  | decompress d =>
    rw [doLiteral, onElement_eq he] at h
    by_cases hsp : s.latch.inSpace
    · refine ⟨d, rfl, hsp, ?_⟩
      rw [if_neg (not_not_intro hsp)] at h
      split at h
      · cases h; exact .inl rfl
      · split at h
        · cases h; exact .inl rfl
        · rename_i hb
          cases hf : s.busFails with
          | true => rw [State.onBus_of_fails hf] at h; cases h; exact .inr (.inl ⟨hf, rfl⟩)
          | false =>
            rw [State.onBus_of_not_fails hf] at h
            simp only [State.busNext_mem, State.busNext_latch, Host.Outcome.next.injEq] at h
            subst h
            exact .inr (.inr ⟨hf, by omega, by omega, by simp⟩)
    · rw [if_pos hsp] at h; cases h
  | idle => simp [doLiteral, onElement, he] at h
  | started v => simp [doLiteral, onElement, he] at h
  | compress c => simp [doLiteral, onElement, he] at h

/-- Everything a copy can do (41_decompressor.md R242). -/
theorem doCopy_next {tb off len : Nat} {s t : State} (h : doCopy tb off len s = .next t) :
    ∃ d, s.engine = .decompress d ∧ s.latch.inSpace
      ∧ ElementEffect s d tb 0 len (s.latch.dstAddr.toNat + (d.outPos - off)) t
      ∧ (t.engine ≠ .idle → 1 ≤ off ∧ off ≤ d.outPos) := by
  cases he : s.engine with
  | decompress d =>
    rw [doCopy, onElement_eq he] at h
    by_cases hsp : s.latch.inSpace
    · refine ⟨d, rfl, hsp, ?_⟩
      rw [if_neg (not_not_intro hsp)] at h
      split at h
      · cases h; exact ⟨.inl rfl, by simp⟩
      · split at h
        · cases h; exact ⟨.inl rfl, by simp⟩
        · rename_i hb
          cases hf : s.busFails with
          | true => rw [State.onBus_of_fails hf] at h; cases h; exact ⟨.inr (.inl ⟨hf, rfl⟩), by simp⟩
          | false =>
            rw [State.onBus_of_not_fails hf] at h
            simp only [State.busNext_mem, State.busNext_latch, Host.Outcome.next.injEq] at h
            subst h
            exact ⟨.inr (.inr ⟨hf, by omega, by omega, by simp⟩), fun _ => by omega⟩
    · rw [if_pos hsp] at h; cases h
  | idle => simp [doCopy, onElement, he] at h
  | started v => simp [doCopy, onElement, he] at h
  | compress c => simp [doCopy, onElement, he] at h

/-- An element form's meaning is what the decompressor executes. -/
theorem exec_eq_execElement {i : Instr} (h : i.space = .element) (s : State) : exec i s = execElement i s := by
  cases i <;> first | rfl | (simp [Instr.space] at h)

/-! ### The decompressor -/

/-- Everything an action of the decompressor can do: a fault outside memory, a bus error, the error of a truncated
trailer, an element, or the end. -/
theorem decompressorAction_cases (run : Instr → State → Host.Outcome State Fault Refusal) (s : State)
    (d : Decompressor) :
    (d.inPos < s.latch.srcLen.toNat ∧ ¬ s.latch.inSpace
        ∧ decompressorAction run s d = .fault .addressOutsideMemory)
    ∨ (d.inPos < s.latch.srcLen.toNat ∧ s.latch.inSpace ∧ s.busFails = true
        ∧ decompressorAction run s d = .next (s.busNext.raiseSpoiled .busError 0))
    ∨ (d.inPos < s.latch.srcLen.toNat ∧ s.latch.inSpace ∧ s.busFails = false
        ∧ ((∃ r, s.busNext.fetchElement d = .error r
              ∧ decompressorAction run s d = .next (s.busNext.elementError d))
          ∨ ∃ i, s.busNext.fetchElement d = .ok i ∧ decompressorAction run s d = run i s.busNext))
    ∨ (s.latch.srcLen.toNat ≤ d.inPos ∧ decompressorAction run s d = .next (finishDecompress s d)) := by
  unfold decompressorAction
  by_cases hlt : d.inPos < s.latch.srcLen.toNat
  · by_cases hsp : s.latch.inSpace
    · rw [if_pos hlt, if_neg (not_not_intro hsp)]
      cases hf : s.busFails with
      | true => exact .inr (.inl ⟨hlt, hsp, rfl, by rw [State.onBus_of_fails hf]⟩)
      | false =>
        rw [State.onBus_of_not_fails hf]
        refine .inr (.inr (.inl ⟨hlt, hsp, rfl, ?_⟩))
        cases hfe : s.busNext.fetchElement d with
        | error r => exact .inl ⟨r, rfl, rfl⟩
        | ok i => exact .inr ⟨i, rfl, rfl⟩
    · exact .inl ⟨hlt, hsp, by rw [if_pos hlt, if_pos hsp]⟩
  · exact .inr (.inr (.inr ⟨by omega, by rw [if_neg hlt]⟩))

theorem runDecompressor_of_not_running {s : State} (h : ∀ d, s.engine ≠ .decompress d) (k : Nat) :
    runDecompressor k s = .next s := by
  cases k with
  | zero => rfl
  | succ k =>
    cases he : s.engine with
    | decompress d => exact absurd he (h d)
    | idle => simp [runDecompressor, he]
    | started v => simp [runDecompressor, he]
    | compress c => simp [runDecompressor, he]

theorem runDecompressor_succ {s : State} {d : Decompressor} (h : s.engine = .decompress d) (k : Nat) :
    runDecompressor (k + 1) s = andThen (decompressorAction execElement s d) (runDecompressor k) := by
  simp [runDecompressor, h]

/-- A property that every action of the decompressor keeps holds after any number of them. -/
theorem runDecompressor_keeps {P : State → Prop}
    (step : ∀ s d t, P s → s.engine = .decompress d → decompressorAction execElement s d = .next t → P t)
    (k : Nat) {s t : State} (hs : P s) (h : runDecompressor k s = .next t) : P t := by
  induction k generalizing s with
  | zero => cases h; exact hs
  | succ k ih =>
    cases he : s.engine with
    | decompress d =>
      rw [runDecompressor_succ he] at h
      obtain ⟨u, hu, h⟩ := andThen_eq_next h
      exact ih (step s d u hs he hu) h
    | idle => rw [runDecompressor_of_not_running (by simp [he])] at h; cases h; exact hs
    | started v => rw [runDecompressor_of_not_running (by simp [he])] at h; cases h; exact hs
    | compress c => rw [runDecompressor_of_not_running (by simp [he])] at h; cases h; exact hs

/-! ### The compressor -/

/-- Everything an action of the compressor can do: the end, a fault outside memory, a bus error, or its work. -/
theorem compressorAction_cases (s : State) (c : Compressor) :
    (c.finished s.latch.srcLen.toNat ∧ compressorAction s c = .next (finishCompress s c))
    ∨ (¬ c.finished s.latch.srcLen.toNat ∧ ¬ s.latch.inSpace
        ∧ compressorAction s c = .fault .addressOutsideMemory)
    ∨ (¬ c.finished s.latch.srcLen.toNat ∧ s.latch.inSpace
        ∧ compressorAction s c = .next (s.busNext.raiseSpoiled .busError 0))
    ∨ (¬ c.finished s.latch.srcLen.toNat ∧ s.latch.inSpace
        ∧ (compressorAction s c = .next (compressorWork s c)
          ∨ compressorAction s c = .next (compressorWork s.busNext c))) := by
  unfold compressorAction
  by_cases hfin : c.finished s.latch.srcLen.toNat
  · exact .inl ⟨hfin, by rw [if_pos hfin]⟩
  · by_cases hsp : s.latch.inSpace
    · rw [if_neg hfin, if_neg (not_not_intro hsp)]
      split
      · rcases s.onBus_cases (fun s => .next (compressorWork s c)) with h | h
        · exact .inr (.inr (.inl ⟨hfin, hsp, h⟩))
        · exact .inr (.inr (.inr ⟨hfin, hsp, .inr h⟩))
      · exact .inr (.inr (.inr ⟨hfin, hsp, .inl rfl⟩))
    · exact .inr (.inl ⟨hfin, hsp, by rw [if_neg hfin, if_pos hsp]⟩)

theorem runCompressor_of_not_running {s : State} (h : ∀ c, s.engine ≠ .compress c) (k : Nat) :
    runCompressor k s = .next s := by
  cases k with
  | zero => rfl
  | succ k =>
    cases he : s.engine with
    | compress c => exact absurd he (h c)
    | idle => simp [runCompressor, he]
    | started v => simp [runCompressor, he]
    | decompress d => simp [runCompressor, he]

theorem runCompressor_succ {s : State} {c : Compressor} (h : s.engine = .compress c) (k : Nat) :
    runCompressor (k + 1) s = andThen (compressorAction s c) (runCompressor k) := by
  simp [runCompressor, h]

/-- A property that every action of the compressor keeps holds after any number of them. -/
theorem runCompressor_keeps {P : State → Prop}
    (step : ∀ s c t, P s → s.engine = .compress c → compressorAction s c = .next t → P t)
    (k : Nat) {s t : State} (hs : P s) (h : runCompressor k s = .next t) : P t := by
  induction k generalizing s with
  | zero => cases h; exact hs
  | succ k ih =>
    cases he : s.engine with
    | compress c =>
      rw [runCompressor_succ he] at h
      obtain ⟨u, hu, h⟩ := andThen_eq_next h
      exact ih (step s c u hs he hu) h
    | idle => rw [runCompressor_of_not_running (by simp [he])] at h; cases h; exact hs
    | started v => rw [runCompressor_of_not_running (by simp [he])] at h; cases h; exact hs
    | decompress d => rw [runCompressor_of_not_running (by simp [he])] at h; cases h; exact hs

/-! ### Sequencing -/

theorem settle_of_turns {s : State} (h : s.turns ≠ []) (carry : State → Host.Outcome State Fault Refusal) :
    settle carry s = .next s := by
  simp [settle, h]

theorem settle_of_no_turns {s : State} (h : s.turns = []) (carry : State → Host.Outcome State Fault Refusal) :
    settle carry s = carry s := by
  simp [settle, h]

theorem step_of_no_turns {s : State} (h : s.turns = []) : step s = deviceMove s := by
  simp [step, cycle, h]

theorem step_of_device {s : State} {rest : List Turn} (h : s.turns = .device :: rest) :
    step s = deviceMove { s with turns := rest } := by
  simp [step, cycle, h]

theorem step_of_host {s : State} {a : HostAction} {rest : List Turn} (h : s.turns = .host a :: rest) :
    step s = hostMove a { s with turns := rest } := by
  simp [step, cycle, h]

/-- The register offset of an aligned 32-bit access inside the block. -/
theorem State.registerOffset_ok {s : State} {addr : Word} {offset : Nat}
    (h : addr.toNat = s.params.regBase.toNat + offset) (ha : addr.toNat % 4 = 0) (ho : offset % 4 = 0)
    (hb : offset < 256) : s.registerOffset addr 4 = .ok offset := by
  unfold State.registerOffset
  have : addr.toNat - s.params.regBase.toNat = offset := by omega
  simp only [this, Config.blockBytes]
  rw [if_neg (by omega), if_pos ⟨trivial, ha, ho⟩]

end Sys2Proof.Machine
end

