-- ==== Sys2Proof/Laws/Compressor.lean ====
section
/-! SUPPORT. What one action of the compressor can do, phase by phase, and when the platform can fail it. -/

namespace Sys2Proof.Machine

theorem matchLen_le (src : Nat → Byte) (a b room : Nat) : matchLen src a b room ≤ room := by
  induction room generalizing a b with
  | zero => exact Nat.le_refl 0
  | succ room ih =>
    simp only [matchLen]
    split
    · exact Nat.succ_le_succ (ih (a + 1) (b + 1))
    · exact Nat.zero_le _

/-- A search whose loop test fails hands the window to its remainder and emits nothing (40_compressor.md R177). -/
theorem probe_of_not_probes {c : Compressor} (h : ¬ c.probes) (src : Nat → Byte) (t : HashTable) :
    probe src c t = ({ c with phase := .tail }, t, []) := by
  rw [probe, if_neg h]

/-- A copy that reaches the limit ends the run and touches no table entry (40_compressor.md R184). -/
theorem copyTurn_at_limit {c : Compressor} {src : Nat → Byte} {m : Nat} (t : HashTable)
    (hm : m = 4 + matchLen src (c.cand + 4) (c.ip + 4) (c.we - (c.ip + 4)))
    (h : c.ipLimit ≤ ((c.ip + m : Nat) : Int)) :
    copyTurn src c t =
      ({ c with phase := .scan, ip := c.ip + m, nextEmit := c.ip + m }, t, emitCopy (c.ip - c.cand) m) := by
  subst hm
  exact if_pos h

/-- A copy below the limit records `ip - 1`, looks `ip` up and records it; the phase says whether it found a match
(40_compressor.md R184). -/
theorem copyTurn_below_limit {c : Compressor} {src : Nat → Byte} {m before here cand : Nat} {t u : HashTable}
    (hm : m = 4 + matchLen src (c.cand + 4) (c.ip + 4) (c.we - (c.ip + 4)))
    (h : ((c.ip + m : Nat) : Int) < c.ipLimit)
    (hbefore : before = hash c.shift (load32 src (c.ip + m - 1)))
    (hhere : here = hash c.shift (load32 src (c.ip + m)))
    (hu : u = t.set before (BitVec.ofNat 16 (c.ip + m - 1 - c.wb)))
    (hcand : cand = c.wb + (u.get here).toNat) :
    copyTurn src c t =
      ({ c with
          phase := if load32 src cand = load32 src (c.ip + m) then c.phase else .scan
          ip := c.ip + m, nextEmit := c.ip + m, cand := cand },
        u.set here (BitVec.ofNat 16 (c.ip + m - c.wb)), emitCopy (c.ip - c.cand) m) := by
  subst hm hcand hu hhere hbefore
  rw [copyTurn, if_neg (Int.not_le.2 h)]
  dsimp only
  split <;> rfl

/-- An action that accesses no memory emits nothing (20_memory.md R93). -/
theorem Compressor.act_of_not_onMemory {c : Compressor} (h : c.onMemory = false) (n : Nat) (src : Nat → Byte)
    (t : HashTable) : (c.act n src t).2.2 = [] := by
  unfold Compressor.onMemory at h
  unfold Compressor.act
  split <;> rename_i hp <;> simp only [hp] at h
  · cases h
  · rfl
  · rfl
  · rw [probe_of_not_probes (of_decide_eq_false h)]
  · cases h
  · exact if_neg (of_decide_eq_false h)

/-- An action that accesses no memory goes on whatever the platform's plan says. -/
theorem compressorAction_of_not_onMemory {s : State} {c : Compressor} (h : c.onMemory = false)
    (hf : ¬ c.finished s.latch.srcLen.toNat) (hsp : s.latch.inSpace) :
    compressorAction s c = .next (compressorWork s c) := by
  rw [compressorAction, if_neg hf, if_neg (not_not_intro hsp), h]
  rfl

end Sys2Proof.Machine
end

