-- ==== Sys2Proof/Laws/Decode.lean ====
section
/-! SUPPORT. Laws of little-endian byte sequences and of the decoder's parts. -/

namespace Sys2Proof

@[simp] theorem leBytes_length (k v : Nat) : (leBytes k v).length = k := by
  induction k generalizing v with
  | zero => rfl
  | succ k ih => simp [leBytes, ih]

/-- The `k` bytes of a value carry it modulo `256^k`. -/
theorem leValue_leBytes (k v : Nat) : leValue (leBytes k v) = v % 256 ^ k := by
  induction k generalizing v with
  | zero => simp [leBytes, leValue, Nat.mod_one]
  | succ k ih =>
    have h : (BitVec.ofNat 8 v).toNat = v % 256 := BitVec.toNat_ofNat v 8
    rw [leBytes, leValue, ih, h, Nat.pow_succ', Nat.mod_mul]

theorem leValue_lt (bs : List Byte) : leValue bs < 256 ^ bs.length := by
  induction bs with
  | nil => simp [leValue]
  | cons b bs ih =>
    have hb := b.isLt
    simp only [leValue, List.length_cons, Nat.pow_succ']
    omega

/-- The bytes of the value of a byte sequence are that sequence. -/
theorem leBytes_leValue (bs : List Byte) : leBytes bs.length (leValue bs) = bs := by
  induction bs with
  | nil => rfl
  | cons b bs ih =>
    have hb := b.isLt
    simp only [List.length_cons, leBytes, leValue]
    rw [show (b.toNat + 256 * leValue bs) / 256 = leValue bs by omega, ih]
    congr 1
    apply BitVec.eq_of_toNat_eq
    simp only [BitVec.toNat_ofNat]
    omega

/-- The decoder reads the tag's trailer and nothing after it. -/
theorem decodeElement_append {tag : Byte} {trailer : List Byte} (h : trailer.length = trailerBytes tag)
    (rest : List Byte) :
    decodeElement (tag :: (trailer ++ rest)) = .ok (assemble tag (leValue trailer), rest) := by
  simp [decodeElement, ← h]

theorem trailerBytes_le (tag : Byte) : trailerBytes tag ≤ 4 := by
  have := tag.isLt
  unfold trailerBytes tagField
  split
  · split <;> omega
  all_goals omega

/-- An encoded element is its tag and as many trailer bytes as its form has. -/
theorem encode_length_element {i : Instr} (h : i.space = .element) : (encode i).length = 1 + i.trailer := by
  cases i <;> simp [encode, Instr.trailer, Instr.space] at h ⊢

end Sys2Proof
end

