-- ==== Sys2Proof/Laws/PerInstr.lean ====
section
/-! SUPPORT. Statements made of every instruction as syntax, one lemma per constructor. -/

namespace Sys2Proof.Laws

/-- The size of an encoding: a tag and its trailer for an element (30_encoding.md R123), four bytes for a command
(R136). -/
def EncodedSize.Statement (i : Instr) : Prop :=
  (encode i).length = match i.space with
    | .element => 1 + i.trailer
    | .command => 4

theorem EncodedSize.lit (len : Nat) : EncodedSize.Statement (.lit len) := rfl
theorem EncodedSize.lit1 (len : Nat) : EncodedSize.Statement (.lit1 len) := rfl
theorem EncodedSize.lit2 (len : Nat) : EncodedSize.Statement (.lit2 len) := rfl
theorem EncodedSize.lit3 (len : Nat) : EncodedSize.Statement (.lit3 len) := rfl
theorem EncodedSize.lit4 (len : Nat) : EncodedSize.Statement (.lit4 len) := rfl
theorem EncodedSize.copy1 (off len : Nat) : EncodedSize.Statement (.copy1 off len) := rfl
theorem EncodedSize.copy2 (off len : Nat) : EncodedSize.Statement (.copy2 off len) := rfl
theorem EncodedSize.copy4 (off len : Nat) : EncodedSize.Statement (.copy4 off len) := rfl
theorem EncodedSize.nop : EncodedSize.Statement .nop := rfl
theorem EncodedSize.compress : EncodedSize.Statement .compress := rfl
theorem EncodedSize.decompress : EncodedSize.Statement .decompress := rfl
theorem EncodedSize.maxlen : EncodedSize.Statement .maxlen := rfl

end Sys2Proof.Laws
end

