-- ==== Sys2Proof/Laws/Safety.lean ====
section
/-! SUPPORT. What ending a command does, in the terms of the claims; the device's turn; what a decoded header is
bounded by. -/

namespace Sys2Proof.Machine

/-- `Finish` without error (42_commands.md R298). -/
theorem State.finish_ended (s : State) (result expect pos : Word) :
    Ended s (s.finish none result expect pos) none result.toNat expect.toNat pos.toNat := by
  constructor <;> first | rfl | (constructor <;> rfl)

/-- `raise` (60_exceptions.md R313). -/
theorem State.raise_ended (s : State) (e : ErrorKind) {pos : Nat} (h : pos < 2 ^ 32) :
    Ended s (s.raise e pos) (some e) 0 s.decodedLen.toNat pos := by
  constructor <;> first | rfl | (constructor <;> rfl) | (simp; omega)

/-- `raise` with the destination unspecified (41_decompressor.md R246). -/
theorem State.raiseSpoiled_ended (s : State) (e : ErrorKind) {pos : Nat} (h : pos < 2 ^ 32) :
    Ended s (s.raiseSpoiled e pos) (some e) 0 s.decodedLen.toNat pos := by
  constructor <;> first | rfl | (constructor <;> rfl) | (simp; omega)

theorem State.raiseSpoiled_outside (s : State) (e : ErrorKind) (pos : Nat) :
    SameOutsideDst s (s.raiseSpoiled e pos) :=
  fun _ ha => State.read_spoilDst_outside (s.raise e pos) 0 ha

/-- How a command ended does not depend on which of two states with one frame it is said of. -/
theorem Ended.congr {s s' t : State} {e : Option ErrorKind} {result expect pos : Nat}
    (h : Ended s' t e result expect pos) (hf : DeviceFrame s s') (hs : s'.status = s.status)
    (hu : s'.unseen = s.unseen) : Ended s t e result expect pos where
  params := h.params.trans hf.params
  cfg := h.cfg.trans hf.cfg
  latch := h.latch.trans hf.latch
  turns := h.turns.trans hf.turns
  hostData := h.hostData.trans hf.hostData
  busy := h.busy
  done := h.done
  err := h.err
  errCode := h.errCode
  ignored := by rw [h.ignored, hs]
  lastCmd := by rw [h.lastCmd, hs]
  resultLen := h.resultLen
  expectLen := h.expectLen
  errPos := h.errPos
  engine := h.engine
  unseen := by rw [h.unseen, hf.latch, hu]

/-- The state the device moves from differs from the state before in the schedule alone. -/
theorem DeviceTurn.eq {s s' : State} (h : DeviceTurn s s') : s' = { s with turns := s'.turns } := by
  rcases h with ⟨-, rfl⟩ | ⟨rest, -, rfl⟩ <;> rfl

/-- On the device's turn, the step is the device's move. -/
theorem DeviceTurn.step {s s' : State} (h : DeviceTurn s s') : step s = deviceMove s' := by
  rcases h with ⟨ht, rfl⟩ | ⟨rest, ht, rfl⟩
  · exact step_of_no_turns ht
  · exact step_of_device ht

/-- On the host's turn, the step is the host's move. -/
theorem HostTurn.step {s s' : State} {a : HostAction} (h : HostTurn s a s') : step s = hostMove a s' := by
  obtain ⟨rest, ht, rfl⟩ := h
  exact step_of_host ht

theorem decodeHeaderFrom_ok {fuel n k v v' k' : Nat} {src : Nat → Byte}
    (h : decodeHeaderFrom fuel src n k v = .ok (v', k')) (hk : k + fuel = 5) (hv : v < 128 ^ k) :
    v' < 2 ^ 32 ∧ k' ≤ n ∧ k < k' := by
  induction fuel generalizing k v with
  | zero => simp [decodeHeaderFrom] at h
  | succ f ih =>
    simp only [decodeHeaderFrom] at h
    have hsrc := (src k).isLt
    have hpow : (128 : Nat) ^ (k + 1) = 128 * 128 ^ k := Nat.pow_succ'
    split at h
    · cases h
    split at h
    · cases h
    split at h
    · cases h
    split at h
    · cases h
      refine ⟨?_, by omega, by omega⟩
      by_cases hk4 : k = 4
      · subst hk4; norm_num at hv ⊢; omega
      · have h1 : (128 : Nat) ^ k ≤ 128 ^ 3 := Nat.pow_le_pow_right (by omega) (by omega)
        have h2 : (src k).toNat * 128 ^ k ≤ 127 * 128 ^ k := Nat.mul_le_mul_right _ (by omega)
        norm_num at h1 ⊢; omega
    · have h2 : (src k).toNat % 128 * 128 ^ k ≤ 127 * 128 ^ k := Nat.mul_le_mul_right _ (by omega)
      have := ih h (by omega) (by rw [hpow]; omega)
      omega

/-- A header that decodes gives a 32-bit length and lies in the source (41_decompressor.md R231). -/
theorem decodeHeader_ok {n len hlen : Nat} {src : Nat → Byte} (h : decodeHeader src n = .ok (len, hlen)) :
    len < 2 ^ 32 ∧ hlen ≤ n ∧ 1 ≤ hlen :=
  decodeHeaderFrom_ok h rfl (by norm_num)

end Sys2Proof.Machine
end

