-- ==== Sys2Proof/Tests/Slice0.lean ====
section
/-! SUPPORT. The model's tests: ill-formed terms, words written out from the spec's encodings, single steps whose
expected results are those of 95_test_vectors.md, and for each obligation with hypotheses a state that meets them. -/

namespace Sys2Proof.Tests

open Sys2Proof Sys2Proof.Machine

/-! ### Well-formedness: each check refuses an ill-formed term (30_encoding.md R132) -/

theorem test_wf_refuses_literals :
    [Instr.lit 0, .lit 61, .lit1 0, .lit1 257, .lit2 0, .lit2 65537, .lit3 0, .lit3 16777217,
      .lit4 0, .lit4 4294967297].all (fun i => !i.wf) = true := by decide

theorem test_wf_refuses_copies :
    [Instr.copy1 2048 4, .copy1 1 3, .copy1 1 12, .copy2 65536 1, .copy2 1 0, .copy2 1 65,
      .copy4 4294967296 1, .copy4 1 0, .copy4 1 65].all (fun i => !i.wf) = true := by decide

/-! ### Decoding: words written out from 30_encoding.md R124 to R131, R136, and the tag checks of V13 -/

theorem test_decode_lit : decodeElement [0b00110000#8, 0x62#8] = .ok (.lit 13, [0x62#8]) := by decide
theorem test_decode_lit1 : decodeElement [0b11110000#8, 0x3C#8] = .ok (.lit1 61, []) := by decide
theorem test_decode_lit2 : decodeElement [0b11110100#8, 0x87#8, 0x13#8] = .ok (.lit2 5000, []) := by decide
theorem test_decode_lit3 :
    decodeElement [0b11111000#8, 0x03#8, 0x00#8, 0x01#8] = .ok (.lit3 65540, []) := by decide
theorem test_decode_lit4 :
    decodeElement [0b11111100#8, 0xFF#8, 0xFF#8, 0xFF#8, 0xFF#8] = .ok (.lit4 4294967296, []) := by decide
theorem test_decode_copy1 : decodeElement [0b11100001#8, 0x34#8] = .ok (.copy1 0x734 4, []) := by decide
theorem test_decode_copy2 : decodeElement [0b11111110#8, 0x2C#8, 0x01#8] = .ok (.copy2 300 64, []) := by decide
theorem test_decode_copy4 :
    decodeElement [0b00001111#8, 0x02#8, 0x00#8, 0x00#8, 0x80#8] = .ok (.copy4 2147483650 4, []) := by decide
theorem test_decode_commands :
    [0#32, 1#32, 2#32, 3#32].map decodeCommand = [.ok .nop, .ok .compress, .ok .decompress, .ok .maxlen] := by
  decide
theorem test_decode_rejects :
    decodeCommand 0x80000001#32 = .error .illegalCommand ∧ decodeElement [] = .error .noTag
      ∧ decodeElement [0xFE#8, 0x01#8] = .error .truncatedTrailer
      ∧ decode .command [0x01#8, 0#8, 0#8] = .error .shortCommand := by decide

/-- The table's rows as the host numbers them. -/
theorem test_decodeTableWord :
    decodeTableWord 8 0x00 = some (.lit 1) ∧ decodeTableWord 16 0x00F0 = some (.lit1 1)
      ∧ decodeTableWord 16 0x3401 = some (.copy1 0x34 4) ∧ decodeTableWord 24 0x010203 = some (.copy4 258 1)
      ∧ decodeTableWord 32 0x00000001 = some .compress ∧ decodeTableWord 32 0x00000004 = none
      ∧ decodeTableWord 40 0x8000000203 = some (.copy4 0x80000002 1) := by decide

/-- 95_test_vectors.md V10. -/
theorem test_varint :
    [0, 127, 128, 300, 16384, 70000, 2 ^ 32 - 1].map encodeVarint
      = [[0x00#8], [0x7F#8], [0x80#8, 0x01#8], [0xAC#8, 0x02#8], [0x80#8, 0x80#8, 0x01#8],
        [0xF0#8, 0xA2#8, 0x04#8], [0xFF#8, 0xFF#8, 0xFF#8, 0xFF#8, 0x0F#8]] := by decide

/-! ### Small states -/

/-- The regions of the tests: `n` source bytes at 0x1000, `cap` destination bytes at 0x2000. -/
def regions (n cap : Nat) : Regions := ⟨0x1000#32, BitVec.ofNat 32 n, 0x2000#32, BitVec.ofNat 32 cap⟩

/-- Memory with the source bytes at 0x1000. -/
def sourceMemory (src : List Byte) : Memory := (⟨[], []⟩ : Memory).writeList 0x1000 src

/-- A busy device with engine `e`, whose accepted value is `v`. -/
def busyWith (src : List Byte) (cap : Nat) (v : Word) (e : Engine) (turns : List Turn) : State :=
  { State.reset with
    cfg := regions src.length cap, latch := regions src.length cap
    status := Status.accepted v, engine := e, mem := sourceMemory src, turns := turns }

/-- The value `v` is accepted and nothing has run. -/
def starting (src : List Byte) (cap : Nat) (v : Word) : State := busyWith src cap v (.started v) []

/-- `STATUS`, `RESULT_LEN`, `EXPECT_LEN`, `ERR_POS` of a next state. -/
def report : Host.Outcome State Fault Refusal → Option (Word × Word × Word × Word)
  | .next t => some (t.status.word, t.resultLen, t.expectLen, t.errPos)
  | .fault _ => none
  | .refused _ => none

/-- The first `k` destination bytes of a next state. -/
def output (k : Nat) : Host.Outcome State Fault Refusal → Option (List Byte)
  | .next t => some ((List.range k).map fun j => t.mem.read (0x2000 + j))
  | .fault _ => none
  | .refused _ => none

/-! ### Elements, each inside one DECOMPRESS run: V12, V13 -/

/-- DECOMPRESS of a whole block, carried to its end. -/
def expand (src : List Byte) (cap : Nat) : Host.Outcome State Fault Refusal := step (starting src cap 2#32)

theorem test_lit_ok : report (expand [0x01#8, 0x00#8, 0x41#8] 1) = some (0x202#32, 1#32, 1#32, 0#32)
    ∧ output 1 (expand [0x01#8, 0x00#8, 0x41#8] 1) = some [0x41#8] := by decide +kernel
theorem test_lit_past_source :
    report (expand [0x02#8, 0x04#8, 0x41#8] 2) = some (0x216#32, 0#32, 2#32, 1#32) := by decide +kernel
theorem test_lit1_nonminimal : report (expand [0x01#8, 0xF0#8, 0x00#8, 0x7A#8] 1) = some (0x202#32, 1#32, 1#32, 0#32)
    ∧ output 1 (expand [0x01#8, 0xF0#8, 0x00#8, 0x7A#8] 1) = some [0x7A#8] := by decide +kernel
theorem test_lit2_cut_short :
    report (expand [0x02#8, 0xF4#8, 0x01#8] 5) = some (0x216#32, 0#32, 2#32, 1#32) := by decide +kernel
theorem test_lit3_ok :
    output 4 (expand [0x04#8, 0xF8#8, 0x03#8, 0x00#8, 0x00#8, 0x61#8, 0x62#8, 0x63#8, 0x64#8] 4)
      = some [0x61#8, 0x62#8, 0x63#8, 0x64#8] := by decide +kernel
theorem test_lit4_ok :
    output 1 (expand [0x01#8, 0xFC#8, 0x00#8, 0x00#8, 0x00#8, 0x00#8, 0x7A#8] 1) = some [0x7A#8] := by
  decide +kernel
theorem test_lit4_too_long :
    report (expand [0x02#8, 0xFC#8, 0xFF#8, 0xFF#8, 0xFF#8, 0xFF#8] 5) = some (0x216#32, 0#32, 2#32, 1#32) := by
  decide +kernel
theorem test_copy1_overlaps :
    output 5 (expand [0x05#8, 0x00#8, 0x61#8, 0x01#8, 0x01#8] 5)
      = some [0x61#8, 0x61#8, 0x61#8, 0x61#8, 0x61#8] := by decide +kernel
theorem test_copy1_offset_too_large :
    report (expand [0x05#8, 0x00#8, 0x61#8, 0x01#8, 0x02#8] 5) = some (0x216#32, 0#32, 5#32, 3#32) := by
  decide +kernel
theorem test_copy2_ok :
    report (expand [0x03#8, 0x00#8, 0x61#8, 0x02#8, 0x01#8, 0x00#8, 0x02#8, 0x01#8, 0x00#8] 3)
      = some (0x202#32, 3#32, 3#32, 0#32) := by decide +kernel
theorem test_copy4_repeats :
    output 6 (expand [0x06#8, 0x04#8, 0x78#8, 0x79#8, 0x0F#8, 0x02#8, 0x00#8, 0x00#8, 0x00#8] 6)
      = some [0x78#8, 0x79#8, 0x78#8, 0x79#8, 0x78#8, 0x79#8] := by decide +kernel
theorem test_copy4_bit31 :
    report (expand [0x06#8, 0x04#8, 0x78#8, 0x79#8, 0x0F#8, 0x02#8, 0x00#8, 0x00#8, 0x80#8] 6)
      = some (0x216#32, 0#32, 6#32, 4#32) := by decide +kernel

/-! ### Commands: V11, V18, V20 -/

theorem test_nop : report (step (starting [] 0 0#32)) = some (0x002#32, 0#32, 0#32, 0#32) := by decide +kernel
theorem test_maxlen :
    report (step { starting [] 0 3#32 with latch := ⟨0#32, 0x7FFFFFFF#32, 0#32, 0#32⟩ })
      = some (0x302#32, 0x95555574#32, 0#32, 0#32) := by decide +kernel
theorem test_maxlen_region_error :
    report (step { starting [] 0 3#32 with latch := ⟨0#32, 0x80000000#32, 0#32, 0#32⟩ })
      = some (0x356#32, 0#32, 0#32, 0#32) := by decide +kernel
theorem test_illegal : report (step (starting [] 0 0xFFFFFFFF#32)) = some (0x046#32, 0#32, 0#32, 0#32) := by
  decide +kernel
theorem test_decompress_oversized :
    report (expand [0xFF#8, 0xFF#8, 0xFF#8, 0xFF#8, 0x0F#8] 10)
      = some (0x226#32, 0#32, 0xFFFFFFFF#32, 5#32) := by decide +kernel
theorem test_decompress_overlap :
    report (step { starting [] 0 2#32 with latch := ⟨0x1000#32, 0x100#32, 0x10FF#32, 0x40#32⟩ })
      = some (0x256#32, 0#32, 0#32, 0#32) := by decide +kernel
theorem test_compress_too_small :
    report (step (starting [0x61#8] 32 1#32)) = some (0x136#32, 0#32, 0#32, 0#32) := by decide +kernel

/-- Scenario A (V1). -/
def scenarioA : List Byte :=
  List.replicate 12 0x61#8 ++ List.replicate 7 0x62#8 ++ List.replicate 6 0x61#8

theorem test_compress_scenario_a :
    output 19 (step (starting scenarioA 61 1#32))
      = some ([0x19#8, 0x00#8, 0x61#8, 0x1D#8, 0x01#8, 0x30#8] ++ List.replicate 7 0x62#8
        ++ List.replicate 6 0x61#8) := by decide +kernel

/-! ### The compressor's parts: V14, V15, V16 -/

theorem test_hash :
    hash 24 0x61616161#32 = 242 ∧ hash 23 0x64636261#32 = 349 ∧ hash 18 0xFFFFFFFF#32 = 14450 := by decide
theorem test_tableSize :
    [1, 256, 257, 1024, 8192, 8193, 65536].map tableSize = [256, 256, 512, 1024, 8192, 16384, 16384] := by decide
theorem test_emitCopy :
    emitCopy 1 67 = [0xEE#8, 0x01#8, 0x00#8, 0x0D#8, 0x01#8]
      ∧ emitCopy 4 76 = [0xFE#8, 0x04#8, 0x00#8, 0x2E#8, 0x04#8, 0x00#8] := by decide +kernel

/-! ### The host's interface and the placed instruction -/

theorem test_register_file :
    report (Host.Core.run Sys2Proof.core 2
      { State.reset with turns := [.host (.writeReg 0x10#32 4 25#32), .host (.writeReg 0x04#32 4 3#32)] })
      = some (0x301#32, 0#32, 0#32, 0#32) := by decide +kernel

/-- Only an action that accesses memory can fail (R93): COMPRESS of 15 bytes writes its header and one literal and
makes no probe, so the platform that lets two phases succeed never fails it, and one that lets one succeed does. -/
theorem test_bus_fault_phases :
    let s (plan : List Nat) : State :=
      { starting (List.replicate 15 0x78#8) 49 1#32 with params := ⟨0#32, .platform, .exact⟩, busPlan := plan }
    report (step (s [2])) = some (0x102#32, 17#32, 0#32, 0#32)
      ∧ report (step (s [1])) = some (0x166#32, 0#32, 0#32, 0#32) := by decide +kernel

/-- The destination of a finished command may be read only after `STATUS.DONE = 1` is read (R290, row finish). -/
theorem test_finish_duty :
    let s (turns : List Turn) : State := { starting [0x01#8, 0x00#8, 0x41#8] 1 2#32 with turns := .device :: turns }
    let poll : Turn := .host (.readReg 0x08#32 4)
    let look : Turn := .host (.readMem 0x2000#32)
    report (Host.Core.run Sys2Proof.core 4 (s [.device, .device, look])) = none
      ∧ (match Host.Core.run Sys2Proof.core 5 (s [.device, .device, poll, look]) with
          | .next t => t.hostData == 0x41#32
          | .fault _ => false
          | .refused _ => false) = true := by decide +kernel

/-- The placed instruction is the one the next step runs, an element or a command. -/
theorem test_withFetchWord :
    report (step (State.reset.withFetchWord 32 3)) = some (0x302#32, 32#32, 0#32, 0#32)
      ∧ report (step (State.reset.withFetchWord 16 0x0000)) = some (0x201#32, 0#32, 0#32, 0#32)
      ∧ report (step (State.reset.withFetchWord 16 0x0001)) = some (0x216#32, 0#32, 0#32, 1#32) := by decide +kernel

/-! ### Witnesses: states and operands that meet the hypotheses of the obligations -/

theorem busyWith_inv {src : List Byte} {cap : Nat} {v : Word} {e : Engine} {turns : List Turn}
    (he : e ≠ .idle) (hl : src.length ≤ 0x1000) (hc : cap ≤ 0x1000)
    (hd : ∀ d, e = .decompress d → d.inPos ≤ src.length ∧ d.outPos ≤ cap ∧ d.expect.toNat ≤ cap)
    (hz : ∀ c, e = .compress c → Config.maxLen src.length ≤ cap ∧ c.phase = .header) :
    Inv (busyWith src cap v e turns) := by
  have hn : (BitVec.ofNat 32 src.length).toNat = src.length := by simp; omega
  have hm : (BitVec.ofNat 32 cap).toNat = cap := by simp; omega
  have hlegal : (regions src.length cap).legal := by
    simp only [Regions.legal, Regions.lengthsLegal, Regions.inSpace, Regions.apart, Regions.srcEnd, Regions.dstEnd,
      regions, hn, hm, Config.lenMax, Config.addrSpace, show (0x1000#32).toNat = 4096 by rfl,
      show (0x2000#32).toNat = 8192 by rfl]
    omega
  constructor
  · exact Memory.writeList_wf Memory.wf_empty _ _
  · exact State.reset_wf.2
  · exact iff_of_true rfl he
  · simp [busyWith, Status.accepted]
  · simp [busyWith, Status.accepted]
  · intro _; rfl
  · simp [busyWith, Status.accepted]
  · intro _; rfl
  · intro d h
    have := hd d h
    refine ⟨hlegal, ?_⟩
    simpa only [busyWith, regions, hn, hm] using this
  · intro c h
    have := hz c h
    refine ⟨hlegal, ?_, by simp [this.2]⟩
    simpa only [busyWith, regions, hn, hm] using this.1

theorem expanding_inv {src : List Byte} {cap : Nat} {d : Decompressor} (turns : List Turn) (hl : src.length ≤ 0x1000)
    (hc : cap ≤ 0x1000) (hd : d.inPos ≤ src.length ∧ d.outPos ≤ cap ∧ d.expect.toNat ≤ cap) :
    Inv (busyWith src cap 2#32 (.decompress d) turns) :=
  busyWith_inv (by simp) hl hc (fun d' h => by cases h; exact hd) (fun c h => by cases h)

theorem starting_inv {src : List Byte} {cap : Nat} {v : Word} (hl : src.length ≤ 0x1000) (hc : cap ≤ 0x1000) :
    Inv (starting src cap v) :=
  busyWith_inv (by simp) hl hc (fun d h => by cases h) (fun c h => by cases h)

/-- The operand bounds of every form. -/
theorem witness_DecodeEncodeRoundTrip :
    [Instr.lit 1, .lit 60, .lit1 1, .lit1 256, .lit2 1, .lit2 65536, .lit3 1, .lit3 16777216, .lit4 1,
      .lit4 4294967296, .copy1 0 4, .copy1 2047 11, .copy2 0 1, .copy2 65535 64, .copy4 0 1,
      .copy4 4294967295 64, .nop, .compress, .decompress, .maxlen].all Instr.wf = true := by decide

theorem witness_DecodedElementEncodesBack :
    decodeElement [0xFD#8, 0xFF#8, 0x00#8] = .ok (.copy1 2047 11, [0x00#8]) := by decide

theorem witness_OperandsAreAssembledByTable :
    ((0xEC#8).extractLsb 1 0 = 0#2 ∧ ((0xEC#8).extractLsb 7 2).toNat ≤ 59 ∧ ([] : List Byte).length = 0)
      ∧ ((0x00#8).extractLsb 1 0 = 0#2 ∧ ((0x00#8).extractLsb 7 2).toNat ≤ 59)
      ∧ ([0xFF#8].length = 1 ∧ [0xFF#8, 0xFF#8].length = 2 ∧ [0xFF#8, 0xFF#8, 0xFF#8].length = 3
        ∧ [0xFF#8, 0xFF#8, 0xFF#8, 0xFF#8].length = 4)
      ∧ ((0xFD#8).extractLsb 1 0 = 1#2 ∧ (0x01#8).extractLsb 1 0 = 1#2)
      ∧ ((0xFE#8).extractLsb 1 0 = 2#2 ∧ (0x02#8).extractLsb 1 0 = 2#2)
      ∧ ((0xFF#8).extractLsb 1 0 = 3#2 ∧ (0x03#8).extractLsb 1 0 = 3#2) := by decide

theorem witness_EveryTagDecodes :
    (trailerBytes 0xFC#8 ≤ [0#8, 0#8, 0#8, 0#8].length ∧ trailerBytes 0xEC#8 ≤ ([] : List Byte).length)
      ∧ ([0#8, 0#8, 0#8].length < trailerBytes 0xFC#8 ∧ ([] : List Byte).length < trailerBytes 0x01#8) := by decide

theorem witness_VarintCarriesSevenBitGroups :
    (2 ^ 32 - 1 < 2 ^ 32 ∧ 4 < (encodeVarint (2 ^ 32 - 1)).length) ∧ 0 < (encodeVarint 0).length := by decide

theorem witness_HeaderDecodeIsExact :
    decodeHeader (fun k => if k = 4 then 0x0F#8 else 0xFF#8) 5 = .ok (2 ^ 32 - 1, 5)
      ∧ decodeHeader (fun _ => 0x00#8) 1 = .ok (0, 1)
      ∧ decodeHeader (fun _ => 0x80#8) 4 = .error 4 ∧ decodeHeader (fun _ => 0x80#8) 0 = .error 0
      ∧ decodeHeader (fun k => if k = 4 then 0x10#8 else 0xFF#8) 5 = .error 4 := by decide

theorem witness_StepRunsAcceptedCommand :
    DeviceTurn (starting [] 32 3#32) (starting [] 32 3#32) ∧ (starting [] 32 3#32).engine = .started 3#32
      ∧ decodeCommand 3#32 = .ok .maxlen ∧ decodeCommand 0#32 = .ok .nop :=
  ⟨.inl ⟨rfl, rfl⟩, rfl, rfl, rfl⟩

/-- The second copy of `05 00 61 01 01` (V13 row 2) is next. -/
def atCopy (turns : List Turn) : State :=
  busyWith [0x05#8, 0x00#8, 0x61#8, 0x01#8, 0x01#8] 5 2#32 (.decompress ⟨3, 1, 5#32⟩) turns

theorem atCopy_inv (turns : List Turn) : Inv (atCopy turns) :=
  expanding_inv turns (by decide) (by decide) (by decide)

theorem witness_StepRunsElement :
    (atCopy [.device, .device]).turns = .device :: .device :: [] ∧ (atCopy [.device, .device]).latch.inSpace
      ∧ (atCopy [.device, .device]).busFails = false
      ∧ decodeElement ((atCopy [.device, .device]).source.drop 3) = .ok (.copy1 1 4, []) :=
  ⟨rfl, by decide, rfl, by decide +kernel⟩

theorem witness_StepRunsElementAndGoesOn :
    Inv (atCopy []) ∧ (atCopy []).turns = [] ∧ (atCopy []).busFails = false
      ∧ decodeElement ((atCopy []).source.drop 3) = .ok (.copy1 1 4, []) :=
  ⟨atCopy_inv [], rfl, rfl, by decide +kernel⟩

theorem witness_TruncatedTrailerIsParsingError :
    let s := busyWith [0x02#8, 0xF4#8, 0x01#8] 5 2#32 (.decompress ⟨1, 0, 2#32⟩) []
    Inv s ∧ DeviceTurn s s ∧ s.busFails = false ∧ 1 < s.latch.srcLen.toNat
      ∧ decodeElement (s.source.drop 1) = .error .truncatedTrailer :=
  ⟨expanding_inv [] (by decide) (by decide) (by decide), .inl ⟨rfl, rfl⟩, rfl, by decide, by decide +kernel⟩

theorem witness_IdleDeviceStaysIdle : DeviceTurn State.reset State.reset ∧ State.reset.engine = .idle :=
  ⟨.inl ⟨rfl, rfl⟩, rfl⟩

/-- A payload that just fits, one past the source's end, and one past the capacity. -/
theorem witness_LiteralCopiesItsPayload :
    let s := busyWith [0x02#8, 0x04#8, 0x41#8, 0x42#8] 2 2#32 (.decompress ⟨1, 0, 2#32⟩) []
    Inv s ∧ s.busFails = false ∧ 1 + 1 + (Instr.lit 2).trailer + 2 ≤ s.latch.srcLen.toNat
      ∧ 0 + 2 ≤ s.latch.dstCap.toNat ∧ s.latch.srcLen.toNat < 1 + 1 + (Instr.lit 3).trailer + 3
      ∧ s.latch.dstCap.toNat < 0 + 3 :=
  ⟨expanding_inv [] (by decide) (by decide) (by decide), rfl, by decide, by decide, by decide, by decide⟩

/-- A copy that just fits; and each of the four conditions of the error. -/
theorem witness_CopyRepeatsTheOutput :
    let s := atCopy []
    Inv s ∧ s.busFails = false ∧ 3 + 1 + (Instr.copy1 1 4).trailer ≤ s.latch.srcLen.toNat ∧ 1 ≤ 1
      ∧ 1 + 4 ≤ s.latch.dstCap.toNat ∧ s.latch.srcLen.toNat < 3 + 1 + (Instr.copy2 1 4).trailer
      ∧ 1 < 2 ∧ s.latch.dstCap.toNat < 1 + 5 :=
  ⟨atCopy_inv [], rfl, by decide, by decide, by decide, by decide, by decide, by decide⟩

theorem witness_ElementNeedsRunningDecompress :
    (Instr.lit 1).space = .element ∧ (∀ d, State.reset.engine ≠ .decompress d)
      ∧ ¬ ({ atCopy [] with latch := ⟨0xFFFFFFFF#32, 2#32, 0#32, 0#32⟩ } : State).latch.inSpace :=
  ⟨rfl, (fun d h => by cases h), by decide⟩

theorem witness_NopClearsTheResults : (starting [] 0 0#32).status = Status.accepted 0#32 := rfl

theorem witness_MaxlenGivesTheBound :
    (0x7FFFFFFF#32).toNat ≤ 2147483647 ∧ 2147483647 < (0x80000000#32).toNat := by decide

theorem witness_IllegalCommandIsReported :
    let s := starting [] 0 4#32
    DeviceTurn s s ∧ s.engine = .started 4#32 ∧ (4#32).extractLsb 31 2 ≠ 0#30 ∧ s.status = Status.accepted 4#32 :=
  ⟨.inl ⟨rfl, rfl⟩, rfl, by decide, rfl⟩

/-- Each of the five ways a check of R294 fails, at its first value. -/
theorem witness_BadRegionsAreRejected :
    2147483647 < (0x80000000#32).toNat ∧ 2 ^ 32 < (0xFFFFFFFF#32).toNat + (2#32).toNat
      ∧ (0 < (0x100#32).toNat ∧ 0 < (0x40#32).toNat ∧ (0x10FF#32).toNat < (0x1000#32).toNat + (0x100#32).toNat
        ∧ (0x1000#32).toNat < (0x10FF#32).toNat + (0x40#32).toNat) := by decide

theorem witness_CompressChecksCapacity :
    (starting [0x61#8] 32 1#32).latch.legal
      ∧ (starting [0x61#8] 32 1#32).latch.dstCap.toNat
        < 32 + (starting [0x61#8] 32 1#32).latch.srcLen.toNat + (starting [0x61#8] 32 1#32).latch.srcLen.toNat / 6 := by
  decide

theorem witness_CompressWritesTheExactBlock :
    let s := starting [0x61#8] 33 1#32
    s.engine = .started 1#32 ∧ s.latch.legal ∧ Config.maxLen s.latch.srcLen.toNat ≤ s.latch.dstCap.toNat
      ∧ s.params.busFaults = .none ∧ s.params.mode = .exact ∧ s.turns = [] :=
  ⟨rfl, by decide, by decide, rfl, rfl, rfl⟩

theorem witness_CompressRelationalIsAdmissible :
    let s := { starting [0x61#8] 33 1#32 with params := ⟨0#32, .none, .relational⟩ }
    s.engine = .started 1#32 ∧ s.latch.legal ∧ Config.maxLen s.latch.srcLen.toNat ≤ s.latch.dstCap.toNat
      ∧ s.params.busFaults = .none ∧ s.params.mode = .relational ∧ s.turns = [] :=
  ⟨rfl, by decide, by decide, rfl, rfl, rfl⟩

theorem witness_ExactBlocksRoundTripWithinBound : scenarioA.length ≤ Config.lenMax := by decide

/-- Two states that differ in their addresses, capacity and hash table. -/
theorem witness_CompressDependsOnSourceAlone :
    let s₁ := starting [0x61#8] 33 1#32
    let s₂ := { starting [0x61#8] 40 1#32 with table := ⟨1, [(0, 7#16)], 3⟩ }
    s₁.latch.legal ∧ s₂.latch.legal ∧ s₁.source = s₂.source
      ∧ Config.maxLen s₁.latch.srcLen.toNat ≤ s₁.latch.dstCap.toNat
      ∧ Config.maxLen s₂.latch.srcLen.toNat ≤ s₂.latch.dstCap.toNat :=
  ⟨by decide, by decide, by decide +kernel, by decide, by decide⟩

theorem witness_BadHeaderIsParsingError :
    let s := starting [0x80#8] 10 2#32
    s.latch.legal ∧ s.busFails = false ∧ decodeHeader s.srcByte s.latch.srcLen.toNat = .error 1 :=
  ⟨by decide, rfl, by decide +kernel⟩

theorem witness_OversizedHeaderIsInvalidChunkSize :
    let s := starting [0x05#8] 4 2#32
    s.latch.legal ∧ s.busFails = false ∧ decodeHeader s.srcByte s.latch.srcLen.toNat = .ok (5, 1)
      ∧ s.latch.dstCap.toNat < 5 :=
  ⟨by decide, rfl, by decide +kernel, by decide⟩

theorem witness_LongCommandsBegin :
    let s := { starting [0x05#8] 33 2#32 with turns := [.device] }
    s.latch.legal ∧ s.turns ≠ [] ∧ Config.maxLen s.latch.srcLen.toNat ≤ s.latch.dstCap.toNat ∧ s.busFails = false
      ∧ decodeHeader s.srcByte s.latch.srcLen.toNat = .ok (5, 1) ∧ 5 ≤ s.latch.dstCap.toNat :=
  ⟨by decide, by decide, by decide, rfl, by decide +kernel, by decide⟩

/-- The input is used up, with `out_pos` equal to `L` and with `out_pos` below it. -/
theorem witness_ElementLoopEndChecksLength :
    let s := busyWith [0x01#8] 1 2#32 (.decompress ⟨1, 1, 1#32⟩) []
    let t := busyWith [0x01#8] 1 2#32 (.decompress ⟨1, 0, 1#32⟩) []
    (Inv s ∧ DeviceTurn s s ∧ 1 = s.latch.srcLen.toNat ∧ 1 = (1#32).toNat)
      ∧ (Inv t ∧ DeviceTurn t t ∧ 1 = t.latch.srcLen.toNat ∧ 0 ≠ (1#32).toNat) :=
  ⟨⟨expanding_inv [] (by decide) (by decide) (by decide), .inl ⟨rfl, rfl⟩, rfl, rfl⟩,
    ⟨expanding_inv [] (by decide) (by decide) (by decide), .inl ⟨rfl, rfl⟩, rfl, by decide⟩⟩

theorem witness_DecompressExpandsTheBlock :
    let s := starting [0x01#8, 0x00#8, 0x41#8] 1 2#32
    let t := starting [0x02#8, 0x04#8, 0x41#8] 2 2#32
    (s.latch.legal ∧ s.params.busFaults = .none ∧ s.turns = []
        ∧ expandBlock s.latch.dstCap.toNat s.source = some [0x41#8])
      ∧ (t.latch.legal ∧ t.params.busFaults = .none ∧ t.turns = []
        ∧ expandBlock t.latch.dstCap.toNat t.source = none) :=
  ⟨⟨by decide, rfl, rfl, by decide +kernel⟩, ⟨by decide, rfl, rfl, by decide +kernel⟩⟩

theorem witness_DecompressDependsOnSourceAndCapacity :
    let s₁ := starting [0x01#8, 0x00#8, 0x41#8] 1 2#32
    let s₂ := { starting [0x01#8, 0x00#8, 0x41#8] 1 2#32 with resultLen := 9#32, table := ⟨1, [(0, 7#16)], 3⟩ }
    s₁.latch.legal ∧ s₂.latch.legal ∧ s₁.source = s₂.source ∧ s₁.latch.dstCap = s₂.latch.dstCap :=
  ⟨by decide, by decide, by decide +kernel, rfl⟩

/-- The platform fails the next memory phase of an element, of its byte moves (a copy, and a literal that just fits),
of a header read, and of the compressor's header; a compressor action that accesses no memory has a turn after it. -/
theorem witness_BusFaultEndsTheCommand :
    let fails (s : State) : State := { s with params := ⟨0#32, .platform, .exact⟩, busPlan := [0] }
    let s := fails (atCopy [])
    let l := fails (busyWith [0x02#8, 0x04#8, 0x41#8, 0x42#8] 2 2#32 (.decompress ⟨1, 0, 2#32⟩) [])
    let c := fails (busyWith [0x61#8] 33 1#32 (.compress Compressor.initial) [])
    let w := fails (busyWith [0x61#8] 33 1#32 (.compress { Compressor.initial with phase := .window, op := 1 })
      [.device, .device])
    (s.busFails = true ∧ DeviceTurn s s ∧ s.latch.inSpace ∧ 3 < s.latch.srcLen.toNat)
      ∧ (Inv s ∧ 3 + 1 + (Instr.copy1 1 4).trailer ≤ s.latch.srcLen.toNat ∧ 1 ≤ 1 ∧ 1 + 4 ≤ s.latch.dstCap.toNat)
      ∧ (l.busFails = true ∧ Inv l ∧ 1 + 1 + (Instr.lit 2).trailer + 2 ≤ l.latch.srcLen.toNat
        ∧ 0 + 2 ≤ l.latch.dstCap.toNat)
      ∧ (w.turns = .device :: .device :: [] ∧ w.latch.inSpace ∧ 0 < w.latch.srcLen.toNat)
      ∧ ((fails (starting [0x05#8] 4 2#32)).busFails = true ∧ (fails (starting [0x05#8] 4 2#32)).latch.legal
        ∧ 0 < (fails (starting [0x05#8] 4 2#32)).latch.srcLen.toNat)
      ∧ (c.busFails = true ∧ DeviceTurn c c ∧ c.latch.inSpace ∧ Compressor.initial.phase = .header)
      ∧ State.reset.params.busFaults = .none :=
  ⟨⟨rfl, .inl ⟨rfl, rfl⟩, by decide, by decide⟩,
    ⟨{ atCopy_inv [] with }, by decide, by decide, by decide⟩,
    ⟨rfl, { expanding_inv (d := ⟨1, 0, 2#32⟩) [] (by decide) (by decide) (by decide) with }, by decide, by decide⟩,
    ⟨rfl, by decide, by decide⟩, ⟨rfl, by decide, by decide⟩, ⟨rfl, .inl ⟨rfl, rfl⟩, by decide, rfl⟩, rfl⟩

theorem witness_LiteralEmissionIsShortest : 1 ≤ 1 ∧ 1 ≤ 2 ^ 32 ∧ 1 ≤ 2 ^ 32 ∧ 2 ^ 32 ≤ 2 ^ 32 := by decide

theorem witness_ShortCopyEncoding : (1 ≤ 65535 ∧ 65535 ≤ 65535 ∧ 4 ≤ 64 ∧ 64 ≤ 64) ∧ (11 < 12 ∧ 2047 < 2048) := by
  decide

theorem witness_LongCopiesAreSplit : (1 ≤ 65535 ∧ 4 ≤ 68 ∧ 68 ≤ 68) ∧ (64 < 65 ∧ 67 < 68) ∧ 64 ≤ 64 := by decide

theorem witness_TableSizeIsSmallestPower :
    (1 ≤ 65536 ∧ 65536 ≤ 65536) ∧ (256 ≤ 2 ^ 8 ∧ 256 ≤ 2 ^ 8 ∧ 8193 ≤ 2 ^ 14) := by decide

theorem witness_HashIsBelowTableSize : 1 ≤ 65536 ∧ 65536 ≤ 65536 := by decide

theorem witness_MatchLengthIsLargest :
    (0 < 1 ∧ 1 ≤ 1) ∧ (1 + 0 ≤ 1 ∧ ∀ i, i < 0 → (fun _ : Nat => 0#8) (0 + i) = (fun _ : Nat => 0#8) (1 + i)) := by
  decide

/-- The probe at 1 of a window of 17 bytes (R178). -/
def probeAtOne : Compressor where
  phase := .probe
  op := 1
  wb := 0
  we := 17
  ip := 1
  nextEmit := 0
  ipLimit := 2
  cand := 0
  ts := 256
  shift := 24
  skip := 32

/-- The probe hits, and misses; a copy stops at the limit, and one goes on below it, to a hit. -/
theorem witness_ProbeAndCopyRecordBeforeCompare :
    let t : HashTable := ⟨256, [], 0⟩
    probeAtOne.phase = .probe ∧ ((probeAtOne.ip + probeAtOne.skip / 32 : Nat) : Int) ≤ probeAtOne.ipLimit
      ∧ load32 (fun _ => 0#8) (probeAtOne.wb + (t.get 0).toNat) = load32 (fun _ => 0#8) probeAtOne.ip
      ∧ probeAtOne.nextEmit < probeAtOne.ip
      ∧ load32 (fun i => BitVec.ofNat 8 i) 0 ≠ load32 (fun i => BitVec.ofNat 8 i) probeAtOne.ip
      ∧ ((probeAtOne.ipLimit ≤ ((1 + 4 : Nat) : Int)) ∧ ((1 + 4 : Nat) : Int) < 6) := by decide

theorem probeAtOne_inv : probeAtOne.inv 17 ⟨256, [], 0⟩ := by
  refine ⟨⟨by decide, by decide, by decide, by decide, by decide, by decide, by decide, by decide⟩,
    by decide, by decide, by decide, fun h hh => ?_⟩
  rw [HashTable.get, Store.lookup_nil]
  simp only [show h < 256 from hh, if_true]
  decide

/-- A header, a window set-up, a copy, a probe, a scan test and a remainder that meet the invariant. -/
theorem witness_ScanPositionAdvances :
    Compressor.initial.inv 17 ⟨0, [], 0⟩
      ∧ ({ Compressor.initial with phase := .window, op := 1 } : Compressor).inv 17 ⟨0, [], 0⟩
      ∧ ({ probeAtOne with phase := .tail } : Compressor).inv 17 ⟨256, [], 0⟩
      ∧ probeAtOne.inv 17 ⟨256, [], 0⟩
      ∧ ({ probeAtOne with phase := .copy } : Compressor).inv 17 ⟨256, [], 0⟩
      ∧ ({ probeAtOne with phase := .scan } : Compressor).inv 17 ⟨256, [], 0⟩ := by
  obtain ⟨w, -, -, -, h⟩ := probeAtOne_inv
  exact ⟨⟨rfl, rfl, rfl⟩, ⟨by decide, .inr rfl, by decide⟩,
    ⟨⟨w.1, w.2, w.3, w.4, w.5, w.6, w.7, w.8⟩, by decide, by decide⟩, probeAtOne_inv, ⟨⟨w.1, w.2, w.3, w.4, w.5, w.6, w.7, w.8⟩, by decide, by decide, by decide,
    fun k hk => (h k hk).le⟩, ⟨⟨w.1, w.2, w.3, w.4, w.5, w.6, w.7, w.8⟩, by decide, fun k hk => (h k hk).le⟩⟩

theorem witness_ShortSourceIsOneLiteral : (1 ≤ 1 ∧ 1 ≤ 16) ∧ (1 ≤ 16 ∧ 16 ≤ 16) := by decide

/-- The host is to move by `a`, and the device is idle or busy. -/
def hostToMove (s : State) (a : HostAction) : State := { s with turns := [.host a] }

theorem hostToMove_turn (s : State) (a : HostAction) :
    HostTurn (hostToMove s a) a { hostToMove s a with turns := [] } := ⟨[], rfl, rfl⟩

theorem witness_CommandWriteIsAccepted :
    HostTurn (hostToMove State.reset (.writeReg 4#32 4 3#32)) (.writeReg 4#32 4 3#32)
        { hostToMove State.reset (.writeReg 4#32 4 3#32) with turns := [] }
      ∧ State.reset.registerAt 4#32 0x04 ∧ State.reset.status.busy = false :=
  ⟨hostToMove_turn _ _, ⟨rfl, rfl⟩, rfl⟩

theorem witness_WritesWhileBusyAreIgnored :
    HostTurn (hostToMove (atCopy []) (.writeReg 0x18#32 4 3#32)) (.writeReg 0x18#32 4 3#32)
        { hostToMove (atCopy []) (.writeReg 0x18#32 4 3#32) with turns := [] }
      ∧ (atCopy []).registerAt 0x18#32 0x18 ∧ (atCopy []).registerAt 4#32 0x04
      ∧ (atCopy []).status.busy = true ∧ State.reset.status.busy = false ∧ State.reset.registerAt 4#32 0x04 :=
  ⟨hostToMove_turn _ _, ⟨rfl, rfl⟩, ⟨rfl, rfl⟩, rfl, rfl, ⟨rfl, rfl⟩⟩

theorem witness_ConfigurationReadsBack :
    State.reset.registerAt 0x0C#32 0x0C ∧ State.reset.registerAt 0x10#32 0x10 ∧ State.reset.registerAt 0x14#32 0x14
      ∧ State.reset.registerAt 0x18#32 0x18 ∧ State.reset.status.busy = false :=
  ⟨⟨rfl, rfl⟩, ⟨rfl, rfl⟩, ⟨rfl, rfl⟩, ⟨rfl, rfl⟩, rfl⟩

theorem witness_RegisterReadsReturnTheRegister :
    HostTurn (hostToMove State.reset (.readReg 0xFC#32 4)) (.readReg 0xFC#32 4)
        { hostToMove State.reset (.readReg 0xFC#32 4) with turns := [] }
      ∧ State.reset.registerAt 0xFC#32 0xFC ∧ State.reset.registerAt 0#32 0 :=
  ⟨hostToMove_turn _ _, ⟨rfl, rfl⟩, ⟨rfl, rfl⟩⟩

theorem witness_ReadOnlyRegistersIgnoreWrites :
    HostTurn (hostToMove State.reset (.writeReg 0x28#32 4 1#32)) (.writeReg 0x28#32 4 1#32)
        { hostToMove State.reset (.writeReg 0x28#32 4 1#32) with turns := [] }
      ∧ State.reset.registerAt 0x28#32 0x28 ∧ State.reset.registerAt 0#32 0x00 :=
  ⟨hostToMove_turn _ _, ⟨rfl, rfl⟩, ⟨rfl, rfl⟩⟩

/-- The last byte of the block, the first word with a narrow width, and the first address past the block. -/
theorem witness_OtherBusAccessesAreRefused :
    HostTurn (hostToMove State.reset (.readReg 0xFF#32 4)) (.readReg 0xFF#32 4)
        { hostToMove State.reset (.readReg 0xFF#32 4) with turns := [] }
      ∧ ((0xFF#32).toNat < 0 + 256 ∧ (0xFF#32).toNat % 4 ≠ 0) ∧ (0 ≤ (0#32).toNat ∧ 2 ≠ 4)
      ∧ 0 + 256 ≤ (0x100#32).toNat :=
  ⟨hostToMove_turn _ _, by decide, by decide, by decide⟩

/-- A write to an idle machine, to the byte before the source of a busy one, and into its regions; a read. -/
theorem witness_HostMemoryAccess :
    let t : State := { State.reset with unseen := [regions 1 5] }
    ((∃ r ∈ t.unseen, r.inDst (0x2004#32).toNat) ∧ ∀ r ∈ t.unseen, ¬ r.inDst (0x2005#32).toNat) ∧
    HostTurn (hostToMove (atCopy []) (.writeMem 0xFFF#32 1#8)) (.writeMem 0xFFF#32 1#8)
        { hostToMove (atCopy []) (.writeMem 0xFFF#32 1#8) with turns := [] }
      ∧ (¬ (atCopy []).latch.inSrc (0xFFF#32).toNat ∧ ¬ (atCopy []).latch.inDst (0xFFF#32).toNat)
      ∧ (atCopy []).latch.inSrc (0x1000#32).toNat ∧ (atCopy []).latch.inDst (0x2004#32).toNat
      ∧ ¬ (atCopy []).latch.inDst (0x2005#32).toNat ∧ State.reset.status.busy = false :=
  ⟨by decide, hostToMove_turn _ _, by decide, by decide, by decide, by decide, rfl⟩

theorem witness_ResetEventGivesResetValues :
    HostTurn (hostToMove (atCopy []) .reset) .reset { hostToMove (atCopy []) .reset with turns := [] }
      ∧ State.reset.status.busy = false :=
  ⟨hostToMove_turn _ _, rfl⟩

theorem witness_ResetKeepsMemoryOutsideDestination :
    HostTurn (hostToMove (atCopy []) .reset) .reset { hostToMove (atCopy []) .reset with turns := [] }
      ∧ (atCopy []).latch.legal ∧ 0 < (atCopy []).latch.srcLen.toNat :=
  ⟨hostToMove_turn _ _, by decide, by decide⟩

theorem witness_StepKeepsInvariant : Inv State.reset ∧ step State.reset = .next State.reset := by
  refine ⟨?_, rfl⟩
  constructor <;> first | decide | (intro _ h; cases h)

/-- A running COMPRESS before its header. -/
theorem witness_StepKeepsCompressorInvariant :
    let s := busyWith [0x61#8] 33 1#32 (.compress Compressor.initial) [.device, .device]
    Inv s ∧ CompressorInv s ∧ (report (step s)).isSome = true :=
  ⟨busyWith_inv (by simp) (by decide) (by decide) (fun d h => by cases h) (fun c h => by cases h; decide),
    fun c h => by cases h; exact ⟨rfl, rfl, rfl⟩, by decide +kernel⟩

theorem witness_DeviceNeverStops : Inv (atCopy []) ∧ DeviceTurn (atCopy []) (atCopy []) :=
  ⟨atCopy_inv [], .inl ⟨rfl, rfl⟩⟩

theorem witness_AcceptedCommandFinishes :
    (starting [] 0 2#32).engine = .started 2#32 ∧ (starting [] 0 2#32).turns = [] := ⟨rfl, rfl⟩

theorem witness_GranularityDoesNotMatter :
    (starting [0x61#8] 33 1#32).engine = .started 1#32 ∧ (starting [0x61#8] 33 1#32).turns = [] ∧ 1 ≤ 3 :=
  ⟨rfl, rfl, by decide⟩

theorem witness_OnlyCommandWriteStartsDevice :
    let s := hostToMove State.reset (.writeReg 4#32 4 3#32)
    s.engine = .idle ∧ ∃ t, step s = .next t ∧ t.engine ≠ .idle :=
  ⟨rfl, _, rfl, by simp [State.writeReg, State.unlessBusy, hostToMove, State.reset, Status.zero, State.accept]⟩

theorem witness_HostCannotDisturbRunningCommand :
    Inv (atCopy [.host (.writeReg 4#32 4 3#32)])
      ∧ (atCopy [.host (.writeReg 4#32 4 3#32)]).status.busy = true
      ∧ HostTurn (atCopy [.host (.writeReg 4#32 4 3#32)]) (.writeReg 4#32 4 3#32) (atCopy [])
      ∧ (report (step (atCopy [.host (.writeReg 4#32 4 3#32)]))).isSome = true :=
  ⟨atCopy_inv _, rfl, ⟨[], rfl, rfl⟩, by decide +kernel⟩

theorem witness_ParametersFixedAndInputsConsumed :
    step State.reset = .next State.reset ∧ State.reset.params.busFaults = .none
      ∧ HostTurn (hostToMove State.reset .reset) .reset { hostToMove State.reset .reset with turns := [] } :=
  ⟨rfl, rfl, hostToMove_turn _ _⟩

end Sys2Proof.Tests
end

section
/-! The parameters and the inputs still to come (00_scope.md R7; logs 4, 5 and 6): what every operation of the model
does to the three fields `params`, `turns` and `busPlan`, and from it obligation O60. The plan is written by
`State.busNext` alone, so every operation either keeps all three fields (`InputsKept`) or is a chain of such steps and
of the platform's decisions (`InputsConsumed`). -/

namespace Sys2Proof.Machine

/-! ### Two relations between states -/

/-- The parameters, the schedule and the platform's plan are those of `s`. -/
structure InputsKept (s t : State) : Prop where
  params : t.params = s.params
  turns : t.turns = s.turns
  busPlan : t.busPlan = s.busPlan

/-- What decisions of the platform make of its plan `p`: entries go from the front, and the first one left may be
counted down (log 6). -/
def PlanConsumed (p q : List Nat) : Prop :=
  ∃ j, q = p.drop j ∨ ∃ a b rest, p.drop j = a :: rest ∧ b ≤ a ∧ q = b :: rest

/-- What a move of the device does to the parameters and the inputs: it leaves all of them but the plan, which it
consumes from the front, and under `BUS_FAULTS = none` not at all (20_memory.md R93). -/
structure InputsConsumed (s t : State) : Prop where
  params : t.params = s.params
  turns : t.turns = s.turns
  busPlan : PlanConsumed s.busPlan t.busPlan
  noFaults : s.params.busFaults = .none → t.busPlan = s.busPlan

theorem PlanConsumed.refl (p : List Nat) : PlanConsumed p p := ⟨0, .inl rfl⟩

theorem PlanConsumed.trans {p q r : List Nat} (hpq : PlanConsumed p q) (hqr : PlanConsumed q r) :
    PlanConsumed p r := by
  obtain ⟨j, rfl | ⟨a, b, rest, hp, hba, rfl⟩⟩ := hpq
  · obtain ⟨i, hi⟩ := hqr
    rw [List.drop_drop] at hi
    exact ⟨j + i, hi⟩
  · obtain ⟨i, hi⟩ := hqr
    cases i with
    | zero =>
      obtain rfl | ⟨a', b', rest', hq, hba', rfl⟩ := hi
      · exact ⟨j, .inr ⟨a, b, rest, hp, hba, rfl⟩⟩
      · cases hq
        exact ⟨j, .inr ⟨a, b', rest, hp, hba'.trans hba, rfl⟩⟩
    | succ i =>
      have hdrop : p.drop (j + (i + 1)) = (b :: rest).drop (i + 1) := by
        rw [← List.drop_drop, hp]; rfl
      exact ⟨j + (i + 1), hdrop ▸ hi⟩

theorem InputsKept.consumed {s t : State} (h : InputsKept s t) : InputsConsumed s t where
  params := h.params
  turns := h.turns
  busPlan := h.busPlan ▸ .refl _
  noFaults _ := h.busPlan

theorem InputsConsumed.trans {s t u : State} (hst : InputsConsumed s t) (htu : InputsConsumed t u) :
    InputsConsumed s u where
  params := htu.params.trans hst.params
  turns := htu.turns.trans hst.turns
  busPlan := hst.busPlan.trans htu.busPlan
  noFaults hn := (htu.noFaults (hst.params ▸ hn)).trans (hst.noFaults hn)

/-! ### Operations that keep the parameters and the inputs -/

theorem InputsKept.refl (s : State) : InputsKept s s := ⟨rfl, rfl, rfl⟩

theorem State.finish_inputs (s : State) (e : Option ErrorKind) (result expect pos : Word) :
    InputsKept s (s.finish e result expect pos) := ⟨rfl, rfl, rfl⟩

theorem State.raise_inputs (s : State) (e : ErrorKind) (pos : Nat) : InputsKept s (s.raise e pos) := ⟨rfl, rfl, rfl⟩

theorem State.raiseSpoiled_inputs (s : State) (e : ErrorKind) (pos : Nat) : InputsKept s (s.raiseSpoiled e pos) :=
  ⟨rfl, rfl, rfl⟩

theorem State.elementError_inputs (s : State) (d : Decompressor) : InputsKept s (s.elementError d) := ⟨rfl, rfl, rfl⟩

theorem finishCompress_inputs (s : State) (c : Compressor) : InputsKept s (finishCompress s c) := ⟨rfl, rfl, rfl⟩

theorem finishDecompress_inputs (s : State) (d : Decompressor) : InputsKept s (finishDecompress s d) := by
  unfold finishDecompress
  split
  · exact ⟨rfl, rfl, rfl⟩
  · exact s.raiseSpoiled_inputs _ _

theorem compressorWork_inputs (s : State) (c : Compressor) : InputsKept s (compressorWork s c) := by
  unfold compressorWork
  dsimp only
  split <;> exact ⟨rfl, rfl, rfl⟩

theorem State.resetEvent_inputs (s : State) : InputsKept s s.resetEvent :=
  ⟨s.resetEvent_params, s.resetEvent_turns, s.resetEvent_busPlan⟩

theorem State.hostRead_inputs (s : State) (a : Word) : InputsKept s (s.hostRead a) := by
  unfold State.hostRead
  split <;> exact ⟨rfl, rfl, rfl⟩

theorem State.unlessBusy_inputs {s : State} {k : State → State} (hk : InputsKept s (k s)) :
    InputsKept s (s.unlessBusy k) := by
  unfold State.unlessBusy
  split
  · exact ⟨rfl, rfl, rfl⟩
  · exact hk

theorem State.writeReg_inputs (s : State) (offset : Nat) (v : Word) : InputsKept s (s.writeReg offset v) := by
  unfold State.writeReg
  split
  case h_6 => exact .refl s
  all_goals exact State.unlessBusy_inputs ⟨rfl, rfl, rfl⟩

/-- No move of the host writes the parameters, the schedule or the platform's plan (42_commands.md R290). -/
theorem hostMove_inputs {a : HostAction} {s t : State} (h : hostMove a s = .next t) : InputsKept s t := by
  cases a with
  | readReg addr width =>
    simp only [hostMove] at h
    split at h <;> cases h
    exact ⟨rfl, rfl, rfl⟩
  | writeReg addr width v =>
    simp only [hostMove] at h
    split at h <;> cases h
    exact s.writeReg_inputs _ v
  | readMem addr =>
    simp only [hostMove] at h
    split at h <;> cases h
    exact s.hostRead_inputs addr
  | writeMem addr b =>
    simp only [hostMove] at h
    split at h <;> cases h
    exact ⟨rfl, rfl, rfl⟩
  | reset =>
    cases h
    exact s.resetEvent_inputs

/-! ### The platform's decision, and what makes memory phases -/

/-- A decision takes a spent entry from the front of the plan or counts the first one down (log 6). -/
theorem State.busNext_consumes (s : State) : InputsConsumed s s.busNext where
  params := s.busNext_params
  turns := s.busNext_turns
  noFaults hn := by rw [State.busNext_eq_self hn]
  busPlan := by
    unfold State.busNext
    split
    case h_1 rest _ hp => exact ⟨1, .inl (by rw [hp]; rfl)⟩
    case h_2 k rest _ hp => exact ⟨0, .inr ⟨k + 1, k, rest, hp, k.le_succ, rfl⟩⟩
    case h_3 => exact .refl _

/-- The bus error at a failing memory phase. -/
theorem State.busError_consumes (s : State) : InputsConsumed s (s.busNext.raiseSpoiled .busError 0) :=
  s.busNext_consumes.trans (s.busNext.raiseSpoiled_inputs _ _).consumed

theorem State.onBus_consumes {s t : State} {k : State → Host.Outcome State Fault Refusal}
    (hk : ∀ u v, k u = .next v → InputsConsumed u v) (h : s.onBus k = .next t) : InputsConsumed s t := by
  rcases s.onBus_cases k with hb | hb
  · rw [hb] at h; cases h
    exact s.busError_consumes
  · exact s.busNext_consumes.trans (hk _ _ (hb ▸ h))

theorem settle_consumes {s t : State} {carry : State → Host.Outcome State Fault Refusal}
    (hc : carry s = .next t → InputsConsumed s t) (h : settle carry s = .next t) : InputsConsumed s t := by
  by_cases ht : s.turns = []
  · rw [settle_of_no_turns ht] at h
    exact hc h
  · rw [settle_of_turns ht] at h; cases h
    exact (InputsKept.refl s).consumed

/-! ### Elements and DECOMPRESS -/

theorem ElementEffect.consumes {s t : State} {d : Decompressor} {tb taken len src : Nat}
    (h : ElementEffect s d tb taken len src t) : InputsConsumed s t := by
  rcases h with rfl | ⟨-, rfl⟩ | ⟨-, -, -, rfl⟩
  · exact (s.elementError_inputs d).consumed
  · exact s.busError_consumes
  · exact s.busNext_consumes.trans (InputsKept.consumed ⟨rfl, rfl, rfl⟩)

theorem doLiteral_consumes {tb len : Nat} {s t : State} (h : doLiteral tb len s = .next t) : InputsConsumed s t := by
  obtain ⟨d, -, -, heff⟩ := doLiteral_next h
  exact heff.consumes

theorem doCopy_consumes {tb off len : Nat} {s t : State} (h : doCopy tb off len s = .next t) :
    InputsConsumed s t := by
  obtain ⟨d, -, -, heff, -⟩ := doCopy_next h
  exact heff.consumes

theorem execElement_consumes {i : Instr} {s t : State} (h : execElement i s = .next t) : InputsConsumed s t := by
  cases i with
  | lit | lit1 | lit2 | lit3 | lit4 => exact doLiteral_consumes h
  | copy1 | copy2 | copy4 => exact doCopy_consumes h
  | nop | compress | decompress | maxlen => cases h

theorem decompressorAction_consumes {run : Instr → State → Host.Outcome State Fault Refusal} {s t : State}
    {d : Decompressor} (hrun : ∀ i u v, run i u = .next v → InputsConsumed u v)
    (h : decompressorAction run s d = .next t) : InputsConsumed s t := by
  rcases decompressorAction_cases run s d with ⟨-, -, hf⟩ | ⟨-, -, -, hb⟩
      | ⟨-, -, -, ⟨r, -, he⟩ | ⟨i, -, hi⟩⟩ | ⟨-, hend⟩
  · rw [hf] at h; cases h
  · rw [hb] at h; cases h
    exact s.busError_consumes
  · rw [he] at h; cases h
    exact s.busNext_consumes.trans (s.busNext.elementError_inputs d).consumed
  · exact s.busNext_consumes.trans (hrun _ _ _ (hi ▸ h))
  · rw [hend] at h; cases h
    exact (finishDecompress_inputs s d).consumed

theorem finishDecompressor_consumes {s t : State} (h : finishDecompressor s = .next t) : InputsConsumed s t :=
  runDecompressor_keeps (P := InputsConsumed s)
    (fun _ _ _ hs _ ha => hs.trans (decompressorAction_consumes (fun _ _ _ => execElement_consumes) ha))
    _ (InputsKept.refl s).consumed h

theorem beginDecompress_consumes {s t : State} (h : beginDecompress s = .next t) : InputsConsumed s t := by
  unfold beginDecompress at h
  extract_lets header at h
  have hheader : ∀ u v, header u = .next v → InputsConsumed u v := by
    intro u v hu
    simp only [header] at hu
    split at hu
    · cases hu
      exact (u.raise_inputs _ _).consumed
    · split at hu <;> cases hu <;> exact InputsKept.consumed ⟨rfl, rfl, rfl⟩
  split at h
  · exact hheader s t h
  · exact State.onBus_consumes hheader h

theorem execDecompress_consumes {s t : State} (h : execDecompress s = .next t) : InputsConsumed s t := by
  unfold execDecompress at h
  split at h
  · cases h
    exact (s.raise_inputs _ _).consumed
  · obtain ⟨u, hu, h⟩ := andThen_eq_next h
    exact (beginDecompress_consumes hu).trans (settle_consumes finishDecompressor_consumes h)

/-! ### COMPRESS and the other commands -/

theorem compressorAction_consumes {s t : State} {c : Compressor} (h : compressorAction s c = .next t) :
    InputsConsumed s t := by
  rcases compressorAction_cases s c with ⟨-, hend⟩ | ⟨-, -, hf⟩ | ⟨-, -, hb⟩ | ⟨-, -, hw | hw⟩
  · rw [hend] at h; cases h
    exact (finishCompress_inputs s c).consumed
  · rw [hf] at h; cases h
  · rw [hb] at h; cases h
    exact s.busError_consumes
  · rw [hw] at h; cases h
    exact (compressorWork_inputs s c).consumed
  · rw [hw] at h; cases h
    exact s.busNext_consumes.trans (compressorWork_inputs s.busNext c).consumed

theorem finishCompressor_consumes {s t : State} (h : finishCompressor s = .next t) : InputsConsumed s t :=
  runCompressor_keeps (P := InputsConsumed s) (fun _ _ _ hs _ ha => hs.trans (compressorAction_consumes ha))
    _ (InputsKept.refl s).consumed h

theorem execCompress_consumes {s t : State} (h : execCompress s = .next t) : InputsConsumed s t := by
  unfold execCompress at h
  split at h
  · cases h
    exact (s.raise_inputs _ _).consumed
  · split at h
    · cases h
      exact (s.raise_inputs _ _).consumed
    · have hbegin : InputsKept s { s with engine := .compress Compressor.initial } := ⟨rfl, rfl, rfl⟩
      exact hbegin.consumed.trans (settle_consumes finishCompressor_consumes h)

theorem execMaxlen_inputs {s t : State} (h : execMaxlen s = .next t) : InputsKept s t := by
  unfold execMaxlen at h
  split at h <;> cases h
  · exact s.raise_inputs _ _
  · exact s.finish_inputs _ _ _ _

theorem exec_consumes {i : Instr} {s t : State} (h : exec i s = .next t) : InputsConsumed s t := by
  cases i with
  | lit | lit1 | lit2 | lit3 | lit4 => exact doLiteral_consumes h
  | copy1 | copy2 | copy4 => exact doCopy_consumes h
  | nop =>
    cases h
    exact (s.finish_inputs _ _ _ _).consumed
  | compress => exact execCompress_consumes h
  | decompress => exact execDecompress_consumes h
  | maxlen => exact (execMaxlen_inputs h).consumed

/-! ### The device's move and the step -/

/-- The device writes neither the parameters nor the schedule, and only the front of the platform's plan. -/
theorem deviceMove_consumes {s t : State} (h : deviceMove s = .next t) : InputsConsumed s t := by
  unfold deviceMove at h
  split at h
  case h_1 =>
    cases h
    exact (InputsKept.refl s).consumed
  case h_2 =>
    split at h
    · exact exec_consumes h
    · cases h
      exact (s.raise_inputs _ _).consumed
  case h_3 =>
    split at h
    · exact finishCompressor_consumes h
    · exact compressorAction_consumes h
  case h_4 =>
    split at h
    · exact finishDecompressor_consumes h
    · exact decompressorAction_consumes (fun _ _ _ => exec_consumes) h

/-- A step is a move of whoever the schedule names, from the state without that turn. -/
theorem step_consumes {s t : State} (h : step s = .next t) :
    ∃ front rest, s.turns = front ++ rest ∧ front.length ≤ 1 ∧ InputsConsumed { s with turns := rest } t := by
  cases hs : s.turns with
  | nil =>
    rw [step_of_no_turns hs] at h
    exact ⟨[], [], rfl, Nat.zero_le 1, hs ▸ deviceMove_consumes h⟩
  | cons turn rest =>
    refine ⟨[turn], rest, rfl, Nat.le_refl 1, ?_⟩
    cases turn with
    | device =>
      rw [step_of_device hs] at h
      exact deviceMove_consumes h
    | host a =>
      rw [step_of_host hs] at h
      exact (hostMove_inputs h).consumed

/-- On the host's turn the platform decides nothing. -/
theorem step_busPlan_of_hostTurn {s s' t : State} {a : HostAction} (hturn : HostTurn s a s') (h : step s = .next t) :
    t.busPlan = s.busPlan := by
  rw [hturn.step] at h
  obtain ⟨rest, -, rfl⟩ := hturn
  exact (hostMove_inputs h).busPlan

/-- Settles O60: a step is one move, every move is a chain of operations that keep the parameters and the inputs and
of decisions of the platform, and each decision consumes the front of the plan. -/
theorem parametersFixedAndInputsConsumed : Obligations.ParametersFixedAndInputsConsumed := by
  unfold Obligations.ParametersFixedAndInputsConsumed
  intro s t h
  obtain ⟨front, rest, hturns, hfront, hmove⟩ := step_consumes h
  refine ⟨hmove.params, ⟨front, ?_, hfront⟩, hmove.busPlan, hmove.noFaults, ?_⟩
  · rw [hmove.turns, hturns]
  · exact fun a s' hturn => step_busPlan_of_hostTurn hturn h

end Sys2Proof.Machine
end

section
/-! What a move of the host can do (10_state.md R31 to R45; 42_commands.md R290): a register access, what a register
write makes of the state, and every outcome of `hostMove`. -/

namespace Sys2Proof.Machine

/-! ### Register writes -/

theorem State.unlessBusy_of_busy {s : State} (h : s.status.busy = true) (k : State → State) :
    s.unlessBusy k = { s with status := s.status.markIgnored } := by
  rw [State.unlessBusy, if_pos h]

theorem State.unlessBusy_of_idle {s : State} (h : s.status.busy = false) (k : State → State) :
    s.unlessBusy k = k s := by
  rw [State.unlessBusy, h, if_neg Bool.false_ne_true]

/-- The offsets of `CMD` and of the configuration registers (R32). -/
def CommandOrConfigOffset (offset : Nat) : Prop :=
  offset = 0x04 ∨ offset = 0x0C ∨ offset = 0x10 ∨ offset = 0x14 ∨ offset = 0x18

/-- While busy, a write to `CMD` or to a configuration register only marks `IGNORED` (R45). -/
theorem State.writeReg_of_busy {s : State} (h : s.status.busy = true) {offset : Nat}
    (ho : CommandOrConfigOffset offset) (v : Word) :
    s.writeReg offset v = { s with status := s.status.markIgnored } := by
  rcases ho with rfl | rfl | rfl | rfl | rfl <;> simp only [State.writeReg, State.unlessBusy_of_busy h]

/-- While idle, such a write is accepted or sets a configuration register (R34, R36 to R39). -/
theorem State.writeReg_of_idle {s : State} (h : s.status.busy = false) {offset : Nat}
    (ho : CommandOrConfigOffset offset) (v : Word) :
    s.writeReg offset v = s.accept v ∨ ∃ r, s.writeReg offset v = { s with cfg := r } := by
  rcases ho with rfl | rfl | rfl | rfl | rfl <;> simp only [State.writeReg, State.unlessBusy_of_idle h]
  · exact .inl trivial
  all_goals exact .inr ⟨_, rfl⟩

/-- Read-only and reserved offsets ignore writes (R32, R44). -/
theorem State.writeReg_of_readOnly {offset : Nat} (ho : ¬ CommandOrConfigOffset offset) (s : State) (v : Word) :
    s.writeReg offset v = s := by
  unfold State.writeReg
  split
  case h_6 => rfl
  all_goals exact absurd (by simp [CommandOrConfigOffset]) ho

/-- Everything a register write can do. -/
theorem State.writeReg_cases (s : State) (offset : Nat) (v : Word) :
    s.writeReg offset v = s
      ∨ (s.status.busy = true ∧ s.writeReg offset v = { s with status := s.status.markIgnored })
      ∨ (s.status.busy = false
        ∧ (s.writeReg offset v = s.accept v ∨ ∃ r, s.writeReg offset v = { s with cfg := r })) := by
  by_cases ho : CommandOrConfigOffset offset
  · cases hb : s.status.busy with
    | true => exact .inr (.inl ⟨rfl, State.writeReg_of_busy hb ho v⟩)
    | false => exact .inr (.inr ⟨rfl, State.writeReg_of_idle hb ho v⟩)
  · exact .inl (State.writeReg_of_readOnly ho s v)

/-! ### Moves -/

/-- A host read of memory writes `hostData`, and `draws` where the value is free (20_memory.md R95). -/
theorem State.hostRead_eq (s : State) (a : Word) :
    ∃ data draws, s.hostRead a = { s with hostData := data, draws := draws } := by
  unfold State.hostRead
  split
  · exact ⟨_, _, rfl⟩
  · exact ⟨_, s.draws, rfl⟩

/-- Everything a host move that is not refused can do. -/
theorem hostMove_next {a : HostAction} {s t : State} (h : hostMove a s = .next t) :
    (∃ addr width offset, a = .readReg addr width ∧ s.registerOffset addr width = .ok offset
        ∧ t = s.hostReadReg offset)
    ∨ (∃ addr width v offset, a = .writeReg addr width v ∧ s.registerOffset addr width = .ok offset
        ∧ t = s.writeReg offset v)
    ∨ (∃ addr, a = .readMem addr ∧ ¬ s.unseenDst addr.toNat ∧ t = s.hostRead addr)
    ∨ (∃ addr b, a = .writeMem addr b
        ∧ ¬ (s.status.busy = true ∧ (s.latch.inSrc addr.toNat ∨ s.latch.inDst addr.toNat))
        ∧ t = { s with mem := s.mem.write addr.toNat b })
    ∨ (a = .reset ∧ t = s.resetEvent) := by
  cases a with
  | readReg addr width =>
    simp only [hostMove] at h
    split at h <;> cases h
    exact .inl ⟨addr, width, _, rfl, ‹_›, rfl⟩
  | writeReg addr width v =>
    simp only [hostMove] at h
    split at h <;> cases h
    exact .inr (.inl ⟨addr, width, v, _, rfl, ‹_›, rfl⟩)
  | readMem addr =>
    simp only [hostMove] at h
    split at h <;> cases h
    exact .inr (.inr (.inl ⟨addr, rfl, ‹_›, rfl⟩))
  | writeMem addr b =>
    simp only [hostMove] at h
    split at h <;> cases h
    exact .inr (.inr (.inr (.inl ⟨addr, b, rfl, ‹_›, rfl⟩)))
  | reset =>
    cases h
    exact .inr (.inr (.inr (.inr ⟨rfl, rfl⟩)))

/-- An aligned 32-bit write inside the block writes the register at its offset. -/
theorem hostMove_writeReg {s : State} {addr : Word} {offset : Nat} (h : s.registerAt addr offset)
    (ho : offset % 4 = 0) (hb : offset < 256) (v : Word) :
    hostMove (.writeReg addr 4 v) s = .next (s.writeReg offset v) := by
  simp only [hostMove, State.registerOffset_ok h.1 h.2 ho hb]

/-- An aligned 32-bit read inside the block reads the register at its offset. -/
theorem hostMove_readReg {s : State} {addr : Word} {offset : Nat} (h : s.registerAt addr offset)
    (ho : offset % 4 = 0) (hb : offset < 256) :
    hostMove (.readReg addr 4) s = .next (s.hostReadReg offset) := by
  simp only [hostMove, State.registerOffset_ok h.1 h.2 ho hb]

/-! ### The host's turn -/

theorem HostTurn.eq {s s' : State} {a : HostAction} (h : HostTurn s a s') : s' = { s with turns := s'.turns } := by
  obtain ⟨rest, -, rfl⟩ := h
  rfl

theorem HostTurn.status {s s' : State} {a : HostAction} (h : HostTurn s a s') : s'.status = s.status := by
  rw [h.eq]

/-- On the host's turn, such a write is the step. -/
theorem step_of_writeReg {s s' : State} {addr v : Word} {offset : Nat} (hturn : HostTurn s (.writeReg addr 4 v) s')
    (h : s.registerAt addr offset) (ho : offset % 4 = 0) (hb : offset < 256) :
    step s = .next (s'.writeReg offset v) := by
  rw [hturn.step]
  obtain ⟨rest, -, rfl⟩ := hturn
  exact hostMove_writeReg (s := { s with turns := rest }) h ho hb v

/-- A property that the device's moves and the host's keep, and that does not speak of the schedule, is kept by every
step. -/
theorem step_keeps {P : State → Prop} (hturns : ∀ s rest, P s → P { s with turns := rest })
    (hdevice : ∀ s t, P s → deviceMove s = .next t → P t)
    (hhost : ∀ a s t, P s → hostMove a s = .next t → P t) {s t : State} (h : P s) (hstep : step s = .next t) :
    P t := by
  cases hs : s.turns with
  | nil => exact hdevice s t h (step_of_no_turns hs ▸ hstep)
  | cons turn rest =>
    cases turn with
    | device => exact hdevice _ t (hturns s rest h) (step_of_device hs ▸ hstep)
    | host a => exact hhost a _ t (hturns s rest h) (step_of_host hs ▸ hstep)

theorem run_two {s u t : State} (hs : step s = .next u) (hu : step u = .next t) :
    Host.Core.run Sys2Proof.core 2 s = .next t := by
  have hs' : Sys2Proof.core.step s = .next u := hs
  have hu' : Sys2Proof.core.step u = .next t := hu
  simp only [Host.Core.run, hs', hu']

end Sys2Proof.Machine
end

section
/-! What the device's parts can do, said once for the invariants: how a command settles, how DECOMPRESS begins and goes
on, the sizes of the hash table (40_compressor.md R174, R175), and the compressor's action phase by phase. -/

namespace Sys2Proof.Machine

/-! ### Settling, and DECOMPRESS -/

/-- A property that carrying a command on keeps holds once the command has settled. -/
theorem settle_keeps {P : State → Prop} {s t : State} {carry : State → Host.Outcome State Fault Refusal} (h : P s)
    (hc : carry s = .next t → P t) (hs : settle carry s = .next t) : P t := by
  by_cases ht : s.turns = []
  · rw [settle_of_no_turns ht] at hs
    exact hc hs
  · rw [settle_of_turns ht] at hs; cases hs
    exact h

/-- What a header that is read in `u` makes of it (R231, R232): an error of the header, a length above the capacity, or
DECOMPRESS at its first element. -/
def HeaderEffect (u t : State) : Prop :=
  (∃ pos, t = u.raise .parsingError pos)
    ∨ ∃ len hlen, decodeHeader u.srcByte u.latch.srcLen.toNat = .ok (len, hlen)
      ∧ (t = { u with engine := .decompress ⟨hlen, 0, BitVec.ofNat 32 len⟩ }.raise .invalidChunkSize hlen
        ∨ (len ≤ u.latch.dstCap.toNat ∧ t = { u with engine := .decompress ⟨hlen, 0, BitVec.ofNat 32 len⟩ }))

/-- Everything the beginning of DECOMPRESS can do: a bus error, or the header's effect. -/
theorem beginDecompress_next {s t : State} (h : beginDecompress s = .next t) :
    t = s.busNext.raiseSpoiled .busError 0 ∨ HeaderEffect s t ∨ HeaderEffect s.busNext t := by
  unfold beginDecompress at h
  extract_lets header at h
  have hheader : ∀ u v, header u = .next v → HeaderEffect u v := by
    intro u v hv
    simp only [header] at hv
    split at hv
    · cases hv
      exact .inl ⟨_, rfl⟩
    · rename_i len hlen hok
      refine .inr ⟨len, hlen, hok, ?_⟩
      split at hv <;> cases hv
      · exact .inl rfl
      · exact .inr ⟨Nat.le_of_not_lt ‹_›, rfl⟩
  split at h
  · exact .inr (.inl (hheader s t h))
  · rcases s.onBus_cases header with hb | hb
    · rw [hb] at h; cases h
      exact .inl rfl
    · exact .inr (.inr (hheader _ t (hb ▸ h)))

theorem finishDecompress_engine (s : State) (d : Decompressor) : (finishDecompress s d).engine = .idle := by
  unfold finishDecompress
  split <;> rfl

/-- An action of the decompressor ends the command or runs the element it has fetched. -/
theorem decompressorAction_ends_or_runs {run : Instr → State → Host.Outcome State Fault Refusal} {s t : State}
    {d : Decompressor} (h : decompressorAction run s d = .next t) :
    t.engine = .idle ∨ ∃ i, run i s.busNext = .next t := by
  rcases decompressorAction_cases run s d with ⟨-, -, hf⟩ | ⟨-, -, -, hb⟩
      | ⟨-, -, -, ⟨r, -, he⟩ | ⟨i, -, hi⟩⟩ | ⟨-, hend⟩
  · rw [hf] at h; cases h
  · rw [hb] at h; cases h
    exact .inl rfl
  · rw [he] at h; cases h
    exact .inl rfl
  · exact .inr ⟨i, hi ▸ h⟩
  · rw [hend] at h; cases h
    exact .inl (finishDecompress_engine s d)

/-! ### Table sizes and hashes -/

/-- A hash shifted to at most `k` bits is below `2^k` (40_compressor.md R175). -/
theorem hash_lt {shift k : Nat} (h : 32 ≤ shift + k) (v : Word) : hash shift v < 2 ^ k := by
  have hv := (v * Config.hashMul).isLt
  rw [hash, Nat.shiftRight_eq_div_pow]
  refine Nat.div_lt_of_lt_mul (hv.trans_le ?_)
  rw [← Nat.pow_add]
  exact Nat.pow_le_pow_right Nat.two_pos h

theorem growTable_eq_pow (k e w : Nat) (he : e ≤ 14) :
    ∃ e', e ≤ e' ∧ e' ≤ 14 ∧ growTable k (2 ^ e) w = 2 ^ e' := by
  induction k generalizing e with
  | zero => exact ⟨e, Nat.le_refl e, he, rfl⟩
  | succ k ih =>
    unfold growTable
    split
    · rename_i hlt
      have he' : e < 14 := (Nat.pow_lt_pow_iff_right (by decide)).1 (hlt.1 : 2 ^ e < 2 ^ 14)
      obtain ⟨e', hle, hmax, heq⟩ := ih (e + 1) he'
      exact ⟨e', Nat.le_of_succ_le hle, hmax, by rw [← Nat.pow_succ', heq]⟩
    · exact ⟨e, Nat.le_refl e, he, rfl⟩

/-- A table size is a power of two from `HT_MIN` to `HT_MAX` (R174). -/
theorem tableSize_eq_pow (w : Nat) : ∃ e, 8 ≤ e ∧ e ≤ 14 ∧ tableSize w = 2 ^ e :=
  growTable_eq_pow 6 8 w (by decide)

theorem tableSize_le (w : Nat) : tableSize w ≤ Config.htMax := by
  obtain ⟨e, -, he, heq⟩ := tableSize_eq_pow w
  exact heq ▸ Nat.pow_le_pow_right Nat.two_pos he

theorem tableSize_shift (w : Nat) : 18 ≤ 32 - Nat.log2 (tableSize w) ∧ 32 - Nat.log2 (tableSize w) ≤ 24 := by
  obtain ⟨e, hmin, hmax, heq⟩ := tableSize_eq_pow w
  rw [heq, Nat.log2_two_pow]
  omega

/-- A hash of a window that is set up is an index of the table. -/
theorem hash_lt_htMax {shift : Nat} (h : 18 ≤ shift) (v : Word) : hash shift v < Config.htMax :=
  hash_lt (k := 14) (by omega) v

/-- The hash of a window is an index of its table (R174, R175). -/
theorem hash_lt_tableSize (w : Nat) (v : Word) : hash (32 - Nat.log2 (tableSize w)) v < tableSize w := by
  obtain ⟨e, -, he, heq⟩ := tableSize_eq_pow w
  rw [heq, Nat.log2_two_pow]
  exact hash_lt (by omega) v

/-! ### The compressor's action, one equation per phase -/

section Phases

variable {c : Compressor} (n : Nat) (src : Nat → Byte) (t : HashTable)

theorem Compressor.act_header (h : c.phase = .header) :
    c.act n src t = ({ c with phase := .window }, t, encodeVarint n) := by
  simp only [Compressor.act, h]

theorem Compressor.act_window (h : c.phase = .window) :
    c.act n src t = ((windowSetup n c t).1, (windowSetup n c t).2, []) := by
  simp only [Compressor.act, h]

theorem Compressor.act_scan (h : c.phase = .scan) : c.act n src t = (scanTest c, t, []) := by
  simp only [Compressor.act, h]

theorem Compressor.act_probe (h : c.phase = .probe) : c.act n src t = probe src c t := by
  simp only [Compressor.act, h]

theorem Compressor.act_copy (h : c.phase = .copy) : c.act n src t = copyTurn src c t := by
  simp only [Compressor.act, h]

theorem Compressor.act_tail (h : c.phase = .tail) :
    c.act n src t = ((remainder src c).1, t, (remainder src c).2) := by
  simp only [Compressor.act, h]

end Phases

/-- A probe that is made records its position before the compare; a hit hands over the candidate and emits the
literal before it, a miss moves on by the stride (40_compressor.md R177, R179). -/
theorem probe_of_probes {c : Compressor} {src : Nat → Byte} {t : HashTable} {here cand : Nat} (h : c.probes)
    (hhere : here = hash c.shift (load32 src c.ip)) (hcand : cand = c.wb + (t.get here).toNat) :
    probe src c t =
      (if load32 src cand = load32 src c.ip then { c with phase := .copy, cand := cand }
        else { c with cand := cand, ip := c.ip + c.skip >>> Config.skipShift, skip := c.skip + 1 },
        t.set here (BitVec.ofNat 16 (c.ip - c.wb)),
        if load32 src cand = load32 src c.ip ∧ c.nextEmit < c.ip then
          emitLiteral src c.nextEmit (c.ip - c.nextEmit)
        else []) := by
  subst hcand hhere
  rw [probe, if_pos h]
  dsimp only
  split <;> rename_i hload
  · simp only [hload, true_and]
  · simp only [hload, false_and, if_false]

/-- Everything a copy can do: it ends the run at the limit; below it, it goes on or scans again (R184). -/
theorem copyTurn_cases (src : Nat → Byte) (c : Compressor) (t : HashTable) :
    ∃ m, m = 4 + matchLen src (c.cand + 4) (c.ip + 4) (c.we - (c.ip + 4)) ∧ m ≤ 4 + (c.we - (c.ip + 4))
      ∧ ((c.ipLimit ≤ ((c.ip + m : Nat) : Int)
          ∧ copyTurn src c t =
            ({ c with phase := .scan, ip := c.ip + m, nextEmit := c.ip + m }, t, emitCopy (c.ip - c.cand) m))
        ∨ (((c.ip + m : Nat) : Int) < c.ipLimit
          ∧ ∃ u before here cand, u = t.set before (BitVec.ofNat 16 (c.ip + m - 1 - c.wb))
            ∧ before = hash c.shift (load32 src (c.ip + m - 1)) ∧ here = hash c.shift (load32 src (c.ip + m))
            ∧ cand = c.wb + (u.get here).toNat
            ∧ copyTurn src c t =
              ({ c with
                  phase := if load32 src cand = load32 src (c.ip + m) then c.phase else .scan
                  ip := c.ip + m, nextEmit := c.ip + m, cand := cand },
                u.set here (BitVec.ofNat 16 (c.ip + m - c.wb)), emitCopy (c.ip - c.cand) m))) := by
  have hle := matchLen_le src (c.cand + 4) (c.ip + 4) (c.we - (c.ip + 4))
  obtain ⟨m, hm⟩ : ∃ m, m = 4 + matchLen src (c.cand + 4) (c.ip + 4) (c.we - (c.ip + 4)) := ⟨_, rfl⟩
  refine ⟨m, hm, by omega, ?_⟩
  rcases le_or_gt c.ipLimit ((c.ip + m : Nat) : Int) with hstop | hgo
  · exact .inl ⟨hstop, copyTurn_at_limit t hm hstop⟩
  · exact .inr ⟨hgo, _, _, _, _, rfl, rfl, rfl, rfl, copyTurn_below_limit hm hgo rfl rfl rfl rfl⟩

end Sys2Proof.Machine
end

section
/-! The state invariant (10_state.md R35, R45, R50, R51, R58; 42_commands.md R294): that it holds after reset (part of
O52) and that every step keeps it (O53). First what the operations that end or go on with a command do to `Inv`, then
one lemma per action, by the laws that say what the action can do. -/

namespace Sys2Proof.Machine

/-! ### `STATUS` -/

/-- The rules of 10_state.md R35 for the fields of `STATUS` among themselves. -/
structure Status.Consistent (st : Status) : Prop where
  notBoth : ¬ (st.busy = true ∧ st.done = true)
  errDone : st.err = true → st.done = true
  noCode : st.err = false → st.errCode = 0#4
  code : st.err = true → 1 ≤ st.errCode.toNat ∧ st.errCode.toNat ≤ 6

theorem Status.zero_consistent : Status.zero.Consistent := by
  constructor <;> decide

theorem Status.accepted_consistent (v : Word) : (Status.accepted v).Consistent where
  notBoth h := Bool.false_ne_true h.2
  errDone h := h
  noCode _ := rfl
  code h := absurd h Bool.false_ne_true

theorem ErrorKind.code_bounds (e : ErrorKind) : 1 ≤ e.code.toNat ∧ e.code.toNat ≤ 6 := by
  cases e <;> decide

theorem Status.finished_consistent (st : Status) (e : Option ErrorKind) : (st.finished e).Consistent where
  notBoth h := Bool.false_ne_true h.1
  errDone _ := rfl
  noCode h := by
    cases e with
    | none => rfl
    | some k => cases h
  code h := by
    cases e with
    | none => cases h
    | some k => exact k.code_bounds

/-! ### States in which no engine works -/

/-- With no engine at work, the invariant asks for the canonical forms and the rules of `STATUS` alone. -/
theorem inv_of_idle {s : State} (he : s.engine = .idle) (hb : s.status.busy = false) (hmem : s.mem.wf)
    (htable : s.table.wf) (hst : s.status.Consistent) : Inv s where
  mem := hmem
  table := htable
  busy := by simp [he, hb]
  notBoth := hst.notBoth
  errDone := hst.errDone
  noCode := hst.noCode
  code := hst.code
  latched h := by simp [hb] at h
  decompressor d h := by simp [he] at h
  compressor c h := by simp [he] at h

theorem State.reset_inv : Inv State.reset :=
  inv_of_idle rfl rfl State.reset_wf.1 State.reset_wf.2 Status.zero_consistent

theorem State.finish_inv {s : State} (h : Inv s) (e : Option ErrorKind) (result expect pos : Word) :
    Inv (s.finish e result expect pos) :=
  inv_of_idle rfl rfl h.mem h.table (s.status.finished_consistent e)

theorem State.raise_inv {s : State} (h : Inv s) (e : ErrorKind) (pos : Nat) : Inv (s.raise e pos) :=
  State.finish_inv h _ _ _ _

theorem State.spoilDst_inv {s : State} (h : Inv s) (lo : Nat) : Inv (s.spoilDst lo) :=
  { h with mem := Memory.spoil_wf h.mem _ _ _ }

theorem State.raiseSpoiled_inv {s : State} (h : Inv s) (e : ErrorKind) (pos : Nat) : Inv (s.raiseSpoiled e pos) :=
  State.spoilDst_inv (State.raise_inv h e pos) 0

theorem State.elementError_inv {s : State} (h : Inv s) (d : Decompressor) : Inv (s.elementError d) :=
  State.raiseSpoiled_inv h _ _

theorem finishCompress_inv {s : State} (h : Inv s) (c : Compressor) : Inv (finishCompress s c) :=
  State.spoilDst_inv (State.finish_inv h _ _ _ _) _

theorem finishDecompress_inv {s : State} (h : Inv s) (d : Decompressor) : Inv (finishDecompress s d) := by
  unfold finishDecompress
  split
  · exact State.spoilDst_inv (State.finish_inv h _ _ _ _) _
  · exact State.raiseSpoiled_inv h _ _

theorem State.resetEvent_inv {s : State} (h : Inv s) : Inv s.resetEvent := by
  have hmem : s.resetEvent.mem.wf := by
    rw [State.resetEvent_mem]
    split
    · exact (State.spoilDst_inv h 0).mem
    · exact h.mem
  have htable : s.resetEvent.table.wf := ⟨.nil, by simp [State.resetEvent], Nat.zero_le _⟩
  exact inv_of_idle (by simp) (by simp [Status.zero]) hmem htable (by simpa using Status.zero_consistent)

/-! ### States in which an engine works -/

theorem State.busNext_inv {s : State} (h : Inv s) : Inv s.busNext := by
  unfold State.busNext
  split
  · exact { h with }
  · exact { h with }
  · exact h

/-- What the invariant asks of DECOMPRESS's cursors (R50, R51). -/
structure Decompressor.InRegions (r : Regions) (d : Decompressor) : Prop where
  legal : r.legal
  inPos : d.inPos ≤ r.srcLen.toNat
  outPos : d.outPos ≤ r.dstCap.toNat
  expect : d.expect.toNat ≤ r.dstCap.toNat

/-- The shift of a window that is set up is that of a table of 256 to 16384 entries (R58). -/
def Compressor.ShiftInRange (c : Compressor) : Prop :=
  c.phase = .scan ∨ c.phase = .probe ∨ c.phase = .copy → 18 ≤ c.shift ∧ c.shift ≤ 24

/-- A command that has begun goes on with DECOMPRESS. -/
theorem Inv.withDecompressor {s : State} (h : Inv s) (he : s.engine ≠ .idle) {d : Decompressor}
    (hd : d.InRegions s.latch) : Inv { s with engine := .decompress d } :=
  { h with
    busy := iff_of_true (h.busy.2 he) (by simp)
    decompressor := fun d' h' => by cases h'; exact ⟨hd.legal, hd.inPos, hd.outPos, hd.expect⟩
    compressor := fun c h' => by cases h' }

/-- A command that has begun goes on with COMPRESS. -/
theorem Inv.withCompressor {s : State} (h : Inv s) (he : s.engine ≠ .idle) {c : Compressor} (hlegal : s.latch.legal)
    (hcap : Config.maxLen s.latch.srcLen.toNat ≤ s.latch.dstCap.toNat) (hshift : c.ShiftInRange) :
    Inv { s with engine := .compress c } :=
  { h with
    busy := iff_of_true (h.busy.2 he) (by simp)
    decompressor := fun d h' => by cases h'
    compressor := fun c' h' => by cases h'; exact ⟨hlegal, hcap, hshift⟩ }

/-! ### DECOMPRESS -/

theorem ElementEffect.keeps_inv {s t : State} {d : Decompressor} {tb taken len src : Nat} (h : Inv s)
    (he : s.engine = .decompress d) (heff : ElementEffect s d tb taken len src t) : Inv t := by
  obtain ⟨hlegal, -, -, hexpect⟩ := h.decompressor d he
  have hrun : s.engine ≠ .idle := by simp [he]
  rcases heff with rfl | ⟨-, rfl⟩ | ⟨-, hin, hout, rfl⟩
  · exact State.elementError_inv h d
  · exact State.raiseSpoiled_inv (State.busNext_inv h) _ _
  · have hmoved : Inv { s.busNext with mem := s.mem.move (s.latch.dstAddr.toNat + d.outPos) src len } :=
      { State.busNext_inv h with mem := Memory.move_wf h.mem _ _ _ }
    exact hmoved.withDecompressor (by simpa using hrun)
      ⟨by simpa using hlegal, by simpa using hin, by simpa using hout, by simpa using hexpect⟩

theorem doLiteral_inv {tb len : Nat} {s t : State} (h : Inv s) (hl : doLiteral tb len s = .next t) : Inv t := by
  obtain ⟨d, he, -, heff⟩ := doLiteral_next hl
  exact heff.keeps_inv h he

theorem doCopy_inv {tb off len : Nat} {s t : State} (h : Inv s) (hc : doCopy tb off len s = .next t) : Inv t := by
  obtain ⟨d, he, -, heff, -⟩ := doCopy_next hc
  exact heff.keeps_inv h he

theorem execElement_inv {i : Instr} {s t : State} (h : Inv s) (hi : execElement i s = .next t) : Inv t := by
  cases i with
  | lit | lit1 | lit2 | lit3 | lit4 => exact doLiteral_inv h hi
  | copy1 | copy2 | copy4 => exact doCopy_inv h hi
  | nop | compress | decompress | maxlen => cases hi

theorem decompressorAction_inv {run : Instr → State → Host.Outcome State Fault Refusal} {s t : State}
    {d : Decompressor} (hrun : ∀ i, Inv s.busNext → run i s.busNext = .next t → Inv t) (h : Inv s)
    (ha : decompressorAction run s d = .next t) : Inv t := by
  have hnext := State.busNext_inv h
  rcases decompressorAction_cases run s d with ⟨-, -, hf⟩ | ⟨-, -, -, hb⟩
      | ⟨-, -, -, ⟨r, -, he⟩ | ⟨i, -, hi⟩⟩ | ⟨-, hend⟩
  · rw [hf] at ha; cases ha
  · rw [hb] at ha; cases ha
    exact State.raiseSpoiled_inv hnext _ _
  · rw [he] at ha; cases ha
    exact State.elementError_inv hnext d
  · exact hrun i hnext (hi ▸ ha)
  · rw [hend] at ha; cases ha
    exact finishDecompress_inv h d

theorem finishDecompressor_inv {s t : State} (h : Inv s) (hf : finishDecompressor s = .next t) : Inv t :=
  runDecompressor_keeps (fun _ _ _ hs _ => decompressorAction_inv (fun _ => execElement_inv) hs) _ h hf

theorem HeaderEffect.keeps_inv {u t : State} (h : Inv u) (he : u.engine ≠ .idle) (hlegal : u.latch.legal)
    (heff : HeaderEffect u t) : Inv t := by
  rcases heff with ⟨pos, rfl⟩ | ⟨len, hlen, hok, rfl | ⟨hcap, rfl⟩⟩
  · exact State.raise_inv h _ pos
  · exact inv_of_idle rfl rfl h.mem h.table (u.status.finished_consistent _)
  · obtain ⟨-, hsrc, -⟩ := decodeHeader_ok hok
    exact h.withDecompressor he ⟨hlegal, hsrc, Nat.zero_le _, (Nat.mod_le len _).trans hcap⟩

theorem execDecompress_inv {s t : State} (h : Inv s) (he : s.engine ≠ .idle) (hd : execDecompress s = .next t) :
    Inv t := by
  unfold execDecompress at hd
  split at hd
  · cases hd
    exact State.raise_inv h _ _
  · rename_i hlegal
    obtain ⟨u, hu, hd⟩ := andThen_eq_next hd
    have hbegun : Inv u := by
      have hnext := State.busNext_inv h
      rcases beginDecompress_next hu with rfl | heff | heff
      · exact State.raiseSpoiled_inv hnext _ _
      · exact heff.keeps_inv h he (not_not.1 hlegal)
      · exact heff.keeps_inv hnext (by simpa using he) (s.busNext_latch.symm ▸ not_not.1 hlegal)
    exact settle_keeps hbegun (finishDecompressor_inv hbegun) hd

/-! ### COMPRESS -/

/-- The test of the window loop keeps the window's shift. -/
theorem scanTest_shift (c : Compressor) : (scanTest c).shift = c.shift := by
  unfold scanTest
  split <;> rfl

theorem probe_shift (src : Nat → Byte) (c : Compressor) (t : HashTable) : (probe src c t).1.shift = c.shift := by
  by_cases h : c.probes
  · rw [probe_of_probes h rfl rfl]
    dsimp only
    split <;> rfl
  · rw [probe_of_not_probes h]

theorem copyTurn_shift (src : Nat → Byte) (c : Compressor) (t : HashTable) :
    (copyTurn src c t).1.shift = c.shift := by
  obtain ⟨m, -, -, ⟨-, heq⟩ | ⟨-, u, before, here, cand, -, -, -, -, heq⟩⟩ := copyTurn_cases src c t
    <;> rw [heq]

theorem Compressor.act_shiftInRange {c : Compressor} (h : c.ShiftInRange) (n : Nat) (src : Nat → Byte)
    (t : HashTable) : (c.act n src t).1.ShiftInRange := by
  cases hp : c.phase with
  | header => simp [Compressor.act_header n src t hp, Compressor.ShiftInRange]
  | window =>
    rw [Compressor.act_window n src t hp]
    exact fun _ => tableSize_shift _
  | scan =>
    rw [Compressor.act_scan n src t hp]
    exact fun _ => scanTest_shift c ▸ h (.inl hp)
  | probe =>
    rw [Compressor.act_probe n src t hp]
    exact fun _ => probe_shift src c t ▸ h (.inr (.inl hp))
  | copy =>
    rw [Compressor.act_copy n src t hp]
    exact fun _ => copyTurn_shift src c t ▸ h (.inr (.inr hp))
  | tail => simp [Compressor.act_tail n src t hp, Compressor.ShiftInRange, remainder]

theorem probe_table_wf {src : Nat → Byte} {c : Compressor} {t : HashTable} (ht : t.wf) (hs : 18 ≤ c.shift) :
    (probe src c t).2.1.wf := by
  by_cases h : c.probes
  · rw [probe_of_probes h rfl rfl]
    exact HashTable.set_wf ht (hash_lt_htMax hs _) _
  · rw [probe_of_not_probes h]
    exact ht

theorem copyTurn_table_wf {src : Nat → Byte} {c : Compressor} {t : HashTable} (ht : t.wf) (hs : 18 ≤ c.shift) :
    (copyTurn src c t).2.1.wf := by
  obtain ⟨m, -, -, ⟨-, heq⟩ | ⟨-, u, before, here, cand, rfl, rfl, rfl, -, heq⟩⟩ := copyTurn_cases src c t
    <;> rw [heq]
  · exact ht
  · exact HashTable.set_wf (HashTable.set_wf ht (hash_lt_htMax hs _) _) (hash_lt_htMax hs _) _

theorem Compressor.act_table_wf {c : Compressor} {t : HashTable} (h : c.ShiftInRange) (ht : t.wf) (n : Nat)
    (src : Nat → Byte) : (c.act n src t).2.1.wf := by
  cases hp : c.phase with
  | header => rw [Compressor.act_header n src t hp]; exact ht
  | window => rw [Compressor.act_window n src t hp]; exact HashTable.clear_wf ht (tableSize_le _)
  | scan => rw [Compressor.act_scan n src t hp]; exact ht
  | probe => rw [Compressor.act_probe n src t hp]; exact probe_table_wf ht (h (.inr (.inl hp))).1
  | copy => rw [Compressor.act_copy n src t hp]; exact copyTurn_table_wf ht (h (.inr (.inr hp))).1
  | tail => rw [Compressor.act_tail n src t hp]; exact ht

theorem State.emit_inv {s : State} (h : Inv s) (he : s.engine ≠ .idle) (hlegal : s.latch.legal)
    (hcap : Config.maxLen s.latch.srcLen.toNat ≤ s.latch.dstCap.toNat) {c : Compressor} {t : HashTable}
    (hshift : c.ShiftInRange) (ht : t.wf) (bytes : List Byte) : Inv (s.emit c t bytes) :=
  Inv.withCompressor (s := { s with mem := s.mem.writeList _ bytes, table := t })
    { h with mem := Memory.writeList_wf h.mem _ _, table := ht } he hlegal hcap hshift

theorem compressorWork_inv {s : State} {c : Compressor} (h : Inv s) (he : s.engine = .compress c) :
    Inv (compressorWork s c) := by
  obtain ⟨hlegal, hcap, hshift⟩ := h.compressor c he
  have hrun : s.engine ≠ .idle := by simp [he]
  unfold compressorWork
  dsimp only
  split
  · have hwindow : ({ c with phase := .window, wb := s.latch.srcLen.toNat } : Compressor).ShiftInRange := by
      simp [Compressor.ShiftInRange]
    exact { State.emit_inv h hrun hlegal hcap hwindow h.table _ with }
  · exact State.emit_inv h hrun hlegal hcap (Compressor.act_shiftInRange hshift _ _ _)
      (Compressor.act_table_wf hshift h.table _ _) _

theorem compressorAction_inv {s t : State} {c : Compressor} (h : Inv s) (he : s.engine = .compress c)
    (ha : compressorAction s c = .next t) : Inv t := by
  rcases compressorAction_cases s c with ⟨-, hend⟩ | ⟨-, -, hf⟩ | ⟨-, -, hb⟩ | ⟨-, -, hw | hw⟩
  · rw [hend] at ha; cases ha
    exact finishCompress_inv h c
  · rw [hf] at ha; cases ha
  · rw [hb] at ha; cases ha
    exact State.raiseSpoiled_inv (State.busNext_inv h) _ _
  · rw [hw] at ha; cases ha
    exact compressorWork_inv h he
  · rw [hw] at ha; cases ha
    exact compressorWork_inv (State.busNext_inv h) (by simpa using he)

theorem finishCompressor_inv {s t : State} (h : Inv s) (hf : finishCompressor s = .next t) : Inv t :=
  runCompressor_keeps (fun _ _ _ hs he => compressorAction_inv hs he) _ h hf

theorem execCompress_inv {s t : State} (h : Inv s) (he : s.engine ≠ .idle) (hc : execCompress s = .next t) :
    Inv t := by
  unfold execCompress at hc
  split at hc
  · cases hc
    exact State.raise_inv h _ _
  · rename_i hlegal
    split at hc
    · cases hc
      exact State.raise_inv h _ _
    · have hbegun : Inv { s with engine := .compress Compressor.initial } :=
        h.withCompressor he (not_not.1 hlegal) (Nat.le_of_not_lt ‹_›)
          (by simp [Compressor.ShiftInRange, Compressor.initial])
      exact settle_keeps hbegun (finishCompressor_inv hbegun) hc

/-! ### The device's move -/

theorem execMaxlen_inv {s t : State} (h : Inv s) (hm : execMaxlen s = .next t) : Inv t := by
  unfold execMaxlen at hm
  split at hm <;> cases hm
  · exact State.raise_inv h _ _
  · exact State.finish_inv h _ _ _ _

/-- Every instruction keeps the invariant while a command is at work. -/
theorem exec_inv {i : Instr} {s t : State} (h : Inv s) (he : s.engine ≠ .idle) (hi : exec i s = .next t) : Inv t := by
  cases i with
  | lit | lit1 | lit2 | lit3 | lit4 => exact doLiteral_inv h hi
  | copy1 | copy2 | copy4 => exact doCopy_inv h hi
  | nop =>
    cases hi
    exact State.finish_inv h _ _ _ _
  | compress => exact execCompress_inv h he hi
  | decompress => exact execDecompress_inv h he hi
  | maxlen => exact execMaxlen_inv h hi

theorem deviceMove_inv {s t : State} (h : Inv s) (hm : deviceMove s = .next t) : Inv t := by
  unfold deviceMove at hm
  split at hm
  case h_1 =>
    cases hm
    exact h
  case h_2 v he =>
    split at hm
    · exact exec_inv h (by simp [he]) hm
    · cases hm
      exact State.raise_inv h _ _
  case h_3 c he =>
    split at hm
    · exact finishCompressor_inv h hm
    · exact compressorAction_inv h he hm
  case h_4 d he =>
    split at hm
    · exact finishDecompressor_inv h hm
    · exact decompressorAction_inv (fun _ hu => exec_inv hu (by simp [he])) h hm

/-! ### The host's move and the step -/

theorem State.accept_inv {s : State} (h : Inv s) (v : Word) : Inv (s.accept v) :=
  have hst := Status.accepted_consistent v
  { mem := h.mem
    table := h.table
    busy := iff_of_true rfl (by simp)
    notBoth := hst.notBoth
    errDone := hst.errDone
    noCode := hst.noCode
    code := hst.code
    latched := fun _ => rfl
    decompressor := fun d he => by cases he
    compressor := fun c he => by cases he }

/-- While idle the configuration may differ from the latches (R45, R64). -/
theorem Inv.withCfg {s : State} (h : Inv s) (hidle : s.status.busy = false) (r : Regions) :
    Inv { s with cfg := r } :=
  { h with latched := fun hb => absurd (hidle.symm.trans hb) Bool.false_ne_true }

theorem State.writeReg_inv {s : State} (h : Inv s) (offset : Nat) (v : Word) : Inv (s.writeReg offset v) := by
  rcases s.writeReg_cases offset v with heq | ⟨-, heq⟩ | ⟨hidle, heq | ⟨r, heq⟩⟩ <;> rw [heq]
  · exact h
  · exact { h with }
  · exact State.accept_inv h v
  · exact h.withCfg hidle r

theorem hostMove_inv {a : HostAction} {s t : State} (h : Inv s) (hm : hostMove a s = .next t) : Inv t := by
  rcases hostMove_next hm with ⟨addr, width, offset, -, -, rfl⟩ | ⟨addr, width, v, offset, -, -, rfl⟩
      | ⟨addr, -, -, rfl⟩ | ⟨addr, b, -, -, rfl⟩ | ⟨-, rfl⟩
  · exact { h with }
  · exact State.writeReg_inv h offset v
  · obtain ⟨data, draws, heq⟩ := s.hostRead_eq addr
    exact heq ▸ { h with }
  · exact { h with mem := Memory.write_wf h.mem _ _ }
  · exact State.resetEvent_inv h

/-- Settles O53: the device's move and the host's keep the invariant, which does not speak of the schedule. -/
theorem stepKeepsInvariant : Obligations.StepKeepsInvariant :=
  fun _ _ h hstep =>
    step_keeps (fun _ _ h => { h with }) (fun _ _ => deviceMove_inv) (fun _ _ _ => hostMove_inv) h hstep

end Sys2Proof.Machine
end

section
/-! The compressor's invariant (10_state.md R57; 40_compressor.md R174, R177, R184): every action keeps it, phase by
phase, and so does every step (O54). The idea of each phase is a bound on what the hash table holds: no position past
the scan position, and below it while a probe stands there. -/

namespace Sys2Proof.Machine

/-! ### Positions in the hash table -/

theorem Compressor.InWindow.hash_lt {n : Nat} {c : Compressor} (h : c.InWindow n) (v : Word) :
    hash c.shift v < c.ts := by
  rw [h.shift, h.ts]
  exact hash_lt_tableSize _ v

/-- No position in the first `ts` entries, relative to `wb`, is past `p`. -/
def HashTable.UpTo (t : HashTable) (ts wb p : Nat) : Prop := ∀ h, h < ts → wb + (t.get h).toNat ≤ p

theorem HashTable.UpTo.mono {t : HashTable} {ts wb p q : Nat} (h : t.UpTo ts wb p) (hpq : p ≤ q) : t.UpTo ts wb q :=
  fun i hi => (h i hi).trans hpq

/-- Recording the position `q` keeps the bound `p`, if `q` does not pass it. -/
theorem HashTable.UpTo.set {t : HashTable} {ts wb p q : Nat} (h : t.UpTo ts wb p) (hwb : wb ≤ q) (hq : q ≤ p)
    (i : Nat) : (t.set i (BitVec.ofNat 16 (q - wb))).UpTo ts wb p := by
  intro j hj
  rw [HashTable.get_set]
  split
  · have := Nat.mod_le (q - wb) (2 ^ 16)
    rw [BitVec.toNat_ofNat]
    omega
  · exact h j hj

theorem HashTable.clear_upTo (t : HashTable) (ts wb : Nat) : (t.clear ts).UpTo ts wb wb := by
  intro i hi
  simp [HashTable.get_clear, hi]

/-! ### One action -/

theorem windowSetup_inv {n : Nat} {c : Compressor} (hwb : c.wb < n) (hal : c.wb % Config.window = 0) (t : HashTable) :
    (windowSetup n c t).1.inv n (windowSetup n c t).2 := by
  have hnonempty : c.wb < min n (c.wb + Config.window) := lt_min hwb (Nat.lt_add_of_pos_right (by decide))
  exact ⟨⟨hal, hnonempty, rfl, rfl, rfl, rfl, Nat.le_refl _, Nat.le_refl _⟩, hnonempty.le, t.clear_upTo _ _⟩

theorem scanTest_inv {n : Nat} {c : Compressor} {t : HashTable} (hw : c.InWindow n) (hip : c.ip ≤ c.we)
    (ht : t.UpTo c.ts c.wb c.ip) : (scanTest c).inv n t := by
  have hemit := hw.emitted
  unfold scanTest
  split <;> rename_i hlim
  · exact ⟨{ hw with emitted := by simp only; omega }, by simp only; omega, by simp only; omega, Nat.le_refl _,
      fun i hi => Nat.lt_succ_of_le (ht i hi)⟩
  · exact ⟨{ hw with }, hemit.trans hip, hip⟩

theorem probe_inv {n : Nat} {src : Nat → Byte} {c : Compressor} {t : HashTable} (hw : c.InWindow n)
    (hemit : c.nextEmit < c.ip) (hlim : (c.ip : Int) ≤ c.ipLimit + 1) (hskip : Config.skipInit ≤ c.skip)
    (ht : ∀ h, h < c.ts → c.wb + (t.get h).toNat < c.ip) (hp : c.phase = .probe) :
    (probe src c t).1.inv n (probe src c t).2.1 := by
  have hbase := hw.base
  by_cases hprobes : c.probes
  · rw [probe_of_probes hprobes rfl rfl]
    have hup : (t.set (hash c.shift (load32 src c.ip)) (BitVec.ofNat 16 (c.ip - c.wb))).UpTo c.ts c.wb c.ip :=
      HashTable.UpTo.set (fun i hi => (ht i hi).le) (by omega) (Nat.le_refl _) _
    dsimp only
    split
    · have hcand := ht _ (hw.hash_lt (load32 src c.ip))
      have hstay : (c.ip : Int) ≤ c.ipLimit := (Int.ofNat_le.2 (Nat.le_add_right _ _)).trans hprobes
      exact ⟨{ hw with }, hstay, Nat.le_add_right _ _, hcand, hup⟩
    · have hstride : 1 ≤ c.skip >>> Config.skipShift := by
        rw [Nat.shiftRight_eq_div_pow]
        exact Nat.div_pos hskip (by decide)
      simp only [Compressor.inv, hp]
      exact ⟨{ hw with emitted := by simp only; omega }, by omega,
        by simp only [Compressor.probes] at hprobes; omega, by omega,
        fun i hi => (hup i hi).trans_lt (by omega)⟩
  · rw [probe_of_not_probes hprobes]
    have hlimit := hw.limit
    simp only [Config.inputMargin] at hlimit
    exact ⟨{ hw with }, by simp only; omega, by simp only; omega⟩

theorem copyTurn_inv {n : Nat} {src : Nat → Byte} {c : Compressor} {t : HashTable} (hw : c.InWindow n)
    (hlim : (c.ip : Int) ≤ c.ipLimit) (ht : t.UpTo c.ts c.wb c.ip) (hp : c.phase = .copy) :
    (copyTurn src c t).1.inv n (copyTurn src c t).2.1 := by
  have hbase := hw.base
  have hemit := hw.emitted
  have hlimit := hw.limit
  simp only [Config.inputMargin] at hlimit
  obtain ⟨m, hm, hmax, ⟨-, heq⟩ | ⟨hgo, u, before, here, cand, hu, -, hhere, hcand, heq⟩⟩ := copyTurn_cases src c t
    <;> rw [heq]
  · have hend : c.ip + m ≤ c.we := by omega
    exact ⟨{ hw with base := by simp only; omega, emitted := Nat.le_refl _ }, hend, ht.mono (Nat.le_add_right _ m)⟩
  · have hend : c.ip + m ≤ c.we := by omega
    have hup : u.UpTo c.ts c.wb (c.ip + m - 1) := by
      rw [hu]
      exact (ht.mono (by omega)).set (by omega) (Nat.le_refl _) _
    have hup' : (u.set here (BitVec.ofNat 16 (c.ip + m - c.wb))).UpTo c.ts c.wb (c.ip + m) :=
      (hup.mono (by omega)).set (by omega) (Nat.le_refl _) _
    dsimp only
    split
    · have hbelow : cand < c.ip + m := by
        have := hup here (hhere ▸ hw.hash_lt _)
        omega
      simp only [Compressor.inv, hp]
      exact ⟨{ hw with base := by simp only; omega, emitted := Nat.le_refl _ }, hgo.le,
        hcand ▸ Nat.le_add_right _ _, hbelow, hup'⟩
    · exact ⟨{ hw with base := by simp only; omega, emitted := Nat.le_refl _ }, hend, hup'⟩

theorem remainder_inv {n : Nat} {c : Compressor} (hw : c.InWindow n) (hip : c.ip ≤ c.we) (src : Nat → Byte)
    (t : HashTable) : (remainder src c).1.inv n t := by
  have hends := hw.ends
  have hal := hw.aligned
  refine ⟨by simp only [remainder]; omega, ?_, hip⟩
  simp only [remainder, Config.window] at hends hal ⊢
  omega

/-- Every action of the compressor keeps its invariant. -/
theorem Compressor.act_inv {n : Nat} {c : Compressor} {t : HashTable} (h : c.inv n t) (hf : ¬ c.finished n)
    (src : Nat → Byte) : (c.act n src t).1.inv n (c.act n src t).2.1 := by
  cases hp : c.phase with
  | header =>
    simp only [Compressor.inv, hp] at h
    obtain ⟨-, hwb, hip⟩ := h
    rw [Compressor.act_header n src t hp]
    exact ⟨by simp [hwb], .inr (by simp [hwb]), by simp [hip]⟩
  | window =>
    simp only [Compressor.inv, hp] at h
    obtain ⟨-, hwb, -⟩ := h
    have hlt : c.wb < n := Nat.lt_of_not_le fun hle => hf ⟨hp, hle⟩
    rw [Compressor.act_window n src t hp]
    exact windowSetup_inv hlt (hwb.resolve_left hlt.ne) t
  | scan =>
    simp only [Compressor.inv, hp] at h
    obtain ⟨hw, hip, ht⟩ := h
    rw [Compressor.act_scan n src t hp]
    exact scanTest_inv hw hip ht
  | probe =>
    simp only [Compressor.inv, hp] at h
    obtain ⟨hw, hemit, hlim, hskip, ht⟩ := h
    rw [Compressor.act_probe n src t hp]
    exact probe_inv hw hemit hlim hskip ht hp
  | copy =>
    simp only [Compressor.inv, hp] at h
    obtain ⟨hw, hlim, -, -, ht⟩ := h
    rw [Compressor.act_copy n src t hp]
    exact copyTurn_inv hw hlim ht hp
  | tail =>
    simp only [Compressor.inv, hp] at h
    obtain ⟨hw, -, hip⟩ := h
    rw [Compressor.act_tail n src t hp]
    exact remainder_inv hw hip src t

/-- Once the header is written, no action goes back before it. -/
theorem Compressor.act_phase_ne_header (n : Nat) (src : Nat → Byte) (c : Compressor) (t : HashTable) :
    (c.act n src t).1.phase ≠ .header := by
  cases hp : c.phase with
  | header => simp [Compressor.act_header n src t hp]
  | window => simp [Compressor.act_window n src t hp, windowSetup]
  | scan =>
    rw [Compressor.act_scan n src t hp, scanTest]
    split <;> simp
  | probe =>
    rw [Compressor.act_probe n src t hp]
    by_cases h : c.probes
    · rw [probe_of_probes h rfl rfl]
      dsimp only
      split <;> simp [hp]
    · simp [probe_of_not_probes h]
  | copy =>
    rw [Compressor.act_copy n src t hp]
    obtain ⟨m, -, -, ⟨-, heq⟩ | ⟨-, u, before, here, cand, -, -, -, -, heq⟩⟩ := copyTurn_cases src c t
      <;> rw [heq]
    · simp
    · dsimp only
      split <;> simp [hp]
  | tail => simp [Compressor.act_tail n src t hp, remainder]

/-- After the header the invariant does not speak of `op`. -/
theorem Compressor.inv_withOp {n : Nat} {c : Compressor} {t : HashTable} (h : c.inv n t) (hp : c.phase ≠ .header)
    (op : Nat) : ({ c with op := op } : Compressor).inv n t := by
  cases hc : c.phase with
  | header => exact absurd hc hp
  | window => simpa only [Compressor.inv, hc] using h
  | scan | probe | copy | tail =>
    simp only [Compressor.inv, hc] at h ⊢
    obtain ⟨hw, hrest⟩ := h
    exact ⟨{ hw with }, hrest⟩

/-! ### A running COMPRESS -/

/-- COMPRESS does not run. -/
def State.NotCompressing (s : State) : Prop := ∀ c, s.engine ≠ .compress c

theorem State.NotCompressing.compressorInv {s : State} (h : s.NotCompressing) : CompressorInv s :=
  fun c hc => absurd hc (h c)

theorem State.notCompressing_of_idle {s : State} (h : s.engine = .idle) : s.NotCompressing := by
  simp [State.NotCompressing, h]

theorem compressorWork_compressorInv {s : State} {c : Compressor} (h : c.inv s.latch.srcLen.toNat s.table)
    (hf : ¬ c.finished s.latch.srcLen.toNat) : CompressorInv (compressorWork s c) := by
  intro c' hc'
  unfold compressorWork at hc' ⊢
  dsimp only at hc' ⊢
  split at hc' <;> rename_i hmode <;> cases hc'
  · rw [if_pos hmode]
    simp only [Compressor.inv, hmode.2] at h
    exact ⟨Nat.le_refl _, .inl rfl, by simp [h.2.2]⟩
  · rw [if_neg hmode]
    exact Compressor.inv_withOp (Compressor.act_inv h hf _) (Compressor.act_phase_ne_header _ _ _ _) _

theorem compressorAction_compressorInv {s t : State} {c : Compressor} (h : CompressorInv s)
    (he : s.engine = .compress c) (ha : compressorAction s c = .next t) : CompressorInv t := by
  have hc := h c he
  rcases compressorAction_cases s c with ⟨-, hend⟩ | ⟨-, -, hf⟩ | ⟨-, -, hb⟩ | ⟨hfin, -, hw | hw⟩
  · rw [hend] at ha; cases ha
    exact (State.notCompressing_of_idle rfl).compressorInv
  · rw [hf] at ha; cases ha
  · rw [hb] at ha; cases ha
    exact (State.notCompressing_of_idle rfl).compressorInv
  · rw [hw] at ha; cases ha
    exact compressorWork_compressorInv hc hfin
  · rw [hw] at ha; cases ha
    exact compressorWork_compressorInv (by simpa using hc) (by simpa using hfin)

theorem finishCompressor_compressorInv {s t : State} (h : CompressorInv s) (hf : finishCompressor s = .next t) :
    CompressorInv t :=
  runCompressor_keeps (fun _ _ _ hs he => compressorAction_compressorInv hs he) _ h hf

theorem Compressor.initial_inv (n : Nat) (t : HashTable) : Compressor.initial.inv n t := ⟨rfl, rfl, rfl⟩

theorem execCompress_compressorInv {s t : State} (hc : execCompress s = .next t) : CompressorInv t := by
  unfold execCompress at hc
  split at hc
  · cases hc
    exact (State.notCompressing_of_idle rfl).compressorInv
  · split at hc
    · cases hc
      exact (State.notCompressing_of_idle rfl).compressorInv
    · have hbegun : CompressorInv { s with engine := .compress Compressor.initial } := by
        intro c he
        cases he
        exact Compressor.initial_inv _ _
      exact settle_keeps hbegun (finishCompressor_compressorInv hbegun) hc

/-! ### The other commands -/

theorem ElementEffect.notCompressing {s t : State} {d : Decompressor} {tb taken len src : Nat}
    (h : ElementEffect s d tb taken len src t) : t.NotCompressing := by
  rcases h with rfl | ⟨-, rfl⟩ | ⟨-, -, -, rfl⟩ <;> simp [State.NotCompressing]

theorem doLiteral_notCompressing {tb len : Nat} {s t : State} (h : doLiteral tb len s = .next t) :
    t.NotCompressing := by
  obtain ⟨d, -, -, heff⟩ := doLiteral_next h
  exact heff.notCompressing

theorem doCopy_notCompressing {tb off len : Nat} {s t : State} (h : doCopy tb off len s = .next t) :
    t.NotCompressing := by
  obtain ⟨d, -, -, heff, -⟩ := doCopy_next h
  exact heff.notCompressing

theorem execElement_notCompressing {i : Instr} {s t : State} (h : execElement i s = .next t) : t.NotCompressing := by
  cases i with
  | lit | lit1 | lit2 | lit3 | lit4 => exact doLiteral_notCompressing h
  | copy1 | copy2 | copy4 => exact doCopy_notCompressing h
  | nop | compress | decompress | maxlen => cases h

theorem finishDecompressor_notCompressing {s t : State} (h : s.NotCompressing) (hf : finishDecompressor s = .next t) :
    t.NotCompressing := by
  refine runDecompressor_keeps (fun u d v _ _ ha => ?_) _ h hf
  rcases decompressorAction_ends_or_runs ha with hidle | ⟨i, hi⟩
  · exact State.notCompressing_of_idle hidle
  · exact execElement_notCompressing hi

theorem HeaderEffect.notCompressing {u t : State} (h : HeaderEffect u t) : t.NotCompressing := by
  rcases h with ⟨pos, rfl⟩ | ⟨len, hlen, -, rfl | ⟨-, rfl⟩⟩ <;> simp [State.NotCompressing]

theorem execDecompress_notCompressing {s t : State} (hd : execDecompress s = .next t) : t.NotCompressing := by
  unfold execDecompress at hd
  split at hd
  · cases hd
    exact State.notCompressing_of_idle rfl
  · obtain ⟨u, hu, hd⟩ := andThen_eq_next hd
    have hbegun : u.NotCompressing := by
      rcases beginDecompress_next hu with rfl | heff | heff
      · exact State.notCompressing_of_idle rfl
      · exact heff.notCompressing
      · exact heff.notCompressing
    exact settle_keeps hbegun (finishDecompressor_notCompressing hbegun) hd

theorem execMaxlen_notCompressing {s t : State} (h : execMaxlen s = .next t) : t.NotCompressing := by
  unfold execMaxlen at h
  split at h <;> cases h <;> exact State.notCompressing_of_idle rfl

/-- Every instruction leaves the compressor's invariant in force: only COMPRESS leaves a compressor at work. -/
theorem exec_compressorInv {i : Instr} {s t : State} (h : exec i s = .next t) : CompressorInv t := by
  cases i with
  | lit | lit1 | lit2 | lit3 | lit4 => exact (doLiteral_notCompressing h).compressorInv
  | copy1 | copy2 | copy4 => exact (doCopy_notCompressing h).compressorInv
  | nop =>
    cases h
    exact (State.notCompressing_of_idle rfl).compressorInv
  | compress => exact execCompress_compressorInv h
  | decompress => exact (execDecompress_notCompressing h).compressorInv
  | maxlen => exact (execMaxlen_notCompressing h).compressorInv

/-! ### The step -/

theorem deviceMove_compressorInv {s t : State} (h : CompressorInv s) (hm : deviceMove s = .next t) :
    CompressorInv t := by
  unfold deviceMove at hm
  split at hm
  case h_1 =>
    cases hm
    exact h
  case h_2 =>
    split at hm
    · exact exec_compressorInv hm
    · cases hm
      exact (State.notCompressing_of_idle rfl).compressorInv
  case h_3 c he =>
    split at hm
    · exact finishCompressor_compressorInv h hm
    · exact compressorAction_compressorInv h he hm
  case h_4 d he =>
    split at hm
    · exact (finishDecompressor_notCompressing (by simp [State.NotCompressing, he]) hm).compressorInv
    · rcases decompressorAction_ends_or_runs hm with hidle | ⟨i, hi⟩
      · exact (State.notCompressing_of_idle hidle).compressorInv
      · exact exec_compressorInv hi

/-- A state with the engine, the latches and the table of another has its compressor's invariant. -/
theorem CompressorInv.congr {s t : State} (h : CompressorInv s) (he : t.engine = s.engine) (hl : t.latch = s.latch)
    (ht : t.table = s.table) : CompressorInv t := by
  intro c hc
  rw [hl, ht]
  exact h c (he ▸ hc)

theorem State.writeReg_compressorInv {s : State} (h : CompressorInv s) (offset : Nat) (v : Word) :
    CompressorInv (s.writeReg offset v) := by
  rcases s.writeReg_cases offset v with heq | ⟨-, heq⟩ | ⟨-, heq | ⟨r, heq⟩⟩ <;> rw [heq]
  · exact h
  · exact h.congr rfl rfl rfl
  · exact fun c hc => by simp at hc
  · exact h.congr rfl rfl rfl

theorem hostMove_compressorInv {a : HostAction} {s t : State} (h : CompressorInv s) (hm : hostMove a s = .next t) :
    CompressorInv t := by
  rcases hostMove_next hm with ⟨addr, width, offset, -, -, rfl⟩ | ⟨addr, width, v, offset, -, -, rfl⟩
      | ⟨addr, -, -, rfl⟩ | ⟨addr, b, -, -, rfl⟩ | ⟨-, rfl⟩
  · exact h.congr rfl rfl rfl
  · exact State.writeReg_compressorInv h offset v
  · obtain ⟨data, draws, heq⟩ := s.hostRead_eq addr
    exact heq ▸ h.congr rfl rfl rfl
  · exact h.congr rfl rfl rfl
  · exact (State.notCompressing_of_idle (by simp)).compressorInv

/-- Settles O54: only an action of COMPRESS touches a running compressor and its table, and each keeps the invariant of
its phase; every other move leaves them as they are or leaves no compressor at work. -/
theorem stepKeepsCompressorInvariant : Obligations.StepKeepsCompressorInvariant :=
  fun _ _ _ h hstep =>
    step_keeps (fun _ _ h => h) (fun _ _ => deviceMove_compressorInv) (fun _ _ _ => hostMove_compressorInv) h hstep

end Sys2Proof.Machine
end

section
/-! The host's side of the state: the register block (10_state.md R31 to R45; O42, O43, O45, O46), the `STATUS` word
(O47), and what a host move leaves of a running command (O59). -/

namespace Sys2Proof.Machine

/-! ### The register block -/

/-- Settles O42: while busy each of the five offsets takes `State.writeReg_of_busy`, and acceptance sets `STATUS`
afresh. -/
theorem writesWhileBusyAreIgnored : Obligations.WritesWhileBusyAreIgnored := by
  unfold Obligations.WritesWhileBusyAreIgnored
  intro s s' a v offset hturn hreg ho
  have haligned : offset % 4 = 0 ∧ offset < 256 := by omega
  rw [step_of_writeReg hturn hreg haligned.1 haligned.2]
  constructor
  · intro hbusy
    rw [State.writeReg_of_busy (hturn.status ▸ hbusy) ho, hturn.status]
    rfl
  · rintro hidle rfl
    exact ⟨_, rfl, by simp [State.writeReg, State.unlessBusy_of_idle (hturn.status ▸ hidle), Status.accepted]⟩

/-- Settles O45: the offsets named are none of the five that take a write. -/
theorem readOnlyRegistersIgnoreWrites : Obligations.ReadOnlyRegistersIgnoreWrites := by
  unfold Obligations.ReadOnlyRegistersIgnoreWrites
  intro s s' a v offset hturn hreg haligned ho
  have hreadOnly : ¬ CommandOrConfigOffset offset := by
    unfold CommandOrConfigOffset
    omega
  rw [step_of_writeReg hturn hreg haligned (by omega), State.writeReg_of_readOnly hreadOnly]

/-- A register whose write sets the configuration to `cfg` and whose read then returns `v`: two steps do both. -/
theorem run_configWrite_read {s : State} {a v : Word} {rest : List Turn} {offset : Nat} {cfg : Regions}
    (ht : s.turns = .host (.writeReg a 4 v) :: .host (.readReg a 4) :: rest) (h : s.registerAt a offset)
    (ho : offset % 4 = 0 ∧ offset < 256)
    (hwrite : ∀ u : State, u.status.busy = false → u.cfg = s.cfg → u.writeReg offset v = { u with cfg := cfg })
    (hread : ∀ u : State, u.cfg = cfg → u.hostReadReg offset = { u with hostData := v })
    (hidle : s.status.busy = false) :
    Host.Core.run Sys2Proof.core 2 s = .next { s with turns := rest, hostData := v, cfg := cfg } := by
  refine run_two (u := { s with turns := .host (.readReg a 4) :: rest, cfg := cfg }) ?_ ?_
  · rw [step_of_host ht, ← hwrite { s with turns := .host (.readReg a 4) :: rest } hidle rfl]
    exact hostMove_writeReg (s := { s with turns := .host (.readReg a 4) :: rest }) h ho.1 ho.2 v
  · rw [step_of_host rfl, ← hread { s with turns := rest, cfg := cfg } rfl]
    exact hostMove_readReg (s := { s with turns := rest, cfg := cfg }) h ho.1 ho.2

/-- Settles O43: while idle each of the four writes sets its field of `cfg`, and the read returns it. -/
theorem configurationReadsBack : Obligations.ConfigurationReadsBack := by
  unfold Obligations.ConfigurationReadsBack
  intro s a v rest ht hidle
  refine ⟨fun h => ?_, fun h => ?_, fun h => ?_, fun h => ?_⟩
  all_goals
    refine run_configWrite_read ht h (by decide) (fun u hu hcfg => ?_) (fun u hcfg => ?_) hidle
    · simp only [State.writeReg, State.unlessBusy_of_idle hu, hcfg]
    · simp [State.hostReadReg, State.readReg, hcfg]

/-- Settles O46: an address in the block passes the first test of `State.registerOffset` and fails the second; any
other fails the first. -/
theorem otherBusAccessesAreRefused : Obligations.OtherBusAccessesAreRefused := by
  unfold Obligations.OtherBusAccessesAreRefused
  intro s s' act a v width hact hturn
  have hparams : s'.params = s.params := by rw [hturn.eq]
  have hrefused (r : Refusal) (h : s'.registerOffset a width = .error r) : step s = .refused r := by
    rw [hturn.step]
    rcases hact with rfl | rfl <;> simp only [hostMove, h]
  constructor
  · intro hlo hhi hshape
    refine hrefused _ ?_
    simp only [State.registerOffset, hparams, Config.blockBytes]
    rw [if_neg (by omega), if_neg (by omega)]
  · intro hout
    refine hrefused _ ?_
    simp only [State.registerOffset, hparams, Config.blockBytes]
    rw [if_pos (by omega)]

/-! ### The `STATUS` word -/

/-- The word bit by bit: the fields from bit 0 up, each at its offset, and zeros above (R35). -/
theorem Status.word_getLsbD (st : Status) (i : Nat) :
    st.word.getLsbD i =
      if i < 1 then (BitVec.ofBool st.busy).getLsbD i
      else if i < 2 then (BitVec.ofBool st.done).getLsbD (i - 1)
      else if i < 3 then (BitVec.ofBool st.err).getLsbD (i - 2)
      else if i < 4 then (BitVec.ofBool st.ignored).getLsbD (i - 3)
      else if i < 8 then st.errCode.getLsbD (i - 4)
      else if i < 10 then st.lastCmd.getLsbD (i - 8)
      else false := by
  have hdone : i - 1 < 1 ↔ i < 2 := by omega
  have herr : i - 2 < 1 ↔ i < 3 := by omega
  have hignored : i - 3 < 1 ↔ i < 4 := by omega
  have hcode : i - 4 < 4 ↔ i < 8 := by omega
  have hlast : i - 8 < 2 ↔ i < 10 := by omega
  change BitVec.getLsbD (w := 22 + 2 + 4 + 1 + 1 + 1 + 1) _ i = _
  simp only [Status.word, BitVec.getLsbD_append]
  simp only [Nat.sub_sub, Nat.reduceAdd, hdone, herr, hignored, hcode, hlast, BitVec.getLsbD_zero]

/-- Settles O47: each field is read at its offset in `Status.word_getLsbD`. -/
theorem statusWordLayout : Obligations.StatusWordLayout := by
  unfold Obligations.StatusWordLayout
  intro st
  have hlow (i : Nat) (h : 4 ≤ i) :
      st.word.getLsbD i = if i < 8 then st.errCode.getLsbD (i - 4)
        else if i < 10 then st.lastCmd.getLsbD (i - 8) else false := by
    rw [Status.word_getLsbD, if_neg (by omega), if_neg (by omega), if_neg (by omega), if_neg (by omega)]
  refine ⟨?_, ?_, ?_, ?_, ?_, ?_, ?_⟩
  · rw [Status.word_getLsbD]; simp
  · rw [Status.word_getLsbD]; simp
  · rw [Status.word_getLsbD]; simp
  · rw [Status.word_getLsbD]; simp
  · ext i hi
    rw [BitVec.extractLsb, BitVec.getElem_extractLsb', hlow _ (by omega), if_pos (by omega),
      Nat.add_sub_cancel_left, BitVec.getLsbD_eq_getElem]
  · ext i hi
    rw [BitVec.extractLsb, BitVec.getElem_extractLsb', hlow _ (by omega), if_neg (by omega), if_pos (by omega),
      Nat.add_sub_cancel_left, BitVec.getLsbD_eq_getElem]
  · ext i hi
    rw [BitVec.extractLsb, BitVec.getElem_extractLsb', hlow _ (by omega), if_neg (by omega), if_neg (by omega)]
    simp

/-! ### A running command -/

/-- What no host move but reset changes while a command runs: its working state, latches, configuration, table and
results, `STATUS` but for `IGNORED`, and the bytes of its regions (R45, R322, R354). -/
structure RunningKept (s t : State) : Prop where
  engine : t.engine = s.engine
  latch : t.latch = s.latch
  cfg : t.cfg = s.cfg
  table : t.table = s.table
  resultLen : t.resultLen = s.resultLen
  expectLen : t.expectLen = s.expectLen
  errPos : t.errPos = s.errPos
  status : t.status = s.status ∨ t.status = { s.status with ignored := true }
  bytes : ∀ x, s.latch.inSrc x ∨ s.latch.inDst x → t.mem.read x = s.mem.read x

theorem RunningKept.refl (s : State) : RunningKept s s :=
  ⟨rfl, rfl, rfl, rfl, rfl, rfl, rfl, .inl rfl, fun _ _ => rfl⟩

/-- Whatever the register, a write while busy at most marks `IGNORED`. -/
theorem State.writeReg_runningKept {s : State} (hbusy : s.status.busy = true) (offset : Nat) (v : Word) :
    RunningKept s (s.writeReg offset v) := by
  rcases s.writeReg_cases offset v with heq | ⟨-, heq⟩ | ⟨hidle, -⟩
  · rw [heq]
    exact .refl s
  · rw [heq]
    exact { RunningKept.refl s with status := .inr rfl }
  · exact absurd (hidle.symm.trans hbusy) Bool.false_ne_true

theorem hostMove_runningKept {s t : State} {a : HostAction} (hbusy : s.status.busy = true) (ha : a ≠ .reset)
    (hm : hostMove a s = .next t) : RunningKept s t := by
  rcases hostMove_next hm with ⟨addr, width, offset, -, -, rfl⟩ | ⟨addr, width, v, offset, -, -, rfl⟩
      | ⟨addr, -, -, rfl⟩ | ⟨addr, b, -, hout, rfl⟩ | ⟨rfl, -⟩
  · exact { RunningKept.refl s with }
  · exact State.writeReg_runningKept hbusy offset v
  · obtain ⟨data, draws, heq⟩ := s.hostRead_eq addr
    exact heq ▸ { RunningKept.refl s with }
  · have hbytes (x : Nat) (hx : s.latch.inSrc x ∨ s.latch.inDst x) :
        (s.mem.write addr.toNat b).read x = s.mem.read x := by
      refine Memory.read_write_ne _ _ ?_
      rintro rfl
      exact hout ⟨hbusy, hx⟩
    exact { RunningKept.refl s with bytes := hbytes }
  · exact absurd rfl ha

/-- Settles O59: no outcome of a host move but reset touches what a running command works on; a memory write that goes
through lies outside its regions. -/
theorem hostCannotDisturbRunningCommand : Obligations.HostCannotDisturbRunningCommand := by
  unfold Obligations.HostCannotDisturbRunningCommand
  intro s s' t a _ hbusy hturn ha hstep
  rw [hturn.step] at hstep
  obtain ⟨rest, -, rfl⟩ := hturn
  have h := hostMove_runningKept (s := { s with turns := rest }) hbusy ha hstep
  exact ⟨h.engine, h.latch, h.cfg, h.table, h.resultLen, h.expectLen, h.errPos, h.status, h.bytes⟩

end Sys2Proof.Machine
end

section
/-! What a step runs (O8), where an element has a meaning (O15), and the state after reset (O51, O52). -/

namespace Sys2Proof.Machine

/-- Settles O8: the device's turn changes the schedule alone, so the accepted value is still there to run. -/
theorem stepRunsAcceptedCommand : Obligations.StepRunsAcceptedCommand := by
  unfold Obligations.StepRunsAcceptedCommand
  intro s s' v i hturn he hi
  have he' : s'.engine = .started v := by rw [hturn.eq]; exact he
  rw [hturn.step]
  simp only [deviceMove, he', hi]

theorem onElement_of_not_decompressing {s : State} (h : ∀ d, s.engine ≠ .decompress d) (tb : Nat)
    (k : Decompressor → Host.Outcome State Fault Refusal) : onElement tb s k = .refused .noElementRunning := by
  unfold onElement
  split
  · exact absurd ‹_› (h _)
  all_goals rfl

theorem onElement_outside_memory {s : State} {d : Decompressor} (he : s.engine = .decompress d)
    (h : ¬ s.latch.inSpace) (tb : Nat) (k : Decompressor → Host.Outcome State Fault Refusal) :
    onElement tb s k = .fault .addressOutsideMemory := by
  rw [onElement_eq he, if_pos h]

/-- Every element form is what `onElement` makes of some continuation. -/
theorem exec_eq_onElement {i : Instr} (h : i.space = .element) (s : State) :
    ∃ tb k, exec i s = onElement tb s k := by
  cases i with
  | lit | lit1 | lit2 | lit3 | lit4 => exact ⟨_, _, rfl⟩
  | copy1 | copy2 | copy4 => exact ⟨_, _, rfl⟩
  | nop | compress | decompress | maxlen => cases h

/-- Settles O15: the test that every element shares comes first. -/
theorem elementNeedsRunningDecompress : Obligations.ElementNeedsRunningDecompress := by
  unfold Obligations.ElementNeedsRunningDecompress
  intro i s hi
  obtain ⟨tb, k, hexec⟩ := exec_eq_onElement hi s
  rw [hexec]
  exact ⟨fun h => onElement_of_not_decompressing h tb k, fun d he h => onElement_outside_memory he h tb k⟩

/-- Settles O51. -/
theorem resetStateValues : Obligations.ResetStateValues := by
  unfold Obligations.ResetStateValues
  exact ⟨by decide, rfl, rfl, rfl, rfl, rfl, rfl, rfl, rfl⟩

/-- Settles O52: the machine is idle after reset. -/
theorem invariantsHoldAtReset : Obligations.InvariantsHoldAtReset :=
  ⟨State.reset_inv, (State.notCompressing_of_idle rfl).compressorInv⟩

end Sys2Proof.Machine
end

section
/-! Memory as the host and the device reach it (20_memory.md): what a host access of memory answers (O48), and how a
memory phase that the platform fails ends the command (O31). -/

namespace Sys2Proof.Machine

/-! ### Host accesses of memory -/

/-- A host write outside the regions of a running command writes the byte (20_memory.md R95). -/
theorem hostMove_writeMem {s : State} {a : Word}
    (h : s.status.busy = false ∨ (¬ s.latch.inSrc a.toNat ∧ ¬ s.latch.inDst a.toNat)) (b : Byte) :
    hostMove (.writeMem a b) s = .next { s with mem := s.mem.write a.toNat b } := by
  refine if_neg ?_
  rintro ⟨hbusy, hin⟩
  rcases h with hidle | ⟨hsrc, hdst⟩
  · exact absurd (hidle.symm.trans hbusy) Bool.false_ne_true
  · exact hin.elim hsrc hdst

/-- A host write into a region of a running command is refused (20_memory.md R95; log 9). -/
theorem hostMove_writeMem_refused {s : State} {a : Word} (hbusy : s.status.busy = true)
    (h : s.latch.inSrc a.toNat ∨ s.latch.inDst a.toNat) (b : Byte) :
    hostMove (.writeMem a b) s = .refused .hostDutyBroken :=
  if_pos ⟨hbusy, h⟩

/-- A host read of a destination whose end the host has not seen is refused (42_commands.md R290; log 24). -/
theorem hostMove_readMem_refused {s : State} {a : Word} (h : s.unseenDst a.toNat) :
    hostMove (.readMem a) s = .refused .hostDutyBroken :=
  if_pos h

/-- Every other host read of memory is made. -/
theorem hostMove_readMem {s : State} {a : Word} (h : ¬ s.unseenDst a.toNat) :
    hostMove (.readMem a) s = .next (s.hostRead a) :=
  if_neg h

/-- A host read outside the destination of a running command returns the byte (20_memory.md R80). -/
theorem State.hostRead_outside {s : State} {a : Word} (h : s.status.busy = false ∨ ¬ s.latch.inDst a.toNat) :
    s.hostRead a = { s with hostData := (s.mem.read a.toNat).zeroExtend 32 } := by
  refine if_neg ?_
  rintro ⟨hbusy, hin⟩
  rcases h with hidle | hout
  · exact absurd (hidle.symm.trans hbusy) Bool.false_ne_true
  · exact hout hin

/-- A host read of the destination of a running command draws a free value (20_memory.md R95; log 9). -/
theorem State.hostRead_running {s : State} {a : Word} (hbusy : s.status.busy = true) (h : s.latch.inDst a.toNat) :
    s.hostRead a =
      { s with hostData := (Config.freeByte s.draws a.toNat).zeroExtend 32, draws := s.draws + 1 } :=
  if_pos ⟨hbusy, h⟩

/-- Settles O48: the host's turn changes the schedule alone, and each clause is one branch of the host's access. -/
theorem hostMemoryAccess : Obligations.HostMemoryAccess := by
  unfold Obligations.HostMemoryAccess
  intro s s' a
  refine ⟨fun b hturn => ?_, fun hturn => ?_⟩
  · rw [hturn.step]
    obtain ⟨rest, -, rfl⟩ := hturn
    constructor
    · intro hout
      exact ⟨_, hostMove_writeMem (s := { s with turns := rest }) hout b, Memory.read_write_same _ _ _,
        fun a' ha => Memory.read_write_ne _ _ ha.symm, rfl⟩
    · intro hbusy hin
      exact hostMove_writeMem_refused (s := { s with turns := rest }) hbusy hin b
  · rw [hturn.step]
    obtain ⟨rest, -, rfl⟩ := hturn
    refine ⟨fun hunseen => hostMove_readMem_refused (s := { s with turns := rest }) hunseen, fun hseen => ?_⟩
    rw [hostMove_readMem (by simpa [State.unseenDst] using hseen)]
    constructor
    · intro hout
      rw [State.hostRead_outside (s := { s with turns := rest }) hout]
    · intro hbusy hin
      exact ⟨_, rfl, by rw [State.hostRead_running (s := { s with turns := rest }) hbusy hin]⟩

/-! ### A failed memory phase -/

/-- A failed phase ends the command with `BUS_ERROR(0)` (60_exceptions.md R312, R315). -/
theorem State.busError_ended (s : State) :
    Ended s (s.busNext.raiseSpoiled .busError 0) (some .busError) 0 s.decodedLen.toNat 0 := by
  have hframe : DeviceFrame s s.busNext :=
    ⟨s.busNext_params, s.busNext_cfg, s.busNext_latch, s.busNext_turns, s.busNext_hostData⟩
  have hlen : s.busNext.decodedLen = s.decodedLen := by
    simp only [State.decodedLen, State.busNext_engine]
  rw [← hlen]
  exact (s.busNext.raiseSpoiled_ended .busError (by decide)).congr hframe s.busNext_status s.busNext_unseen

/-- A failed phase leaves at most the destination unspecified (log 18). -/
theorem State.busError_outside (s : State) : SameOutsideDst s (s.busNext.raiseSpoiled .busError 0) := by
  simpa [SameOutsideDst] using s.busNext.raiseSpoiled_outside .busError 0

/-- An outcome that is a failed phase ends the command with `BUS_ERROR(0)`; `EXPECT_LEN` is `L` if it is known. -/
theorem busError_ends {s : State} {o : Host.Outcome State Fault Refusal} {expect : Nat}
    (h : o = .next (s.busNext.raiseSpoiled .busError 0)) (hexpect : s.decodedLen.toNat = expect) :
    ∃ t, o = .next t ∧ Ended s t (some .busError) 0 expect 0 ∧ SameOutsideDst s t :=
  ⟨_, h, hexpect ▸ s.busError_ended, s.busError_outside⟩

/-- On the device's turn the same holds of the step, whose schedule has gone on. -/
theorem DeviceTurn.busError_ends {s s' : State} {expect : Nat} (hturn : DeviceTurn s s')
    (h : deviceMove s' = .next (s'.busNext.raiseSpoiled .busError 0)) (hexpect : s'.decodedLen.toNat = expect) :
    ∃ t, Machine.step s = .next t ∧ Ended s' t (some .busError) 0 expect 0 ∧ SameOutsideDst s t := by
  obtain ⟨t, hmove, hended, hout⟩ := Machine.busError_ends h hexpect
  rw [hturn.eq] at hout
  exact ⟨t, hturn.step.trans hmove, hended, hout⟩

/-! ### The decompressor's memory phases -/

theorem State.decodedLen_of_decompress {s : State} {d : Decompressor} (he : s.engine = .decompress d) :
    s.decodedLen = d.expect := by
  simp only [State.decodedLen, he]

/-- The fetch of an element (41_decompressor.md R234), in the run of a whole command as in one action of it. -/
theorem deviceMove_decompress_of_fails {s : State} {d : Decompressor} (hb : s.busFails = true)
    (he : s.engine = .decompress d) (hsp : s.latch.inSpace) (hlt : d.inPos < s.latch.srcLen.toNat) :
    deviceMove s = .next (s.busNext.raiseSpoiled .busError 0) := by
  have haction (run) : decompressorAction run s d = .next (s.busNext.raiseSpoiled .busError 0) := by
    rw [decompressorAction, if_pos hlt, if_neg (not_not_intro hsp), State.onBus_of_fails hb]
  simp only [deviceMove, he]
  split
  · rw [finishDecompressor, runDecompressor_succ he, haction, andThen_next,
      runDecompressor_of_not_running (by simp)]
  · exact haction exec

/-- The byte moves of a literal that fits (41_decompressor.md R236). -/
theorem doLiteral_of_fails {s : State} {d : Decompressor} {tb len : Nat} (hb : s.busFails = true)
    (he : s.engine = .decompress d) (hsp : s.latch.inSpace)
    (hsrc : d.inPos + 1 + tb + len ≤ s.latch.srcLen.toNat) (hdst : d.outPos + len ≤ s.latch.dstCap.toNat) :
    doLiteral tb len s = .next (s.busNext.raiseSpoiled .busError 0) := by
  rw [doLiteral, onElement_eq he, if_neg (not_not_intro hsp), if_neg (by omega), if_neg (by omega),
    State.onBus_of_fails hb]

/-- The byte moves of a copy that fits (41_decompressor.md R242). -/
theorem doCopy_of_fails {s : State} {d : Decompressor} {tb off len : Nat} (hb : s.busFails = true)
    (he : s.engine = .decompress d) (hsp : s.latch.inSpace) (hsrc : d.inPos + 1 + tb ≤ s.latch.srcLen.toNat)
    (hoff : 1 ≤ off ∧ off ≤ d.outPos) (hdst : d.outPos + len ≤ s.latch.dstCap.toNat) :
    doCopy tb off len s = .next (s.busNext.raiseSpoiled .busError 0) := by
  rw [doCopy, onElement_eq he, if_neg (not_not_intro hsp), if_neg (by omega), if_neg (by omega),
    State.onBus_of_fails hb]

theorem exec_eq_doLiteral {i : Instr} {len : Nat}
    (hi : i = .lit len ∨ i = .lit1 len ∨ i = .lit2 len ∨ i = .lit3 len ∨ i = .lit4 len) (s : State) :
    exec i s = doLiteral i.trailer len s := by
  rcases hi with rfl | rfl | rfl | rfl | rfl <;> rfl

theorem exec_eq_doCopy {i : Instr} {off len : Nat}
    (hi : i = .copy1 off len ∨ i = .copy2 off len ∨ i = .copy4 off len) (s : State) :
    exec i s = doCopy i.trailer off len s := by
  rcases hi with rfl | rfl | rfl <;> rfl

/-- The read of the header (41_decompressor.md R231); an empty source has no byte to read. -/
theorem exec_decompress_of_fails {s : State} (hb : s.busFails = true) (hlegal : s.latch.legal)
    (hlen : 0 < s.latch.srcLen.toNat) :
    exec .decompress s = .next (s.busNext.raiseSpoiled .busError 0) := by
  have hbegin : beginDecompress s = .next (s.busNext.raiseSpoiled .busError 0) := by
    rw [beginDecompress, if_neg (by omega), State.onBus_of_fails hb]
  have hsettle (u : State) (hu : u.engine = .idle) : settle finishDecompressor u = .next u := by
    rw [settle]
    split
    · exact runDecompressor_of_not_running (by simp [hu]) _
    · rfl
  rw [exec, execDecompress, if_neg (not_not_intro hlegal), hbegin, andThen_next, hsettle _ rfl]

/-! ### The compressor's memory phases, and its actions without one -/

/-- The stride of the scan is `skip / 32` (40_compressor.md R177). -/
theorem Compressor.probes_iff (c : Compressor) : c.probes ↔ ((c.ip + c.skip / 32 : Nat) : Int) ≤ c.ipLimit := by
  rw [Compressor.probes, Nat.shiftRight_eq_div_pow]
  rfl

/-- The actions that access memory (log 6). -/
theorem Compressor.onMemory_iff (c : Compressor) :
    c.onMemory = true ↔ c.phase = .header ∨ (c.phase = .probe ∧ c.probes) ∨ c.phase = .copy
      ∨ (c.phase = .tail ∧ c.pending) := by
  cases hp : c.phase <;> simp [Compressor.onMemory, hp]

/-- An action of the compressor that accesses memory, in the run of a whole command as alone. -/
theorem deviceMove_compress_of_fails {s : State} {c : Compressor} (hb : s.busFails = true)
    (he : s.engine = .compress c) (hsp : s.latch.inSpace) (hmem : c.onMemory = true) :
    deviceMove s = .next (s.busNext.raiseSpoiled .busError 0) := by
  have hgoes : ¬ c.finished s.latch.srcLen.toNat := by
    rintro ⟨hp, -⟩
    simp [Compressor.onMemory, hp] at hmem
  have haction : compressorAction s c = .next (s.busNext.raiseSpoiled .busError 0) := by
    rw [compressorAction, if_neg hgoes, if_neg (not_not_intro hsp), if_pos hmem, State.onBus_of_fails hb]
  simp only [deviceMove, he]
  split
  · rw [finishCompressor, compressorActions, runCompressor_succ he, haction, andThen_next,
      runCompressor_of_not_running (by simp)]
  · exact haction

/-- An action that accesses no memory writes the engine and the table alone. -/
theorem compressorWork_of_not_onMemory {c : Compressor} (h : c.onMemory = false) (s : State) :
    ∃ c' t, compressorWork s c = s.emit c' t [] := by
  have hp : c.phase ≠ .header := by
    intro hp
    simp [Compressor.onMemory, hp] at h
  have hact := Compressor.act_of_not_onMemory h s.latch.srcLen.toNat s.srcByte s.table
  exact ⟨_, _, (if_neg fun hr => hp hr.2).trans (congrArg (s.emit _ _) hact)⟩

/-- Such an action is the step, whatever the platform's plan says. -/
theorem step_of_not_onMemory {s : State} {c : Compressor} {u : Turn} {rest : List Turn}
    (hturns : s.turns = .device :: u :: rest) (he : s.engine = .compress c) (hsp : s.latch.inSpace)
    (hmem : c.onMemory = false) (hgoes : ¬ c.finished s.latch.srcLen.toNat) :
    ∃ c' t, step s = .next (State.emit { s with turns := u :: rest } c' t []) := by
  obtain ⟨c', t, hwork⟩ := compressorWork_of_not_onMemory hmem { s with turns := u :: rest }
  refine ⟨c', t, ?_⟩
  rw [step_of_device hturns, ← hwork]
  simp only [deviceMove, he]
  rw [if_neg (List.cons_ne_nil u rest)]
  exact compressorAction_of_not_onMemory hmem hgoes hsp

/-- Settles O31: every phase of the model goes through `State.onBus`, which ends the command when the platform fails
it; an action without an access does not ask the platform. -/
theorem busFaultEndsTheCommand : Obligations.BusFaultEndsTheCommand := by
  unfold Obligations.BusFaultEndsTheCommand
  intro s
  refine ⟨State.busFails_eq_false, fun hb => ⟨?fetch, ?moves, ?header, ?compressor⟩, ?noAccess⟩
  case fetch =>
    intro s' d hturn he hsp hlt
    refine hturn.busError_ends ?_ (congrArg BitVec.toNat (State.decodedLen_of_decompress ?_))
    all_goals rw [hturn.eq]
    · exact deviceMove_decompress_of_fails hb he hsp hlt
    · exact he
  case moves =>
    intro i d hinv he h
    obtain ⟨⟨-, hsp, -⟩, -⟩ := hinv.decompressor d he
    refine busError_ends ?_ (congrArg BitVec.toNat (State.decodedLen_of_decompress he))
    rcases h with ⟨len, hi, hsrc, hdst⟩ | ⟨off, len, hi, hsrc, hpos, hle, hdst⟩
    · rw [exec_eq_doLiteral hi, doLiteral_of_fails hb he hsp hsrc hdst]
    · rw [exec_eq_doCopy hi, doCopy_of_fails hb he hsp hsrc ⟨hpos, hle⟩ hdst]
  case header =>
    intro v he hlegal hlen
    exact busError_ends (exec_decompress_of_fails hb hlegal hlen) (by simp [State.decodedLen, he])
  case compressor =>
    intro s' c hturn he hsp hphase
    have hmem : c.onMemory = true := c.onMemory_iff.2 (by rwa [c.probes_iff])
    refine hturn.busError_ends ?_ ?_
    all_goals rw [hturn.eq]
    · exact deviceMove_compress_of_fails hb he hsp hmem
    · simp [State.decodedLen, he]
  case noAccess =>
    intro c u rest hturns he hsp hphase
    have hmem : c.onMemory = false := by
      rcases hphase with ⟨hp, -⟩ | hp | ⟨hp, hlt⟩ | ⟨hp, hle⟩
      · simp [Compressor.onMemory, hp]
      · simp [Compressor.onMemory, hp]
      · simp only [Compressor.onMemory, hp, c.probes_iff, decide_eq_false_iff_not, not_le, hlt]
      · simp only [Compressor.onMemory, hp, decide_eq_false_iff_not, not_lt, hle]
    have hgoes : ¬ c.finished s.latch.srcLen.toNat := by
      rintro ⟨hp, hle⟩
      rcases hphase with ⟨-, hlt⟩ | hp' | ⟨hp', -⟩ | ⟨hp', -⟩
      · omega
      all_goals simp [hp] at hp'
    obtain ⟨c', t, hstep⟩ := step_of_not_onMemory hturns he hsp hmem hgoes
    exact ⟨_, _, hstep, rfl, rfl, rfl, fun _ => rfl⟩

end Sys2Proof.Machine
end

section
/-! The element forms as a table (30_encoding.md R124 to R132): each form's tag, the length of its trailer and its
operands, written once as `TagForm`. The decoder and the encoder are both shown to follow it; that settles what the
decoder reads (O2, O3, O4) and that it inverts the encoder (O1). -/

namespace Sys2Proof

/-! ### A tag and its two fields -/

/-- The tag with the given field and class (30_encoding.md R123). -/
def tagOf (field cls : Nat) : Byte := BitVec.ofNat 8 (field * 4 + cls)

theorem tagClass_tagOf (field : Nat) {cls : Nat} (hc : cls < 4) : tagClass (tagOf field cls) = cls := by
  rw [tagClass, tagOf, BitVec.toNat_ofNat]
  omega

theorem tagField_tagOf {field cls : Nat} (hf : field < 64) (hc : cls < 4) : tagField (tagOf field cls) = field := by
  rw [tagField, tagOf, BitVec.toNat_ofNat]
  omega

theorem tagField_lt (tag : Byte) : tagField tag < 64 := by
  have := tag.isLt
  rw [tagField]
  omega

theorem tagClass_lt (tag : Byte) : tagClass tag < 4 := Nat.mod_lt _ (by norm_num)

theorem tagOf_of_class {tag : Byte} {cls : Nat} (h : tagClass tag = cls) : tagOf (tagField tag) cls = tag := by
  rw [← h, tagOf, tagField, tagClass, Nat.div_add_mod', BitVec.ofNat_toNat, BitVec.setWidth_eq]

/-! ### The table -/

/-- The rows of 30_encoding.md R132: a tag, how many trailer bytes follow it, and the instruction it stands for as a
function of the trailer's value. -/
inductive TagForm : Byte → Nat → (Nat → Instr) → Prop where
  /-- `nnnnnn00` with `n ≤ 59` (R124). -/
  | lit {n : Nat} (hn : n < 60) : TagForm (tagOf n 0) 0 fun _ => .lit (n + 1)
  /-- `11110000` (R125). -/
  | lit1 : TagForm 0xF0#8 1 fun t => .lit1 (t + 1)
  /-- `11110100` (R126). -/
  | lit2 : TagForm 0xF4#8 2 fun t => .lit2 (t + 1)
  /-- `11111000` (R127). -/
  | lit3 : TagForm 0xF8#8 3 fun t => .lit3 (t + 1)
  /-- `11111100` (R128). -/
  | lit4 : TagForm 0xFC#8 4 fun t => .lit4 (t + 1)
  /-- `oooLLL01` (R129). -/
  | copy1 {o l : Nat} (ho : o < 8) (hl : l < 8) :
      TagForm (tagOf (o * 8 + l) 1) 1 fun t => .copy1 (o * 256 + t) (l + 4)
  /-- `LLLLLL10` (R130). -/
  | copy2 {l : Nat} (hl : l < 64) : TagForm (tagOf l 2) 2 fun t => .copy2 t (l + 1)
  /-- `LLLLLL11` (R131). -/
  | copy4 {l : Nat} (hl : l < 64) : TagForm (tagOf l 3) 4 fun t => .copy4 t (l + 1)

/-! ### Every tag has a form -/

theorem tagForm_lit {tag : Byte} (hc : tagClass tag = 0) (hf : tagField tag < 60) :
    TagForm tag 0 fun _ => .lit (tagField tag + 1) := by
  have h := TagForm.lit hf
  rwa [tagOf_of_class hc] at h

theorem tagForm_copy1 {tag : Byte} (hc : tagClass tag = 1) :
    TagForm tag 1 fun t => .copy1 (tagField tag / 8 * 256 + t) (tagField tag % 8 + 4) := by
  have hlt := tagField_lt tag
  have h := TagForm.copy1 (o := tagField tag / 8) (l := tagField tag % 8) (by omega) (by omega)
  rwa [Nat.div_add_mod', tagOf_of_class hc] at h

theorem tagForm_copy2 {tag : Byte} (hc : tagClass tag = 2) : TagForm tag 2 fun t => .copy2 t (tagField tag + 1) := by
  have h := TagForm.copy2 (tagField_lt tag)
  rwa [tagOf_of_class hc] at h

theorem tagForm_copy4 {tag : Byte} (hc : tagClass tag = 3) : TagForm tag 4 fun t => .copy4 t (tagField tag + 1) := by
  have h := TagForm.copy4 (tagField_lt tag)
  rwa [tagOf_of_class hc] at h

/-- A literal tag with a field above 59 is one of four (30_encoding.md R125 to R128). -/
theorem longLiteral_tag {tag : Byte} (hc : tagClass tag = 0) (hf : 60 ≤ tagField tag) :
    tag = 0xF0#8 ∨ tag = 0xF4#8 ∨ tag = 0xF8#8 ∨ tag = 0xFC#8 := by
  have hlt := tagField_lt tag
  rw [tagClass] at hc
  rw [tagField] at hf hlt
  simp only [← BitVec.toNat_inj, BitVec.toNat_ofNat]
  omega

/-- No tag is reserved (30_encoding.md R133). -/
theorem exists_tagForm (tag : Byte) : ∃ k form, TagForm tag k form := by
  have hlt := tagClass_lt tag
  obtain hc | hc | hc | hc : tagClass tag = 0 ∨ tagClass tag = 1 ∨ tagClass tag = 2 ∨ tagClass tag = 3 := by omega
  · rcases lt_or_ge (tagField tag) 60 with hf | hf
    · exact ⟨_, _, tagForm_lit hc hf⟩
    · rcases longLiteral_tag hc hf with rfl | rfl | rfl | rfl
      · exact ⟨_, _, .lit1⟩
      · exact ⟨_, _, .lit2⟩
      · exact ⟨_, _, .lit3⟩
      · exact ⟨_, _, .lit4⟩
  · exact ⟨_, _, tagForm_copy1 hc⟩
  · exact ⟨_, _, tagForm_copy2 hc⟩
  · exact ⟨_, _, tagForm_copy4 hc⟩

namespace TagForm

variable {tag : Byte} {k : Nat} {form : Nat → Instr}

/-! ### The decoder follows the table -/

theorem trailerBytes_eq (h : TagForm tag k form) : trailerBytes tag = k := by
  cases h with
  | lit hn => simp [trailerBytes, tagClass_tagOf, tagField_tagOf (hn.trans _), hn]
  | lit1 | lit2 | lit3 | lit4 => rfl
  | copy1 | copy2 | copy4 => simp [trailerBytes, tagClass_tagOf]

theorem assemble_eq (h : TagForm tag k form) (t : Nat) : assemble tag t = form t := by
  cases h with
  | lit hn => simp [assemble, assembleLiteral, tagClass_tagOf, tagField_tagOf (hn.trans _), hn]
  | lit1 | lit2 | lit3 | lit4 => rfl
  | @copy1 o l ho hl =>
    have hdiv : (o * 8 + l) / 8 = o := by omega
    have hmod : (o * 8 + l) % 8 = l := by omega
    have hlt : o * 8 + l < 64 := by omega
    simp [assemble, tagClass_tagOf, tagField_tagOf hlt, hdiv, hmod]
  | copy2 hl | copy4 hl => simp [assemble, tagClass_tagOf, tagField_tagOf hl]

/-- With the trailer its form has, a tag decodes to what the table says, and the bytes after it are left. -/
theorem decodeElement_eq (h : TagForm tag k form) {trailer : List Byte} (hk : trailer.length = k)
    (rest : List Byte) : decodeElement (tag :: (trailer ++ rest)) = .ok (form (leValue trailer), rest) := by
  rw [decodeElement_append (hk.trans h.trailerBytes_eq.symm), h.assemble_eq]

/-- The decoder reads back the value of an encoded trailer. -/
theorem decodeElement_leBytes (h : TagForm tag k form) {v : Nat} (hv : v < 256 ^ k) (rest : List Byte) :
    decodeElement (tag :: leBytes k v ++ rest) = .ok (form v, rest) := by
  rw [List.cons_append, h.decodeElement_eq (leBytes_length k v), leValue_leBytes, Nat.mod_eq_of_lt hv]

/-! ### The encoder follows the table -/

theorem encode_eq (h : TagForm tag k form) (t : Nat) (ht : t < 256 ^ k) : encode (form t) = tag :: leBytes k t := by
  cases h with
  | lit | lit1 | lit2 | lit3 | lit4 | copy2 | copy4 => simp [encode, tagOf, leBytes]
  | @copy1 o l ho hl =>
    rw [encode]
    have htag : (o * 256 + t) / 256 * 32 + (l + 4 - 4) * 4 + 1 = (o * 8 + l) * 4 + 1 := by omega
    have hoff : BitVec.ofNat 8 (o * 256 + t) = BitVec.ofNat 8 t := by
      apply BitVec.eq_of_toNat_eq
      simp only [BitVec.toNat_ofNat]
      omega
    rw [htag, leBytes, leBytes, hoff]
    rfl

theorem wf (h : TagForm tag k form) {t : Nat} (ht : t < 256 ^ k) : (form t).wf = true := by
  cases h <;> simp only [Instr.wf, decide_eq_true_eq] <;> omega

theorem space_eq (h : TagForm tag k form) (t : Nat) : (form t).space = .element := by
  cases h <;> rfl

theorem trailer_eq (h : TagForm tag k form) (t : Nat) : (form t).trailer = k := by
  cases h <;> rfl

end TagForm

/-! ### What the decoder reads -/

/-- The bits of a tag that the table names, as numbers (30_encoding.md R123, R129). -/
theorem toNat_extractLsb_tag (tag : Byte) :
    (tag.extractLsb 1 0).toNat = tagClass tag ∧ (tag.extractLsb 7 2).toNat = tagField tag
      ∧ (tag.extractLsb 7 5).toNat = tagField tag / 8 ∧ (tag.extractLsb 4 2).toNat = tagField tag % 8 := by
  have := tag.isLt
  simp only [BitVec.extractLsb_toNat, Nat.shiftRight_eq_div_pow, Nat.reduceSub, Nat.reduceAdd, Nat.reducePow,
    tagClass, tagField, and_true]
  omega

/-- Settles O3: each row is a row of `TagForm`, with the tag's bits as numbers. -/
theorem operandsAreAssembledByTable : Obligations.OperandsAreAssembledByTable := by
  unfold Obligations.OperandsAreAssembledByTable
  intro tag trailer rest cls hi t is
  obtain ⟨hcls, hfield, hoff, hlen⟩ := toNat_extractLsb_tag tag
  have hclass {c : BitVec 2} (h : cls = c) : tagClass tag = c.toNat := by rw [← hcls, ← h]
  have hi_eq : hi = tagField tag := hfield
  simp only [is, t, hi_eq, hoff, hlen]
  refine ⟨fun hc hf ht => ?_, ?_, ?_, ?_, ?_, fun hc ht => ?_, fun hc ht => ?_, fun hc ht => ?_⟩
  · exact (tagForm_lit (hclass hc) (by omega)).decodeElement_eq ht rest
  · rintro rfl ht
    exact TagForm.lit1.decodeElement_eq ht rest
  · rintro rfl ht
    exact TagForm.lit2.decodeElement_eq ht rest
  · rintro rfl ht
    exact TagForm.lit3.decodeElement_eq ht rest
  · rintro rfl ht
    exact TagForm.lit4.decodeElement_eq ht rest
  · have hlt : leValue trailer < 2 ^ 8 := by simpa [ht] using leValue_lt trailer
    rw [← Nat.shiftLeft_add_eq_or_of_lt hlt, Nat.shiftLeft_eq]
    exact (tagForm_copy1 (hclass hc)).decodeElement_eq ht rest
  · exact (tagForm_copy2 (hclass hc)).decodeElement_eq ht rest
  · exact (tagForm_copy4 (hclass hc)).decodeElement_eq ht rest

/-- Settles O4: the tag has a form, which asks for the trailer that the tag asks for. -/
theorem everyTagDecodes : Obligations.EveryTagDecodes := by
  unfold Obligations.EveryTagDecodes
  intro tag rest
  obtain ⟨k, form, h⟩ := exists_tagForm tag
  rw [h.trailerBytes_eq]
  constructor
  · intro hk
    have hdecode := h.decodeElement_eq (List.length_take_of_le hk) (rest.drop k)
    rw [List.take_append_drop] at hdecode
    exact ⟨_, hdecode, h.trailer_eq _⟩
  · intro hk
    rw [decodeElement, h.trailerBytes_eq, if_pos hk]

/-- What the element decoder accepts begins with a tag and the trailer its form has. -/
theorem decodeElement_eq_ok {bytes rest : List Byte} {i : Instr} (h : decodeElement bytes = .ok (i, rest)) :
    ∃ tag trailer form, TagForm tag trailer.length form ∧ i = form (leValue trailer)
      ∧ bytes = tag :: (trailer ++ rest) := by
  cases bytes with
  | nil => cases h
  | cons tag bs =>
    obtain ⟨k, form, hform⟩ := exists_tagForm tag
    rw [decodeElement, hform.trailerBytes_eq] at h
    split at h
    next => cases h
    next hk =>
      cases h
      have hlen : (bs.take k).length = k := List.length_take_of_le (not_lt.1 hk)
      exact ⟨tag, bs.take k, form, hlen.symm ▸ hform, hform.assemble_eq _, by rw [List.take_append_drop]⟩

/-- Settles O2: the encoder follows the table that the decoder read. -/
theorem decodedElementEncodesBack : Obligations.DecodedElementEncodesBack := by
  unfold Obligations.DecodedElementEncodesBack
  intro bytes rest i h
  obtain ⟨tag, trailer, form, hform, rfl, rfl⟩ := decodeElement_eq_ok h
  have hlt := leValue_lt trailer
  refine ⟨hform.wf hlt, hform.space_eq _, ?_⟩
  rw [hform.encode_eq _ hlt, leBytes_leValue, List.cons_append]

/-- Settles O5: the words are closed, and the decoder is evaluated on them. -/
theorem sampleWordsDecode : Obligations.SampleWordsDecode := by
  unfold Obligations.SampleWordsDecode
  decide

/-! ### The decoder inverts the encoder -/

/-- The four bytes of a `CMD` value decode to the command it selects (30_encoding.md R136). -/
theorem decode_command_leBytes {v : Nat} {i : Instr} (h : decodeCommand (BitVec.ofNat 32 v) = .ok i) (hv : v < 2 ^ 32)
    (rest : List Byte) : decode .command (leBytes 4 v ++ rest) = .ok (i, rest) := by
  have hlen := leBytes_length 4 v
  have hvalue : leValue (leBytes 4 v) = v := (leValue_leBytes 4 v).trans (Nat.mod_eq_of_lt hv)
  rw [decode, if_neg (by rw [List.length_append]; omega), List.take_left' hlen, List.drop_left' hlen, hvalue, h]

/-- A well-formed element is a row of the table at some trailer value. -/
theorem exists_tagForm_of_wf {i : Instr} (hs : i.space = .element) (hi : i.wf = true) :
    ∃ tag k form t, TagForm tag k form ∧ t < 256 ^ k ∧ i = form t := by
  cases i <;> simp only [Instr.wf, decide_eq_true_eq] at hi
  case lit len => exact ⟨_, _, _, 0, .lit (n := len - 1) (by omega), by norm_num, by congr; omega⟩
  case lit1 len => exact ⟨_, _, _, len - 1, .lit1, by omega, by congr; omega⟩
  case lit2 len => exact ⟨_, _, _, len - 1, .lit2, by omega, by congr; omega⟩
  case lit3 len => exact ⟨_, _, _, len - 1, .lit3, by omega, by congr; omega⟩
  case lit4 len => exact ⟨_, _, _, len - 1, .lit4, by omega, by congr; omega⟩
  case copy1 off len =>
    exact ⟨_, _, _, off % 256, .copy1 (o := off / 256) (l := len - 4) (by omega) (by omega), by omega,
      by congr <;> omega⟩
  case copy2 off len => exact ⟨_, _, _, off, .copy2 (l := len - 1) (by omega), by omega, by congr; omega⟩
  case copy4 off len => exact ⟨_, _, _, off, .copy4 (l := len - 1) (by omega), by omega, by congr; omega⟩
  all_goals cases hs

/-- Settles O1: a well-formed element is a row of `TagForm`, which the encoder writes and the decoder reads; a command
is its `CMD` value. -/
theorem decodeEncodeRoundTrip : Obligations.DecodeEncodeRoundTrip := by
  unfold Obligations.DecodeEncodeRoundTrip
  intro i rest hi
  cases hs : i.space with
  | element =>
    obtain ⟨tag, k, form, t, h, ht, rfl⟩ := exists_tagForm_of_wf hs hi
    rw [h.encode_eq t ht]
    exact h.decodeElement_leBytes ht rest
  | command =>
    cases i with
    | nop | compress | decompress | maxlen => exact decode_command_leBytes rfl (by norm_num) rest
    | lit | lit1 | lit2 | lit3 | lit4 | copy1 | copy2 | copy4 => cases hs

end Sys2Proof
end

section
/-! The header varint (30_encoding.md R121, R122): the bytes the encoder writes (O6), and what the decoder answers on
any source (O7). -/

namespace Sys2Proof

/-! ### The encoder's bytes -/

/-- Another byte is written as long as the value has bits above the groups written, up to the bound. -/
theorem lt_length_encodeVarintUpTo_iff (k v j : Nat) :
    j < (encodeVarintUpTo k v).length ↔ j = 0 ∨ j ≤ k ∧ 128 ^ j ≤ v := by
  induction k generalizing v j with
  | zero =>
    rw [encodeVarintUpTo, List.length_singleton]
    omega
  | succ k ih =>
    rw [encodeVarintUpTo]
    cases j with
    | zero => split <;> simp
    | succ j =>
      have hpow : 128 ^ (j + 1) ≤ v ↔ 128 ^ j ≤ v / 128 := by
        rw [Nat.pow_succ, Nat.le_div_iff_mul_le (by norm_num)]
      split
      next hv =>
        have := Nat.one_le_pow j 128 (by norm_num)
        rw [List.length_singleton, hpow]
        omega
      next hv =>
        rw [List.length_cons, Nat.add_lt_add_iff_right, ih, hpow]
        constructor
        · rintro (rfl | ⟨hj, hle⟩)
          · exact .inr ⟨by omega, by omega⟩
          · exact .inr ⟨by omega, hle⟩
        · rintro (h0 | ⟨hj, hle⟩)
          · omega
          · exact .inr ⟨by omega, hle⟩

/-- Byte `j` carries bits `7j` to `7j + 6`, and its top bit says whether another byte follows. -/
theorem getD_encodeVarintUpTo {k v j : Nat} (hv : v < 128 ^ (k + 1)) (hj : j < (encodeVarintUpTo k v).length) :
    ((encodeVarintUpTo k v).getD j 0#8).toNat % 128 = v / 128 ^ j % 128
      ∧ (128 ≤ ((encodeVarintUpTo k v).getD j 0#8).toNat ↔ j + 1 < (encodeVarintUpTo k v).length) := by
  induction k generalizing v j with
  | zero =>
    simp only [encodeVarintUpTo, List.length_singleton, Nat.lt_one_iff] at hj
    subst hj
    simp only [encodeVarintUpTo, List.getD_cons_zero, BitVec.toNat_ofNat, List.length_singleton, Nat.pow_zero]
    omega
  | succ k ih =>
    have hlen : 0 < (encodeVarintUpTo k (v / 128)).length := by simp [lt_length_encodeVarintUpTo_iff]
    rw [encodeVarintUpTo] at hj ⊢
    split at hj
    next hlt =>
      obtain rfl : j = 0 := by simpa using hj
      simp only [if_pos hlt, List.getD_cons_zero, BitVec.toNat_ofNat, List.length_singleton, Nat.pow_zero]
      omega
    next hge =>
      rw [if_neg hge]
      cases j with
      | zero =>
        simp only [List.getD_cons_zero, BitVec.toNat_ofNat, List.length_cons, Nat.pow_zero]
        omega
      | succ j =>
        have hv' : v / 128 < 128 ^ (k + 1) := by
          rw [Nat.div_lt_iff_lt_mul (by norm_num), ← Nat.pow_succ]
          exact hv
        have := ih hv' (by simpa using hj)
        simpa [Nat.div_div_eq_div_mul, ← Nat.pow_succ'] using this

/-- Settles O6: the length is read off the bound on each byte, and the bytes are the encoder's at base 128. -/
theorem varintCarriesSevenBitGroups : Obligations.VarintCarriesSevenBitGroups := by
  unfold Obligations.VarintCarriesSevenBitGroups
  intro v hv bytes
  constructor
  · have hlt : ∀ j, j < bytes.length ↔ j = 0 ∨ j ≤ 4 ∧ 128 ^ j ≤ v := lt_length_encodeVarintUpTo_iff 4 v
    have h0 := hlt 0
    have h1 := hlt 1
    have h2 := hlt 2
    have h3 := hlt 3
    have h4 := hlt 4
    have h5 := hlt 5
    split_ifs <;> omega
  · intro k hk
    rw [Nat.pow_mul]
    exact getD_encodeVarintUpTo (hv.trans (by norm_num)) hk

/-! ### The decoder's answers -/

section

variable (src : Nat → Byte) (n : Nat)

/-- The value that the first `k` header bytes carry, seven bits a byte. -/
def headerValue (k : Nat) : Nat := ((List.range k).map fun j => (src j).toNat % 128 * 2 ^ (7 * j)).sum

/-- What `DecodeHeader` may answer on `n` source bytes (30_encoding.md R122, 41_decompressor.md R231): the value of a
header and its length, or the position of the error. -/
def HeaderAnswer : Except Nat (Nat × Nat) → Prop
  | .ok (v, k) =>
    1 ≤ k ∧ k ≤ 5 ∧ k ≤ n ∧ (∀ j, j + 1 < k → 128 ≤ (src j).toNat) ∧ (src (k - 1)).toNat < 128
      ∧ (k = 5 → (src 4).toNat < 16) ∧ v = headerValue src k
  | .error pos =>
    (n ≤ 4 ∧ (∀ j, j < n → 128 ≤ (src j).toNat) ∧ pos = n)
      ∨ (5 ≤ n ∧ (∀ j, j < 4 → 128 ≤ (src j).toNat) ∧ 16 ≤ (src 4).toNat ∧ pos = 4)

end

section

variable {src : Nat → Byte} {n : Nat}

theorem headerValue_succ (k : Nat) :
    headerValue src (k + 1) = headerValue src k + (src k).toNat % 128 * 128 ^ k := by
  simp [headerValue, List.range_succ, Nat.pow_mul]

/-- Past the continuation bytes before byte `k`, the decoder's answer is one the rule allows. -/
theorem headerAnswer_decodeHeaderFrom {fuel k : Nat} (hfuel : k + fuel = 5) (hk : k ≤ 4) (hkn : k ≤ n)
    (hprev : ∀ j, j < k → 128 ≤ (src j).toNat) :
    HeaderAnswer src n (decodeHeaderFrom fuel src n k (headerValue src k)) := by
  induction fuel generalizing k with
  | zero => omega
  | succ fuel ih =>
    simp only [decodeHeaderFrom]
    have hlast (h4 : k = 4) (hkn' : ¬ n ≤ k) (hbig : 16 ≤ (src k).toNat) : HeaderAnswer src n (.error 4) := by
      subst h4
      exact .inr ⟨by omega, hprev, hbig, rfl⟩
    split_ifs with hend hcont hbig hstop
    · obtain rfl : k = n := by omega
      exact .inl ⟨hk, hprev, rfl⟩
    · exact hlast hcont.1 hend (by omega)
    · exact hlast hbig.1 hend (by omega)
    · refine ⟨by omega, by omega, by omega, fun j hj => hprev j (by omega), hstop, fun h5 => ?_, ?_⟩
      · obtain rfl : k = 4 := by omega
        omega
      · rw [headerValue_succ, Nat.mod_eq_of_lt hstop]
    · rw [← headerValue_succ]
      have hne : k ≠ 4 := fun h => hcont ⟨h, not_lt.1 hstop⟩
      refine ih (by omega) (by omega) (by omega) fun j hj => ?_
      rcases Nat.lt_succ_iff_lt_or_eq.1 hj with hlt | rfl
      · exact hprev j hlt
      · exact not_lt.1 hstop

/-- A header ends at one byte only. -/
theorem HeaderAnswer.length_le {v v' k k' : Nat} (h : HeaderAnswer src n (.ok (v, k)))
    (h' : HeaderAnswer src n (.ok (v', k'))) : k ≤ k' := by
  obtain ⟨-, -, -, hcont, -⟩ := h
  obtain ⟨hpos, -, -, -, hstop, -⟩ := h'
  by_contra hlt
  exact absurd (hcont (k' - 1) (by omega)) (by omega)

/-- Where the rule allows a header, it allows no error. -/
theorem HeaderAnswer.ok_not_error {v k pos : Nat} (h : HeaderAnswer src n (.ok (v, k))) :
    ¬ HeaderAnswer src n (.error pos) := by
  obtain ⟨hpos, hle, hkn, -, hstop, hlast, -⟩ := h
  rintro (⟨-, hcont, -⟩ | ⟨-, hcont, hbig, -⟩)
  · exact absurd (hcont (k - 1) (by omega)) (by omega)
  · rcases Nat.lt_or_ge k 5 with hlt | hge
    · exact absurd (hcont (k - 1) (by omega)) (by omega)
    · exact absurd (hlast (by omega)) (by omega)

/-- The rule allows one answer. -/
theorem HeaderAnswer.unique {r r' : Except Nat (Nat × Nat)} (h : HeaderAnswer src n r) (h' : HeaderAnswer src n r') :
    r = r' := by
  match r, r', h, h' with
  | .ok (v, k), .ok (v', k'), h, h' =>
    obtain rfl : k = k' := Nat.le_antisymm (h.length_le h') (h'.length_le h)
    obtain ⟨-, -, -, -, -, -, rfl⟩ := h
    obtain ⟨-, -, -, -, -, -, rfl⟩ := h'
    rfl
  | .ok _, .error _, h, h' => exact absurd h' h.ok_not_error
  | .error _, .ok _, h, h' => exact absurd h h'.ok_not_error
  | .error pos, .error pos', h, h' =>
    have hpos : pos = pos' := by
      rcases h with ⟨hle, -, hpos⟩ | ⟨hge, -, -, hpos⟩
      all_goals
        rcases h' with ⟨hle', -, hpos'⟩ | ⟨hge', -, -, hpos'⟩
        all_goals omega
    rw [hpos]

/-- The decoder's answer is the one the rule allows. -/
theorem decodeHeader_eq_iff (r : Except Nat (Nat × Nat)) : decodeHeader src n = r ↔ HeaderAnswer src n r := by
  have hanswer : HeaderAnswer src n (decodeHeader src n) :=
    headerAnswer_decodeHeaderFrom rfl (by norm_num) n.zero_le fun j hj => absurd hj j.not_lt_zero
  exact ⟨fun h => h ▸ hanswer, hanswer.unique⟩

end

/-- Settles O7: the two clauses are the two kinds of `HeaderAnswer`. -/
theorem headerDecodeIsExact : Obligations.HeaderDecodeIsExact := by
  unfold Obligations.HeaderDecodeIsExact
  exact fun src n => ⟨fun v k => decodeHeader_eq_iff (.ok (v, k)), fun pos => decodeHeader_eq_iff (.error pos)⟩

end Sys2Proof
end

section
/-! What the compressor emits (40_compressor.md R180 to R183): the bytes of the literal and copy forms it chooses, and
how a long copy is cut into pieces (O32, O33, O34). -/

namespace Sys2Proof.Machine

/-! ### Literals -/

/-- `LE_k` of a value, byte by byte, as shifts (00_scope.md R9). -/
theorem leBytes_eq_shifts (k v : Nat) : leBytes k v = (List.range k).map fun i => BitVec.ofNat 8 (v >>> (8 * i)) := by
  induction k generalizing v with
  | zero => rfl
  | succ k ih =>
    rw [leBytes, ih, List.range_succ_eq_map, List.map_cons, List.map_map]
    have hshift (i : Nat) : v >>> (8 * (i + 1)) = (v / 256) >>> (8 * i) := by
      rw [Nat.mul_succ, Nat.add_comm, Nat.shiftRight_add, Nat.shiftRight_eq_div_pow v 8]
    simp [hshift]

/-- Settles O32: the form is chosen by the thresholds, and its trailer is the little-endian `len - 1`. -/
theorem literalEmissionIsShortest : Obligations.LiteralEmissionIsShortest := by
  unfold Obligations.LiteralEmissionIsShortest
  intro src start len _ _ m byte
  rw [emitLiteral]
  congr 1
  rw [literalForm, apply_ite encode, apply_ite encode, apply_ite encode, apply_ite encode]
  simp only [encode, leBytes_eq_shifts, Nat.shiftLeft_eq]
  rfl

/-! ### Copies -/

/-- `EmitCopyLT64` chooses COPY1 exactly for a length below 12 and an offset below 2048 (R183). -/
theorem encode_copyForm (off m : Nat) :
    encode (copyForm off m) =
      if m < 12 ∧ off < 2048 then BitVec.ofNat 8 (off / 256 * 32 + (m - 4) * 4 + 1) :: leBytes 1 off
      else BitVec.ofNat 8 ((m - 1) * 4 + 2) :: leBytes 2 off := by
  rw [copyForm, apply_ite encode]
  rfl

/-- Settles O33: the fields of a tag are disjoint in its bits, so the encoder's sums are the rule's disjunctions. -/
theorem shortCopyEncoding : Obligations.ShortCopyEncoding := by
  unfold Obligations.ShortCopyEncoding
  intro off m _ hoff hm hmax
  rw [encode_copyForm]
  simp only [leBytes_eq_shifts]
  split
  next h =>
    have hhigh : off >>> 8 &&& 7 = off / 256 := by
      rw [Nat.shiftRight_eq_div_pow, show (7 : Nat) = 2 ^ 3 - 1 from rfl, Nat.and_two_pow_sub_one_eq_mod]
      omega
    have hlow : 1 ||| (m - 4) <<< 2 = (m - 4) <<< 2 + 1 := by
      rw [Nat.lor_comm, Nat.shiftLeft_add_eq_or_of_lt (by norm_num)]
    have htag : 1 ||| (m - 4) <<< 2 ||| (off / 256) <<< 5 = off / 256 * 32 + (m - 4) * 4 + 1 := by
      rw [hlow, Nat.lor_comm, ← Nat.shiftLeft_add_eq_or_of_lt (by rw [Nat.shiftLeft_eq]; omega), Nat.shiftLeft_eq,
        Nat.shiftLeft_eq]
      rfl
    rw [hhigh, htag]
    rfl
  next =>
    have htag : 2 ||| (m - 1) <<< 2 = (m - 1) * 4 + 2 := by
      rw [Nat.lor_comm, ← Nat.shiftLeft_add_eq_or_of_lt (by norm_num), Nat.shiftLeft_eq]
    rw [htag]
    rfl

/-! ### Pieces of a copy -/

theorem copyPieces_succ (fuel m : Nat) :
    copyPieces (fuel + 1) m =
      if 68 ≤ m then 64 :: copyPieces fuel (m - 64) else if 64 < m then [60, m - 60] else [m] := rfl

/-- More fuel than the length does not change the pieces. -/
theorem copyPieces_of_le {fuel m : Nat} (h : m ≤ fuel) : copyPieces fuel m = copyPieces m m := by
  induction m using Nat.strong_induction_on generalizing fuel with
  | _ m ih =>
    cases fuel with
    | zero => rw [Nat.le_zero.1 h]
    | succ fuel =>
      cases m with
      | zero => rfl
      | succ m =>
        rw [copyPieces_succ, copyPieces_succ, ih _ (by omega) (fuel := fuel) (by omega),
          ih _ (by omega) (fuel := m) (by omega)]

/-- The pieces of a copy (R182): 64 while the length is at least 68, then 60 if it is above 64, then the rest. -/
theorem copyPieces_eq {m : Nat} (h : 1 ≤ m) :
    copyPieces m m =
      if 68 ≤ m then 64 :: copyPieces (m - 64) (m - 64) else if 64 < m then [60, m - 60] else [m] := by
  obtain ⟨m, rfl⟩ := Nat.exists_eq_succ_of_ne_zero (Nat.one_le_iff_ne_zero.1 h)
  rw [Nat.succ_eq_add_one, copyPieces_succ, copyPieces_of_le (by omega)]

theorem emitCopy_of_long (off : Nat) {m : Nat} (h : 68 ≤ m) :
    emitCopy off m = encode (copyForm off 64) ++ emitCopy off (m - 64) := by
  rw [emitCopy, copyPieces_eq (by omega), if_pos h, List.flatMap_cons]
  rfl

theorem emitCopy_of_middle (off : Nat) {m : Nat} (h : 64 < m) (hlt : m < 68) :
    emitCopy off m = encode (copyForm off 60) ++ encode (copyForm off (m - 60)) := by
  rw [emitCopy, copyPieces_eq (by omega), if_neg (by omega), if_pos h]
  simp

theorem emitCopy_of_short (off : Nat) {m : Nat} (h : 1 ≤ m) (hle : m ≤ 64) :
    emitCopy off m = encode (copyForm off m) := by
  rw [emitCopy, copyPieces_eq h, if_neg (by omega), if_neg (by omega)]
  simp

/-- Settles O34: the three cases are those of `copyPieces_eq`. -/
theorem longCopiesAreSplit : Obligations.LongCopiesAreSplit := by
  unfold Obligations.LongCopiesAreSplit
  intro off m _ _ hm piece
  exact ⟨fun h => ⟨emitCopy_of_long off h, by omega⟩, fun h hlt => ⟨emitCopy_of_middle off h hlt, by omega⟩,
    fun h => emitCopy_of_short off (by omega) h⟩

/-- What holds of every piece from 4 to 64 that stands at its place in a copy, and of a sequence of such, holds of the
whole copy. -/
theorem emitCopy_induction {P : Nat → Nat → List Byte → Prop} (off : Nat)
    (piece : ∀ p m, 4 ≤ m → m ≤ 64 → P p m (encode (copyForm off m)))
    (append : ∀ p m k xs ys, P p m xs → P (p + m) k ys → P p (m + k) (xs ++ ys)) (p : Nat) {m : Nat} (h : 4 ≤ m) :
    P p m (emitCopy off m) := by
  induction m using Nat.strong_induction_on generalizing p with
  | _ m ih =>
    rcases Nat.lt_or_ge 64 m with hlong | hshort
    · rcases Nat.lt_or_ge m 68 with hmid | hlong
      · rw [emitCopy_of_middle off hlong hmid]
        have := append p 60 (m - 60) _ _ (piece p 60 (by omega) (by omega)) (piece _ (m - 60) (by omega) (by omega))
        rwa [Nat.add_sub_of_le (by omega)] at this
      · rw [emitCopy_of_long off hlong]
        have := append p 64 (m - 64) _ _ (piece p 64 (by omega) (by omega)) (ih _ (by omega) _ (by omega))
        rwa [Nat.add_sub_of_le (by omega)] at this
    · rw [emitCopy_of_short off (by omega) hshort]
      exact piece p m h hshort

end Sys2Proof.Machine
end

section
/-! The compressor's table size, hash and match length (40_compressor.md R174 to R176, R181): O35, O36, O37. -/

namespace Sys2Proof.Machine

/-! ### The table size -/

/-- Doubling stops at the first size that holds the window, or at `HT_MAX` if the steps suffice to get there. -/
theorem growTable_holds {k e w : Nat} (hk : 14 ≤ e + k) (he : e ≤ 14) :
    w ≤ growTable k (2 ^ e) w ∨ growTable k (2 ^ e) w = Config.htMax := by
  induction k generalizing e with
  | zero =>
    obtain rfl : e = 14 := by omega
    exact .inr rfl
  | succ k ih =>
    rw [growTable]
    split
    next hlt =>
      have he' : e < 14 := (Nat.pow_lt_pow_iff_right (by decide)).1 (hlt.1 : 2 ^ e < 2 ^ 14)
      rw [← Nat.pow_succ']
      exact ih (by omega) he'
    next hstop =>
      have hmax : 2 ^ e ≤ Config.htMax := Nat.pow_le_pow_right (by decide) he
      omega

/-- Doubling never passes a power of two that holds the window. -/
theorem growTable_le_pow {k e w e' : Nat} (he : e ≤ e') (hw : w ≤ 2 ^ e') : growTable k (2 ^ e) w ≤ 2 ^ e' := by
  induction k generalizing e with
  | zero => exact Nat.pow_le_pow_right Nat.two_pos he
  | succ k ih =>
    rw [growTable]
    split
    next hlt =>
      have hlt' : e < e' := (Nat.pow_lt_pow_iff_right (by decide)).1 (hlt.2.trans_le hw)
      rw [← Nat.pow_succ']
      exact ih hlt'
    next => exact Nat.pow_le_pow_right Nat.two_pos he

/-- Settles O35: the size is a power of two in range, it holds the window unless it is `HT_MAX`, and no smaller power
does. -/
theorem tableSizeIsSmallestPower : Obligations.TableSizeIsSmallestPower := by
  unfold Obligations.TableSizeIsSmallestPower
  intro w _ _ ts
  obtain ⟨e, hmin, -, heq⟩ := tableSize_eq_pow w
  refine ⟨⟨e, heq⟩, ?_, tableSize_le w, growTable_holds (k := 6) (e := 8) (by norm_num) (by norm_num), ?_⟩
  · exact (Nat.pow_le_pow_right Nat.two_pos hmin).trans_eq heq.symm
  · intro e' he' hw
    have h8 : 8 ≤ e' := (Nat.pow_le_pow_iff_right Nat.one_lt_two).1 he'
    exact growTable_le_pow (k := 6) h8 hw

/-! ### The hash -/

/-- Settles O36: the product of two 32-bit words is taken modulo `2^32`, and the table has an entry for every hash. -/
theorem hashIsBelowTableSize : Obligations.HashIsBelowTableSize := by
  unfold Obligations.HashIsBelowTableSize
  intro w v _ _ ts shift
  refine ⟨?_, hash_lt_tableSize w v⟩
  rw [hash, Nat.shiftRight_eq_div_pow, BitVec.toNat_mul]
  rfl

/-! ### The match length -/

/-- The two ranges agree on the match length. -/
theorem matchLen_agrees {src : Nat → Byte} {a b room i : Nat} (h : i < matchLen src a b room) :
    src (a + i) = src (b + i) := by
  induction room generalizing a b i with
  | zero => exact absurd h i.not_lt_zero
  | succ room ih =>
    rw [matchLen] at h
    split at h
    next heq =>
      cases i with
      | zero => exact heq
      | succ i => simpa only [Nat.add_assoc, Nat.add_comm 1] using ih (Nat.lt_of_succ_lt_succ h)
    next => exact absurd h i.not_lt_zero

/-- No longer range within the room agrees. -/
theorem le_matchLen {src : Nat → Byte} {a b room k : Nat} (hk : k ≤ room)
    (h : ∀ i, i < k → src (a + i) = src (b + i)) : k ≤ matchLen src a b room := by
  induction room generalizing a b k with
  | zero => exact hk
  | succ room ih =>
    cases k with
    | zero => exact Nat.zero_le _
    | succ k =>
      rw [matchLen, if_pos (by simpa using h 0 k.succ_pos)]
      refine Nat.succ_le_succ (ih (Nat.le_of_succ_le_succ hk) fun i hi => ?_)
      simpa only [Nat.add_assoc, Nat.add_comm 1] using h (i + 1) (Nat.succ_lt_succ hi)

/-- Settles O37: the ranges agree on the match length, and no longer range does. -/
theorem matchLengthIsLargest : Obligations.MatchLengthIsLargest := by
  unfold Obligations.MatchLengthIsLargest
  intro src a b limit _ hb agree
  have hroom := matchLen_le src a b (limit - b)
  exact ⟨⟨by omega, fun i hi => matchLen_agrees hi⟩, fun k hk => le_matchLen (by have := hk.1; omega) hk.2⟩

end Sys2Proof.Machine
end

section
/-! How COMPRESS and DECOMPRESS begin (40_compressor.md R170, R171; 41_decompressor.md R230): O20, O27. -/

namespace Sys2Proof.Machine

/-- Settles O20: the capacity check is the second of R295, and raising the error writes the result registers only. -/
theorem compressChecksCapacity : Obligations.CompressChecksCapacity := by
  unfold Obligations.CompressChecksCapacity
  intro s v he hlegal hcap
  have hexec : exec .compress s = .next (s.raise .dstTooSmall 0) := by
    rw [exec, execCompress, if_neg (not_not_intro hlegal), if_pos (by simpa [Config.maxLen] using hcap)]
  have hended := s.raise_ended .dstTooSmall (pos := 0) (by norm_num)
  have hlen : s.decodedLen = 0#32 := by simp only [State.decodedLen, he]
  rw [hlen] at hended
  exact ⟨_, hexec, hended, ⟨rfl, rfl, rfl, rfl⟩⟩

/-- COMPRESS with legal regions and room enough begins before its header. -/
theorem exec_compress_begins {s : State} (hlegal : s.latch.legal)
    (hcap : Config.maxLen s.latch.srcLen.toNat ≤ s.latch.dstCap.toNat) :
    exec .compress s = settle finishCompressor { s with engine := .compress Compressor.initial } := by
  rw [exec, execCompress, if_neg (not_not_intro hlegal), if_neg (not_lt.2 hcap)]

/-- DECOMPRESS whose header decodes to a length within the capacity begins at its first element. -/
theorem beginDecompress_of_header {s : State} {len hlen : Nat} (hb : s.busFails = false)
    (hh : decodeHeader s.srcByte s.latch.srcLen.toNat = .ok (len, hlen)) (hcap : len ≤ s.latch.dstCap.toNat) :
    beginDecompress s = .next { s.busNext with engine := .decompress ⟨hlen, 0, BitVec.ofNat 32 len⟩ } := by
  obtain ⟨-, hle, hpos⟩ := decodeHeader_ok hh
  have hlen : s.latch.srcLen.toNat ≠ 0 := by omega
  simp only [beginDecompress, if_neg hlen, State.onBus_of_not_fails hb, State.srcByte_busNext, State.busNext_latch, hh,
    if_neg (not_lt.2 hcap)]

/-- Settles O27: a turn to come lets the command that has begun stand. -/
theorem longCommandsBegin : Obligations.LongCommandsBegin := by
  unfold Obligations.LongCommandsBegin
  intro s hlegal hturns
  refine ⟨fun hcap => ?_, fun len hlen hb hh hcap => ?_⟩
  · rw [exec_compress_begins hlegal hcap, settle_of_turns (by exact hturns)]
  · rw [exec, execDecompress, if_neg (not_not_intro hlegal), beginDecompress_of_header hb hh hcap, andThen_next,
      settle_of_turns (by simpa using hturns)]

end Sys2Proof.Machine
end

section
/-! What one action of the compressor does (40_compressor.md R177, R178, R184, R186): a probe and a turn of a copy run
(O38), how far the scan position moves (O39), and the run over a short source (O40). -/

namespace Sys2Proof.Machine

/-! ### Probes and copies -/

/-- Everything a probe can do: none is made past the limit; one that is made hits or misses (R177, R179). -/
theorem probe_cases (src : Nat → Byte) (c : Compressor) (t : HashTable) :
    (¬ c.probes ∧ probe src c t = ({ c with phase := .tail }, t, []))
    ∨ (c.probes ∧ ∃ here cand, here = hash c.shift (load32 src c.ip) ∧ cand = c.wb + (t.get here).toNat
      ∧ ((load32 src cand = load32 src c.ip
          ∧ probe src c t = ({ c with phase := .copy, cand := cand }, t.set here (BitVec.ofNat 16 (c.ip - c.wb)),
              if c.nextEmit < c.ip then emitLiteral src c.nextEmit (c.ip - c.nextEmit) else []))
        ∨ (load32 src cand ≠ load32 src c.ip
          ∧ probe src c t = ({ c with cand := cand, ip := c.ip + c.skip / 32, skip := c.skip + 1 },
              t.set here (BitVec.ofNat 16 (c.ip - c.wb)), [])))) := by
  by_cases hprobes : c.probes
  · refine .inr ⟨hprobes, _, _, rfl, rfl, ?_⟩
    rw [probe_of_probes hprobes rfl rfl, Nat.shiftRight_eq_div_pow]
    by_cases hit : load32 src (c.wb + (t.get (hash c.shift (load32 src c.ip))).toNat) = load32 src c.ip
    · exact .inl ⟨hit, by simp only [hit, if_true, true_and]⟩
    · exact .inr ⟨hit, by simp only [hit, if_false, false_and]; rfl⟩
  · exact .inl ⟨hprobes, probe_of_not_probes hprobes src t⟩

/-- Settles O38: each clause reads off the equation of its case, `probe_of_probes`, `copyTurn_at_limit` or
`copyTurn_below_limit`. -/
theorem probeAndCopyRecordBeforeCompare : Obligations.ProbeAndCopyRecordBeforeCompare := by
  unfold Obligations.ProbeAndCopyRecordBeforeCompare
  intro n src c t r
  refine ⟨?probe, ?copy⟩
  case probe =>
    intro hp hprobes h cand
    have hr : r = probe src c t := Compressor.act_probe n src t hp
    rw [probe_of_probes (c.probes_iff.2 hprobes) (rfl : h = _) (rfl : cand = _)] at hr
    rw [hr]
    refine ⟨⟨by rw [HashTable.get_set, if_pos rfl], fun h' hne => by rw [HashTable.get_set, if_neg hne.symm]⟩,
      fun hit => ⟨if_pos hit, fun hlt => if_pos ⟨hit, hlt⟩⟩, fun hmiss => ⟨if_neg fun hit => hmiss hit.1, ?_⟩⟩
    dsimp only
    rw [if_neg hmiss, Nat.shiftRight_eq_div_pow]
    rfl
  case copy =>
    intro hp m ip
    have hr : r = copyTurn src c t := Compressor.act_copy n src t hp
    rcases le_or_gt c.ipLimit ((ip : Nat) : Int) with hstop | hgo
    · rw [copyTurn_at_limit t (rfl : m = _) hstop] at hr
      rw [hr]
      exact ⟨rfl, fun _ => ⟨rfl, rfl⟩, fun hgo => absurd hgo (not_lt.2 hstop)⟩
    · refine ⟨?_, fun hstop => absurd hstop (not_le.2 hgo), fun _ => ?_⟩
      · rw [hr, copyTurn_below_limit (rfl : m = _) hgo rfl rfl rfl rfl]
      · intro before here found cand
        have hcand : cand = c.wb + ((t.set before (BitVec.ofNat 16 (ip - 1 - c.wb))).get here).toNat := by
          rw [HashTable.get_set]
          simp only [eq_comm (a := before)]
          rfl
        rw [copyTurn_below_limit (rfl : m = _) hgo (rfl : before = _) (rfl : here = _) rfl hcand] at hr
        rw [hr]
        simp only [HashTable.get_set, if_true]
        refine ⟨rfl, fun hne => if_neg hne.symm,
          fun h hb hh => by rw [if_neg hh.symm, if_neg hb.symm], fun hit => ?_, fun hmiss => ?_⟩
        · rw [if_pos hit]
        · rw [if_neg hmiss]

/-! ### The scan position -/

/-- Settles O39: the header and the remainder leave `ip`, a set-up moves it to the window's start, which the invariant
puts past it, and each other phase moves it by its own stride. -/
theorem scanPositionAdvances : Obligations.ScanPositionAdvances := by
  unfold Obligations.ScanPositionAdvances
  intro n src c t h r
  cases hp : c.phase with
  | header =>
    have hr : r = _ := congrArg Prod.fst (Compressor.act_header n src t hp)
    simp [hr]
  | window =>
    have hr : r = _ := congrArg Prod.fst (Compressor.act_window n src t hp)
    simp only [Compressor.inv, hp] at h
    simpa [hr, windowSetup] using h.2.2
  | scan =>
    have hr : r = scanTest c := congrArg Prod.fst (Compressor.act_scan n src t hp)
    rw [hr, scanTest]
    split <;> simp
  | probe =>
    have hr : r = (probe src c t).1 := congrArg Prod.fst (Compressor.act_probe n src t hp)
    simp only [Compressor.inv, hp] at h
    obtain ⟨-, -, -, hskip, -⟩ := h
    have hstride : 1 ≤ c.skip / 32 := Nat.div_pos hskip (by norm_num)
    obtain ⟨-, heq⟩ | ⟨-, here, cand, -, -, ⟨-, heq⟩ | ⟨-, heq⟩⟩ := probe_cases src c t <;> rw [hr, heq]
    · simp
    · simp
    · simpa [hp] using hstride
  | copy =>
    have hr : r = (copyTurn src c t).1 := congrArg Prod.fst (Compressor.act_copy n src t hp)
    simp only [Compressor.inv, hp] at h
    obtain ⟨hw, hlim, -⟩ := h
    have hlimit := hw.limit
    simp only [Config.inputMargin] at hlimit
    obtain ⟨m, hm, hmax, hcase⟩ := copyTurn_cases src c t
    have hip : r.ip = c.ip + m := by
      rcases hcase with ⟨-, heq⟩ | ⟨-, u, before, here, cand, -, -, -, -, heq⟩ <;> rw [hr, heq]
    refine ⟨by omega, fun _ => by omega, ?_, ?_⟩ <;> simp
  | tail =>
    have hr : r = _ := congrArg Prod.fst (Compressor.act_tail n src t hp)
    simp [hr, remainder]

end Sys2Proof.Machine
end

section
/-! Runs of the compressor (40_compressor.md R170, R178, R186, R192): how the block unfolds action by action and the
block of a short source (O40); a bound on the actions left, which every action lowers; and that a run depends on the
source bytes alone. -/

namespace Sys2Proof.Machine

/-! ### The block, action by action -/

theorem exactFrom_of_finished {n : Nat} {c : Compressor} (h : c.finished n) (k : Nat) (src : Nat → Byte)
    (t : HashTable) : exactFrom k n src c t = [] := by
  cases k with
  | zero => rfl
  | succ k => rw [exactFrom, if_pos h]

theorem exactFrom_succ {n : Nat} {c : Compressor} (h : ¬ c.finished n) (k : Nat) (src : Nat → Byte) (t : HashTable) :
    exactFrom (k + 1) n src c t =
      (c.act n src t).2.2 ++ exactFrom k n src (c.act n src t).1 (c.act n src t).2.1 := by
  rw [exactFrom, if_neg h]

theorem Compressor.not_finished_of_phase {n : Nat} {c : Compressor} (h : c.phase ≠ .window) : ¬ c.finished n :=
  fun hf => h hf.1

/-- The remainder of the last window is the end of the block (R185). -/
theorem exactFrom_of_tail {n : Nat} {c : Compressor} (hp : c.phase = .tail) (hwe : c.we = n) (k : Nat)
    (src : Nat → Byte) (t : HashTable) :
    exactFrom (k + 1) n src c t =
      if c.nextEmit < n then emitLiteral src c.nextEmit (n - c.nextEmit) else [] := by
  rw [exactFrom_succ (Compressor.not_finished_of_phase (by simp [hp])), Compressor.act_tail n src t hp,
    exactFrom_of_finished ⟨rfl, by simp [remainder, hwe]⟩, List.append_nil, remainder]
  simp only [Compressor.pending, hwe]

/-- A search whose next probe is past the limit leaves the last window to its remainder (R177). -/
theorem exactFrom_of_not_probes {n : Nat} {c : Compressor} (hp : c.phase = .probe) (hwe : c.we = n)
    (h : ¬ c.probes) (k : Nat) (src : Nat → Byte) (t : HashTable) :
    exactFrom (k + 2) n src c t =
      if c.nextEmit < n then emitLiteral src c.nextEmit (n - c.nextEmit) else [] := by
  rw [exactFrom_succ (Compressor.not_finished_of_phase (by simp [hp])), Compressor.act_probe n src t hp,
    probe_of_not_probes h]
  simp only [List.nil_append]
  exact exactFrom_of_tail (by rfl) (by exact hwe) k src t

/-- A window too short for a probe is its remainder (R178, R186). -/
theorem exactFrom_of_scan {n : Nat} {c : Compressor} (hp : c.phase = .scan) (hwe : c.we = n)
    (hlim : c.ipLimit < c.ip + 2) (k : Nat) (src : Nat → Byte) (t : HashTable) :
    exactFrom (k + 3) n src c t =
      if c.nextEmit < n then emitLiteral src c.nextEmit (n - c.nextEmit) else [] := by
  rw [exactFrom_succ (Compressor.not_finished_of_phase (by simp [hp])), Compressor.act_scan n src t hp, scanTest]
  simp only [List.nil_append]
  split
  next =>
    refine exactFrom_of_not_probes (by rfl) (by exact hwe) ?_ k src t
    rw [Compressor.probes_iff]
    simp only [Config.skipInit]
    omega
  next => exact exactFrom_of_tail (by rfl) (by exact hwe) (k + 1) src t

/-- Settles O40: no probe is made in the one window, so its remainder is the whole source. -/
theorem shortSourceIsOneLiteral : Obligations.ShortSourceIsOneLiteral := by
  unfold Obligations.ShortSourceIsOneLiteral
  intro n src hpos hle
  have hheader : encodeVarint n = [BitVec.ofNat 8 n] := by
    rw [encodeVarint, encodeVarintUpTo, if_pos (by omega)]
  have hliteral := literalEmissionIsShortest src 0 n hpos (by omega)
  simp only [if_pos (show n - 1 < 60 by omega), Nat.zero_add] at hliteral
  have hwe : min n (0 + Config.window) = n := min_eq_left (by simp only [Config.window]; omega)
  have hunfinished : ¬ Compressor.finished n { Compressor.initial with phase := .window } :=
    fun hf => absurd hf.2 (not_le.2 hpos)
  rw [exactBlock, compressorActions, exactFrom_succ (Compressor.not_finished_of_phase (by simp [Compressor.initial])),
    Compressor.act_header _ _ _ rfl, exactFrom_succ hunfinished, Compressor.act_window _ _ _ rfl,
    exactFrom_of_scan rfl hwe, hheader]
  · simp only [windowSetup, Compressor.initial, Nat.pos_of_ne_zero (Nat.one_le_iff_ne_zero.1 hpos), if_true, hliteral,
      Nat.sub_zero, List.nil_append]
    rfl
  · simp only [windowSetup, Compressor.initial, hwe, Config.inputMargin]
    omega

/-! ### Every run ends (R178) -/

/-- A bound on the actions left: eight for every byte of the windows to come, four for every byte of this window that is
still to be scanned, and what the phase itself takes. -/
def Compressor.actionsLeft (n : Nat) (c : Compressor) : Nat :=
  match c.phase with
  | .header => 8 * n + 1
  | .window => 8 * (n - c.wb)
  | .scan => 8 * (n - c.we) + 4 * (c.we - c.ip) + 2
  | .probe => 8 * (n - c.we) + 4 * (c.we - c.ip) + 5
  | .copy => 8 * (n - c.we) + 4 * (c.we - c.ip) + 4
  | .tail => 8 * (n - c.we) + 1

theorem Compressor.initial_actionsLeft (n : Nat) : Compressor.initial.actionsLeft n < compressorActions n := by
  simp only [Compressor.actionsLeft, Compressor.initial, compressorActions]
  omega

/-- Every action lowers the bound. -/
theorem Compressor.act_actionsLeft {n : Nat} {c : Compressor} {t : HashTable} (h : c.inv n t) (hf : ¬ c.finished n)
    (src : Nat → Byte) : (c.act n src t).1.actionsLeft n < c.actionsLeft n := by
  obtain ⟨-, hcopy, hprobe, -⟩ := scanPositionAdvances n src c t h
  cases hp : c.phase with
  | header =>
    simp only [Compressor.inv, hp] at h
    rw [Compressor.act_header n src t hp]
    simp only [Compressor.actionsLeft, hp]
    omega
  | window =>
    have hlt : c.wb < n := Nat.lt_of_not_le fun hle => hf ⟨hp, hle⟩
    rw [Compressor.act_window n src t hp]
    simp only [Compressor.actionsLeft, hp, windowSetup, Config.window]
    omega
  | scan =>
    rw [Compressor.act_scan n src t hp, scanTest]
    simp only [Compressor.inv, hp] at h
    have hlimit := h.1.limit
    simp only [Config.inputMargin] at hlimit
    split <;> simp only [Compressor.actionsLeft, hp] <;> omega
  | probe =>
    simp only [Compressor.inv, hp] at h
    obtain ⟨hw, -, hlim, -⟩ := h
    have hlimit := hw.limit
    simp only [Config.inputMargin] at hlimit
    rw [Compressor.act_probe n src t hp] at hprobe ⊢
    obtain ⟨-, heq⟩ | ⟨hprobes, here, cand, -, -, ⟨-, heq⟩ | ⟨-, heq⟩⟩ := probe_cases src c t <;> rw [heq] at hprobe ⊢
    · simp only [Compressor.actionsLeft, hp]
      omega
    · simp only [Compressor.actionsLeft, hp]
      omega
    · have := (hprobe hp hp).2
      simp only [Compressor.actionsLeft, hp] at this ⊢
      omega
  | copy =>
    obtain ⟨hmin, hmax⟩ := hcopy hp
    rw [Compressor.act_copy n src t hp] at hmin hmax ⊢
    obtain ⟨m, -, -, ⟨-, heq⟩ | ⟨-, u, before, here, cand, -, -, -, -, heq⟩⟩ := copyTurn_cases src c t
      <;> rw [heq] at hmin hmax ⊢ <;> simp only at hmin hmax ⊢
    · simp only [Compressor.actionsLeft, hp]
      omega
    · split <;> simp only [Compressor.actionsLeft, hp] <;> omega
  | tail =>
    rw [Compressor.act_tail n src t hp]
    simp only [Compressor.actionsLeft, hp, remainder]
    omega

/-! ### A run depends on the source bytes alone (R192) -/

section Reads

variable {n : Nat} {src src' : Nat → Byte} (h : ∀ i, i < n → src' i = src i)

include h

theorem load32_congr {i : Nat} (hi : i + 4 ≤ n) : load32 src' i = load32 src i := by
  rw [load32, load32, h i (by omega), h (i + 1) (by omega), h (i + 2) (by omega), h (i + 3) (by omega)]

theorem matchLen_congr {a b room : Nat} (ha : a ≤ b) (hb : b + room ≤ n) :
    matchLen src' a b room = matchLen src a b room := by
  induction room generalizing a b with
  | zero => rfl
  | succ room ih =>
    rw [matchLen, matchLen, h a (by omega), h b (by omega), ih (by omega) (by omega)]

theorem emitLiteral_congr {start len : Nat} (hlen : start + len ≤ n) :
    emitLiteral src' start len = emitLiteral src start len := by
  rw [emitLiteral, emitLiteral]
  congr 1
  refine List.map_congr_left fun i hi => h _ ?_
  have := List.mem_range.1 hi
  omega

end Reads

/-- Two runs that cannot be told apart by what they emit: the same source bytes, the same working state but for `op`,
and, while a window is scanned, the same entries in the part of the table it uses (10_state.md R62). -/
structure Compressor.SameRun (n : Nat) (src src' : Nat → Byte) (c c' : Compressor) (t t' : HashTable) : Prop where
  source : ∀ i, i < n → src' i = src i
  state : c' = { c with op := c'.op }
  table : c.phase = .scan ∨ c.phase = .probe ∨ c.phase = .copy → ∀ h, h < c.ts → t'.get h = t.get h

/-- Recording one entry in both tables keeps them alike. -/
theorem HashTable.get_set_congr {t t' : HashTable} {ts : Nat} (h : ∀ i, i < ts → t'.get i = t.get i) (j : Nat)
    (v : Entry) : ∀ i, i < ts → (t'.set j v).get i = (t.set j v).get i := by
  intro i hi
  rw [HashTable.get_set, HashTable.get_set, h i hi]

section SameRun

variable {n : Nat} {src src' : Nat → Byte} {c : Compressor} {t t' : HashTable} (hsrc : ∀ i, i < n → src' i = src i)
  (hget : ∀ i, i < c.ts → t'.get i = t.get i) (hw : c.InWindow n) (op : Nat)

include hsrc hget hw

/-- Two probes that see the same bytes and entries hit or miss alike. -/
theorem probe_sameRun (hemit : c.nextEmit < c.ip) (hbelow : ∀ h, h < c.ts → c.wb + (t.get h).toNat < c.ip) :
    (probe src' { c with op := op } t').2.2 = (probe src c t).2.2
      ∧ Compressor.SameRun n src src' (probe src c t).1 (probe src' { c with op := op } t').1 (probe src c t).2.1
        (probe src' { c with op := op } t').2.1 := by
  have hends := hw.ends
  have hlimit := hw.limit
  simp only [Config.inputMargin] at hlimit
  obtain ⟨hprobes, heq⟩ | ⟨hprobes, here, cand, hhere, hcand, hcase⟩ := probe_cases src c t
  · rw [heq, probe_of_not_probes (c := { c with op := op }) hprobes]
    exact ⟨rfl, hsrc, rfl, by simp⟩
  · have hlim : (c.ip : Int) ≤ c.ipLimit := (Int.ofNat_le.2 (Nat.le_add_right _ _)).trans hprobes
    have hhash : here < c.ts := hhere ▸ hw.hash_lt _
    have hlt := hbelow here hhash
    have hip : load32 src' c.ip = load32 src c.ip := load32_congr hsrc (by omega)
    have hload : load32 src' cand = load32 src cand := load32_congr hsrc (by omega)
    have hset := HashTable.get_set_congr hget here (BitVec.ofNat 16 (c.ip - c.wb))
    rw [probe_of_probes (c := { c with op := op }) (here := here) (cand := cand) hprobes (by rw [hhere, hip])
      (by rw [hcand, hget here hhash])]
    obtain ⟨hit, heq⟩ | ⟨hmiss, heq⟩ := hcase
    · simp only [heq, hload, hip, hit, hemit, and_self, if_true]
      exact ⟨emitLiteral_congr hsrc (by omega), hsrc, rfl, fun _ => hset⟩
    · simp only [heq, hload, hip, hmiss, if_false, false_and]
      exact ⟨trivial, hsrc, by simp only [Nat.shiftRight_eq_div_pow]; rfl, fun _ => hset⟩

/-- Two copies that see the same bytes and entries are as long and look up the same candidate. -/
theorem copyTurn_sameRun (hlim : (c.ip : Int) ≤ c.ipLimit) (hcand : c.cand < c.ip)
    (hbelow : t.UpTo c.ts c.wb c.ip) :
    (copyTurn src' { c with op := op } t').2.2 = (copyTurn src c t).2.2
      ∧ Compressor.SameRun n src src' (copyTurn src c t).1 (copyTurn src' { c with op := op } t').1
        (copyTurn src c t).2.1 (copyTurn src' { c with op := op } t').2.1 := by
  have hends := hw.ends
  have hbase := hw.base
  have hemit := hw.emitted
  have hlimit := hw.limit
  simp only [Config.inputMargin] at hlimit
  have hlen := matchLen_congr (a := c.cand + 4) (b := c.ip + 4) (room := c.we - (c.ip + 4)) hsrc (by omega) (by omega)
  obtain ⟨m, hm, hmax, ⟨hstop, heq⟩ | ⟨hgo, u, before, here, cand, hu, hbefore, hhere, hcand', heq⟩⟩ :=
    copyTurn_cases src c t
  · rw [heq, copyTurn_at_limit (c := { c with op := op }) t' (by rw [hm, hlen]) hstop]
    exact ⟨rfl, hsrc, rfl, fun _ => hget⟩
  · have hhash : here < c.ts := hhere ▸ hw.hash_lt _
    have hgetu : ∀ i, i < c.ts → (t'.set before (BitVec.ofNat 16 (c.ip + m - 1 - c.wb))).get i = u.get i :=
      hu ▸ HashTable.get_set_congr hget _ _
    have hupto : u.UpTo c.ts c.wb (c.ip + m - 1) := by
      rw [hu]
      exact (hbelow.mono (by omega)).set (by omega) (Nat.le_refl _) _
    have hle := hupto here hhash
    have hload : load32 src' cand = load32 src cand := load32_congr hsrc (by omega)
    have hip : load32 src' (c.ip + m) = load32 src (c.ip + m) := load32_congr hsrc (by omega)
    have hprev : load32 src' (c.ip + m - 1) = load32 src (c.ip + m - 1) := load32_congr hsrc (by omega)
    rw [heq, copyTurn_below_limit (c := { c with op := op }) (before := before) (here := here) (cand := cand)
      (by rw [hm, hlen]) hgo (by rw [hbefore, hprev]) (by rw [hhere, hip]) rfl (by rw [hgetu here hhash, hcand'])]
    dsimp only
    rw [hload, hip]
    exact ⟨rfl, hsrc, rfl, fun _ => HashTable.get_set_congr hgetu _ _⟩

end SameRun

/-- An action of two such runs emits the same bytes, and the runs stay so. -/
theorem Compressor.act_sameRun {n : Nat} {src src' : Nat → Byte} {c c' : Compressor} {t t' : HashTable}
    (h : SameRun n src src' c c' t t') (hinv : c.inv n t) :
    (c'.act n src' t').2.2 = (c.act n src t).2.2
      ∧ SameRun n src src' (c.act n src t).1 (c'.act n src' t').1 (c.act n src t).2.1 (c'.act n src' t').2.1 := by
  obtain ⟨hsrc, hstate, htable⟩ := h
  generalize c'.op = op at hstate
  cases hp : c.phase <;> subst hstate <;> simp only [Compressor.inv, hp] at hinv
  case header =>
    rw [Compressor.act_header n src t hp, Compressor.act_header (c := { c with op := op }) n src' t' hp]
    exact ⟨rfl, hsrc, rfl, by simp⟩
  case window =>
    rw [Compressor.act_window n src t hp, Compressor.act_window (c := { c with op := op }) n src' t' hp]
    refine ⟨rfl, hsrc, rfl, fun _ i hi => ?_⟩
    simp only [windowSetup] at hi ⊢
    rw [HashTable.get_clear, HashTable.get_clear, if_pos hi, if_pos hi]
  case scan =>
    rw [Compressor.act_scan n src t hp, Compressor.act_scan (c := { c with op := op }) n src' t' hp]
    simp only [scanTest]
    split <;> exact ⟨trivial, hsrc, rfl, fun _ => htable (.inl hp)⟩
  case probe =>
    obtain ⟨hw, hemit, -, -, hbelow⟩ := hinv
    rw [Compressor.act_probe n src t hp, Compressor.act_probe (c := { c with op := op }) n src' t' hp]
    exact probe_sameRun hsrc (htable (.inr (.inl hp))) hw op hemit hbelow
  case copy =>
    obtain ⟨hw, hlim, -, hcand, hbelow⟩ := hinv
    rw [Compressor.act_copy n src t hp, Compressor.act_copy (c := { c with op := op }) n src' t' hp]
    exact copyTurn_sameRun hsrc (htable (.inr (.inr hp))) hw op hlim hcand hbelow
  case tail =>
    obtain ⟨hw, hemit, -⟩ := hinv
    have hends := hw.ends
    rw [Compressor.act_tail n src t hp, Compressor.act_tail (c := { c with op := op }) n src' t' hp]
    refine ⟨?_, hsrc, rfl, by simp [remainder]⟩
    simp only [remainder]
    split
    · exact emitLiteral_congr hsrc (by omega)
    · rfl

/-- Two such runs are finished together. -/
theorem Compressor.SameRun.finished_iff {n : Nat} {src src' : Nat → Byte} {c c' : Compressor} {t t' : HashTable}
    (h : SameRun n src src' c c' t t') : c'.finished n ↔ c.finished n := by
  rw [h.state]

/-- Two such runs make the same block. -/
theorem exactFrom_sameRun {n : Nat} {src src' : Nat → Byte} {c c' : Compressor} {t t' : HashTable}
    (h : Compressor.SameRun n src src' c c' t t') (hinv : c.inv n t) (k : Nat) :
    exactFrom k n src' c' t' = exactFrom k n src c t := by
  induction k generalizing c c' t t' with
  | zero => rfl
  | succ k ih =>
    by_cases hf : c.finished n
    · rw [exactFrom_of_finished hf, exactFrom_of_finished (h.finished_iff.2 hf)]
    · obtain ⟨hbytes, hnext⟩ := Compressor.act_sameRun h hinv
      rw [exactFrom_succ hf, exactFrom_succ (mt h.finished_iff.1 hf), hbytes, ih hnext (Compressor.act_inv hinv hf src)]

/-- The exact block is a function of the source bytes (R192). -/
theorem exactBlock_congr {n : Nat} {src src' : Nat → Byte} (h : ∀ i, i < n → src' i = src i) :
    exactBlock n src' = exactBlock n src :=
  exactFrom_sameRun ⟨h, rfl, fun _ _ _ => rfl⟩ (Compressor.initial_inv n _) _

end Sys2Proof.Machine
end

section
/-! What the emitted elements mean (40_compressor.md R180 to R184, R191; 41_decompressor.md R236, R242): each literal
and each copy of the compressor appends the source bytes it stands for, is of the emitted subset, and is short enough
for R190. -/

namespace Sys2Proof.Machine

/-! ### Sequences of emitted elements -/

/-- The first `p` source bytes. -/
def sourcePrefix (src : Nat → Byte) (p : Nat) : List Byte := (List.range p).map src

@[simp] theorem sourcePrefix_length (src : Nat → Byte) (p : Nat) : (sourcePrefix src p).length = p := by
  simp [sourcePrefix]

theorem sourcePrefix_add (src : Nat → Byte) (p len : Nat) :
    sourcePrefix src (p + len) = sourcePrefix src p ++ (List.range len).map fun i => src (p + i) := by
  simp [sourcePrefix, List.range_add]

theorem sourcePrefix_getD (src : Nat → Byte) {p i : Nat} (h : i < p) : (sourcePrefix src p).getD i 0#8 = src i := by
  simp [sourcePrefix, h]

/-- The bytes are elements of the emitted subset that take the output from `out` to `out'`, at most one for each byte,
whatever follows them. -/
def Expands (cap : Nat) (bytes out out' : List Byte) : Prop :=
  ∃ k, k ≤ bytes.length ∧ ∀ fuel rest,
    expandFrom emitted cap (fuel + k) (bytes ++ rest) out = expandFrom emitted cap fuel rest out'

theorem Expands.nil (cap : Nat) (out : List Byte) : Expands cap [] out out := ⟨0, Nat.le_refl 0, fun _ _ => rfl⟩

theorem Expands.append {cap : Nat} {xs ys out out₁ out₂ : List Byte} (hx : Expands cap xs out out₁)
    (hy : Expands cap ys out₁ out₂) : Expands cap (xs ++ ys) out out₂ := by
  obtain ⟨j, hj, hx⟩ := hx
  obtain ⟨k, hk, hy⟩ := hy
  refine ⟨k + j, by rw [List.length_append]; omega, fun fuel rest => ?_⟩
  rw [← Nat.add_assoc, List.append_assoc, hx, hy]

/-- One element whose stream decodes, that is allowed where it stands, and that is not in error. -/
theorem expandFrom_element {ok : Nat → Instr → Bool} {cap : Nat} {stream rest rest' out out' : List Byte} {i : Instr}
    (hd : decodeElement stream = .ok (i, rest)) (hok : ok out.length i = true)
    (ho : elementOutput cap i rest out = some (rest', out')) (fuel : Nat) :
    expandFrom ok cap (fuel + 1) stream out = expandFrom ok cap fuel rest' out' := by
  cases stream with
  | nil => cases hd
  | cons b bs => simp only [expandFrom, hd, hok, ho, if_true]

/-- The emitted subset is of well-formed elements (30_encoding.md R135). -/
theorem wf_of_emitted {pos : Nat} {i : Instr} (h : emitted pos i = true) : i.wf = true ∧ i.space = .element := by
  cases i with
  | lit | lit1 | lit2 | copy1 | copy2 =>
    simp only [emitted, Bool.and_eq_true, decide_eq_true_eq] at h
    simp only [Instr.wf, Instr.space, decide_eq_true_eq, and_true]
    omega
  | lit3 | lit4 | copy4 | nop | compress | decompress | maxlen => cases h

/-- An emitted element with its payload. -/
theorem Expands.element {cap : Nat} {i : Instr} {payload out out' : List Byte} (hok : emitted out.length i = true)
    (ho : ∀ rest, elementOutput cap i (payload ++ rest) out = some (rest, out')) :
    Expands cap (encode i ++ payload) out out' := by
  obtain ⟨hwf, hspace⟩ := wf_of_emitted hok
  have hlen := encode_length_element hspace
  refine ⟨1, by rw [List.length_append]; omega, fun fuel rest => ?_⟩
  have hd : decodeElement (encode i ++ (payload ++ rest)) = .ok (i, payload ++ rest) := by
    have := decodeEncodeRoundTrip i (payload ++ rest) hwf
    rwa [hspace] at this
  rw [List.append_assoc]
  exact expandFrom_element hd hok (ho rest) fuel

/-- A whole stream of emitted elements expands, with as much fuel as it has bytes. -/
theorem Expands.expandFrom_eq {cap fuel : Nat} {bytes out out' : List Byte} (h : Expands cap bytes out out')
    (hfuel : bytes.length ≤ fuel) : expandFrom emitted cap fuel bytes out = some out' := by
  obtain ⟨k, hk, h⟩ := h
  have := h (fuel - k) []
  rw [Nat.sub_add_cancel (hk.trans hfuel), List.append_nil] at this
  rw [this, expandFrom]

/-! ### Literals -/

/-- The forms of the literals of a window (R180). -/
theorem literalForm_cases {len : Nat} (hmax : len ≤ 65536) :
    (len ≤ 60 ∧ literalForm len = .lit len) ∨ (61 ≤ len ∧ len ≤ 256 ∧ literalForm len = .lit1 len)
      ∨ (257 ≤ len ∧ literalForm len = .lit2 len) := by
  unfold literalForm
  split_ifs with h60 h256 h65536 <;> simp only [Config.litDirectMax] at h60
  · exact .inl ⟨by omega, rfl⟩
  · exact .inr (.inl ⟨by omega, by omega, rfl⟩)
  · exact .inr (.inr ⟨by omega, rfl⟩)
  all_goals omega

theorem elementOutput_literalForm {cap len : Nat} {payload out : List Byte} (hmax : len ≤ 65536)
    (hlen : payload.length = len) (hcap : out.length + len ≤ cap) (rest : List Byte) :
    elementOutput cap (literalForm len) (payload ++ rest) out = some (rest, out ++ payload) := by
  have hfits : ¬ ((payload ++ rest).length < len ∨ cap < out.length + len) := by
    rw [List.length_append]
    omega
  rcases literalForm_cases hmax with ⟨-, h⟩ | ⟨-, -, h⟩ | ⟨-, h⟩ <;>
    simp only [h, elementOutput, if_neg hfits, List.drop_left' hlen, List.take_left' hlen]

/-- A literal appends the source bytes it is made of. -/
theorem expands_emitLiteral {n start len : Nat} (src : Nat → Byte) (hpos : 1 ≤ len) (hmax : len ≤ 65536)
    (hn : start + len ≤ n) :
    Expands n (emitLiteral src start len) (sourcePrefix src start) (sourcePrefix src (start + len)) := by
  rw [sourcePrefix_add]
  refine Expands.element ?_ (elementOutput_literalForm hmax (by simp) (by simpa using hn))
  rcases literalForm_cases hmax with ⟨hle, h⟩ | ⟨hge, hle, h⟩ | ⟨hge, h⟩ <;>
    simp only [h, emitted, decide_eq_true_eq] <;> omega

/-- Beyond its payload a literal takes at most one byte and a sixtieth of its length: one byte up to 60, two up to 256,
then three (R180). -/
theorem emitLiteral_length_le {start len : Nat} (src : Nat → Byte) (hmax : len ≤ 65536) :
    60 * (emitLiteral src start len).length ≤ 61 * len + 60 := by
  rw [emitLiteral, List.length_append, List.length_map, List.length_range]
  rcases literalForm_cases hmax with ⟨hle, h⟩ | ⟨hge, hle, h⟩ | ⟨hge, h⟩ <;>
    simp only [h, encode, List.length_cons, List.length_nil, leBytes_length] <;> omega

/-! ### Copies -/

/-- The forms of the pieces of a copy (R183). -/
theorem copyForm_cases (off m : Nat) :
    (m ≤ 11 ∧ off ≤ 2047 ∧ copyForm off m = .copy1 off m) ∨ copyForm off m = .copy2 off m := by
  unfold copyForm
  split_ifs with h
  · exact .inl ⟨Nat.le_of_lt_succ h.1, Nat.le_of_lt_succ h.2, rfl⟩
  · exact .inr rfl

/-- A copy whose bytes agree with those `off` before them appends the source bytes it stands for (R242). -/
theorem appendCopy_sourcePrefix {src : Nat → Byte} {p off : Nat} (hpos : 1 ≤ off) (hoff : off ≤ p) {len : Nat}
    (h : ∀ j, j < len → src (p + j - off) = src (p + j)) :
    appendCopy (sourcePrefix src p) off len = sourcePrefix src (p + len) := by
  induction len generalizing p with
  | zero => rfl
  | succ len ih =>
    have hnext : sourcePrefix src p ++ [(sourcePrefix src p).getD ((sourcePrefix src p).length - off) 0#8]
        = sourcePrefix src (p + 1) := by
      rw [sourcePrefix_length, sourcePrefix_getD src (by omega), sourcePrefix_add]
      simpa using h 0 len.succ_pos
    rw [appendCopy, hnext, ih (by omega)]
    · rw [Nat.add_right_comm, Nat.add_assoc]
    · intro j hj
      simpa only [Nat.add_assoc, Nat.add_comm 1] using h (j + 1) (Nat.succ_lt_succ hj)

theorem elementOutput_copyForm {cap off m : Nat} {out : List Byte} (hpos : 1 ≤ off) (hoff : off ≤ out.length)
    (hcap : out.length + m ≤ cap) (rest : List Byte) :
    elementOutput cap (copyForm off m) rest out = some (rest, appendCopy out off m) := by
  have hfits : ¬ (off = 0 ∨ out.length < off ∨ cap < out.length + m) := by omega
  rcases copyForm_cases off m with ⟨-, -, h⟩ | h <;> simp only [h, elementOutput, if_neg hfits]

section Copy

variable {n wb p off m : Nat} {src : Nat → Byte}

/-- A piece inside one window is of the emitted subset (R173, R191). -/
theorem emitted_copyForm (hmin : 4 ≤ m) (hmax : m ≤ 64) (hpos : 1 ≤ off) (hoff : off ≤ 65535)
    (halign : wb % Config.window = 0) (hbase : wb + off ≤ p) (hend : p + m ≤ wb + Config.window) :
    emitted p (copyForm off m) = true := by
  simp only [Config.window] at halign hend
  have hwindow : off ≤ p ∧ (p - off) / 65536 = (p + m - 1) / 65536 := by omega
  rcases copyForm_cases off m with ⟨hm, hoff', h⟩ | h <;>
    simp only [h, emitted, Config.window, hwindow, Bool.and_eq_true, decide_eq_true_eq, and_true] <;> omega

/-- A copy inside one window appends the source bytes it stands for (R182, R184). -/
theorem expands_emitCopy (hmin : 4 ≤ m) (hpos : 1 ≤ off) (hoff : off ≤ 65535) (halign : wb % Config.window = 0)
    (hbase : wb + off ≤ p) (hend : p + m ≤ wb + Config.window) (hn : p + m ≤ n)
    (h : ∀ j, j < m → src (p + j - off) = src (p + j)) :
    Expands n (emitCopy off m) (sourcePrefix src p) (sourcePrefix src (p + m)) := by
  revert hbase hend hn h
  refine emitCopy_induction (P := fun p m bytes => wb + off ≤ p → p + m ≤ wb + Config.window → p + m ≤ n →
    (∀ j, j < m → src (p + j - off) = src (p + j)) → Expands n bytes (sourcePrefix src p) (sourcePrefix src (p + m)))
    off ?piece ?append p hmin
  case piece =>
    intro p m hmin hmax hbase hend hn h
    rw [← appendCopy_sourcePrefix hpos (by omega) h, ← List.append_nil (encode _)]
    refine Expands.element ?_ (elementOutput_copyForm hpos ?_ ?_) <;> rw [sourcePrefix_length]
    · exact emitted_copyForm hmin hmax hpos hoff halign hbase hend
    · omega
    · exact hn
  case append =>
    intro p m k xs ys hx hy hbase hend hn h
    rw [← Nat.add_assoc]
    refine (hx hbase (by omega) (by omega) fun j hj => h j (by omega)).append
      (hy (by omega) (by omega) (by omega) fun j hj => ?_)
    simpa only [Nat.add_assoc] using h (m + j) (by omega)

/-- A copy takes fewer bytes than it stands for. -/
theorem emitCopy_length_lt (off : Nat) (hmin : 4 ≤ m) : (emitCopy off m).length < m := by
  refine emitCopy_induction (P := fun _ m bytes => bytes.length < m) off ?piece ?append 0 hmin
  case piece =>
    intro _ m hmin _
    rcases copyForm_cases off m with ⟨-, -, h⟩ | h <;>
      simp only [h, encode, List.length_cons, leBytes_length] <;> omega
  case append =>
    intro _ m k xs ys hx hy
    rw [List.length_append]
    omega

end Copy

/-! ### Candidates -/

theorem eq_of_leValue_eq {xs ys : List Byte} (hlen : xs.length = ys.length) (h : leValue xs = leValue ys) :
    xs = ys := by
  rw [← leBytes_leValue xs, ← leBytes_leValue ys, hlen, h]

/-- Words that are equal are made of the same four bytes (R176). -/
theorem eq_of_load32_eq {src : Nat → Byte} {a b : Nat} (h : load32 src a = load32 src b) {i : Nat} (hi : i < 4) :
    src (a + i) = src (b + i) := by
  have hlt (x : Nat) : leValue [src x, src (x + 1), src (x + 2), src (x + 3)] < 2 ^ 32 :=
    (leValue_lt _).trans_eq (by norm_num)
  have hvalue := congrArg BitVec.toNat h
  rw [load32, load32, BitVec.toNat_ofNat, BitVec.toNat_ofNat, Nat.mod_eq_of_lt (hlt a), Nat.mod_eq_of_lt (hlt b)]
    at hvalue
  have hbytes := eq_of_leValue_eq (by rfl) hvalue
  simp only [List.cons.injEq, and_true] at hbytes
  obtain ⟨h0, h1, h2, h3⟩ := hbytes
  interval_cases i <;> assumption

end Sys2Proof.Machine
end

section
/-! The block as a whole (40_compressor.md R189 to R191): after every action the bytes emitted so far expand to the
source bytes emitted so far and keep within the size bound, so the finished block round-trips (O23). -/

namespace Sys2Proof.Machine

/-! ### What has been emitted -/

/-- How many source bytes the bytes emitted so far stand for; a literal is emitted as the scan turns to its copy (R179),
before `next_emit` moves. -/
def Compressor.emittedUpTo (c : Compressor) : Nat :=
  match c.phase with
  | .header => 0
  | .window => c.wb
  | .copy => c.ip
  | .scan | .probe | .tail => c.nextEmit

/-- How many windows are over: `wb` is a multiple of `WINDOW` or the source end. -/
def Compressor.windowsDone (c : Compressor) : Nat := (c.wb + 65535) / 65536

/-- What holds of the bytes `body` emitted after the header. The size is counted in sixtieths of a byte:
beyond its payload a literal costs a sixtieth of its length and one byte; the copy after it pays that byte back, and at
the end of a window no copy follows. -/
structure Compressor.Emitted (n : Nat) (src : Nat → Byte) (c : Compressor) (body : List Byte) : Prop where
  candidate : c.phase = .copy → load32 src c.cand = load32 src c.ip
  expands : Expands n body [] (sourcePrefix src c.emittedUpTo)
  size : 60 * body.length ≤ 61 * c.emittedUpTo + 60 * c.windowsDone + if c.phase = .copy then 60 else 0

section Phases

variable {n : Nat} {src : Nat → Byte} {c : Compressor} {t : HashTable} {body : List Byte} (h : c.Emitted n src body)

include h

theorem Compressor.Emitted.windowSetup (hp : c.phase = .window) (t : HashTable) :
    (windowSetup n c t).1.Emitted n src body := by
  obtain ⟨-, hexp, hsize⟩ := h
  simp only [Compressor.emittedUpTo, hp] at hexp hsize
  exact ⟨by simp [Machine.windowSetup], hexp, hsize⟩

theorem Compressor.Emitted.scanTest (hp : c.phase = .scan) : (scanTest c).Emitted n src body := by
  obtain ⟨-, hexp, hsize⟩ := h
  simp only [Compressor.emittedUpTo, hp] at hexp hsize
  unfold Machine.scanTest
  split <;> exact ⟨by simp, hexp, hsize⟩

/-- The literal before a copy reaches from `next_emit` to the scan position (R179). -/
theorem Compressor.Emitted.probe (hp : c.phase = .probe) (hw : c.InWindow n) (hemit : c.nextEmit < c.ip) :
    (probe src c t).1.Emitted n src (body ++ (probe src c t).2.2) := by
  obtain ⟨-, hexp, hsize⟩ := h
  simp only [Compressor.emittedUpTo, hp] at hexp hsize
  have hbase := hw.base
  have hends := hw.ends
  have hlimit := hw.limit
  simp only [Config.window, Config.inputMargin] at hends hlimit
  obtain ⟨-, heq⟩ | ⟨hprobes, here, cand, -, -, ⟨hit, heq⟩ | ⟨-, heq⟩⟩ := probe_cases src c t <;> rw [heq]
  · simp only [List.append_nil]
    exact ⟨by simp, hexp, hsize⟩
  · have hlim : (c.ip : Int) ≤ c.ipLimit := (Int.ofNat_le.2 (Nat.le_add_right _ _)).trans hprobes
    have hliteral := expands_emitLiteral (n := n) (start := c.nextEmit) (len := c.ip - c.nextEmit) src (by omega)
      (by omega) (by omega)
    have hlen := emitLiteral_length_le (start := c.nextEmit) (len := c.ip - c.nextEmit) src (by omega)
    rw [Nat.add_sub_of_le hemit.le] at hliteral
    simp only [if_pos hemit]
    refine ⟨fun _ => hit, hexp.append hliteral, ?_⟩
    simp only [Compressor.emittedUpTo, Compressor.windowsDone, List.length_append] at hsize ⊢
    simp only [reduceCtorEq, if_false, if_true] at hsize ⊢
    omega
  · simp only [List.append_nil]
    exact ⟨by simp [hp], by simpa [Compressor.emittedUpTo, hp] using hexp,
      by simpa [Compressor.emittedUpTo, Compressor.windowsDone, hp] using hsize⟩

/-- A copy stands for the bytes from the scan position to its end, and pays for the literal before it. -/
theorem Compressor.Emitted.copyTurn (hp : c.phase = .copy) (hw : c.InWindow n) (hlim : (c.ip : Int) ≤ c.ipLimit)
    (hcand : c.wb ≤ c.cand) (hlt : c.cand < c.ip) :
    (copyTurn src c t).1.Emitted n src (body ++ (copyTurn src c t).2.2) := by
  obtain ⟨hload, hexp, hsize⟩ := h
  have hload := hload hp
  simp only [Compressor.emittedUpTo, hp, if_true] at hexp hsize
  have hends := hw.ends
  have hlimit := hw.limit
  have halign := hw.aligned
  simp only [Config.inputMargin] at hlimit
  obtain ⟨m, hm, hmax, hcase⟩ := copyTurn_cases src c t
  have hagree : ∀ j, j < m → src (c.ip + j - (c.ip - c.cand)) = src (c.ip + j) := by
    intro j hj
    rw [show c.ip + j - (c.ip - c.cand) = c.cand + j by omega]
    rcases Nat.lt_or_ge j 4 with hj4 | hj4
    · exact eq_of_load32_eq hload hj4
    · have := matchLen_agrees (src := src) (a := c.cand + 4) (b := c.ip + 4)
        (room := c.we - (c.ip + 4)) (i := j - 4) (by omega)
      rwa [Nat.add_assoc, Nat.add_assoc, Nat.add_sub_of_le hj4] at this
  have hwindow : Config.window = 65536 := rfl
  have hcopy := expands_emitCopy (n := n) (p := c.ip) (off := c.ip - c.cand) (m := m) (by omega) (by omega) (by omega)
    halign (by omega) (by omega) (by omega) hagree
  have hlen := emitCopy_length_lt (c.ip - c.cand) (m := m) (by omega)
  have hsize' (debt : Nat) :
      60 * (body ++ emitCopy (c.ip - c.cand) m).length ≤ 61 * (c.ip + m) + 60 * c.windowsDone + debt := by
    rw [List.length_append]
    omega
  obtain ⟨-, heq⟩ | ⟨-, u, before, here, cand, -, -, -, -, heq⟩ := hcase <;> rw [heq]
  · exact ⟨by simp, hexp.append hcopy, hsize' _⟩
  · by_cases hit : load32 src cand = load32 src (c.ip + m)
    · simp only [hit, if_true]
      refine ⟨fun _ => hit, by simpa [Compressor.emittedUpTo, hp] using hexp.append hcopy, ?_⟩
      simp only [Compressor.emittedUpTo, hp]
      exact hsize' _
    · simp only [hit, if_false]
      exact ⟨by simp, hexp.append hcopy, hsize' _⟩

/-- The remainder reaches from `next_emit` to the end of the window (R185). -/
theorem Compressor.Emitted.remainder (hp : c.phase = .tail) (hw : c.InWindow n) (hemit : c.nextEmit ≤ c.we) :
    (remainder src c).1.Emitted n src (body ++ (remainder src c).2) := by
  obtain ⟨-, hexp, hsize⟩ := h
  simp only [Compressor.emittedUpTo, hp] at hexp hsize
  have hbase := hw.base
  have hends := hw.ends
  have halign := hw.aligned
  have hnonempty := hw.nonempty
  simp only [Config.window] at hends halign
  simp only [Compressor.windowsDone, reduceCtorEq, if_false] at hsize
  unfold Machine.remainder
  by_cases hpending : c.pending
  · have hliteral := expands_emitLiteral (n := n) (start := c.nextEmit) (len := c.we - c.nextEmit) src
      (Nat.sub_pos_of_lt hpending) (by omega) (by omega)
    have hlen := emitLiteral_length_le (start := c.nextEmit) (len := c.we - c.nextEmit) src (by omega)
    rw [Nat.add_sub_of_le hemit] at hliteral
    simp only [if_pos hpending]
    refine ⟨by simp, hexp.append hliteral, ?_⟩
    simp only [Compressor.emittedUpTo, Compressor.windowsDone, List.length_append, reduceCtorEq, if_false]
    omega
  · have hall : c.nextEmit = c.we := Nat.le_antisymm hemit (Nat.not_lt.1 hpending)
    simp only [if_neg hpending, List.append_nil]
    refine ⟨by simp, hall ▸ hexp, ?_⟩
    simp only [Compressor.emittedUpTo, Compressor.windowsDone, reduceCtorEq, if_false]
    omega

end Phases

/-- Every action past the header goes on with what has been emitted. -/
theorem Compressor.Emitted.act {n : Nat} {src : Nat → Byte} {c : Compressor} {t : HashTable} {body : List Byte}
    (h : c.Emitted n src body) (hinv : c.inv n t) (hp : c.phase ≠ .header) :
    (c.act n src t).1.Emitted n src (body ++ (c.act n src t).2.2) := by
  cases hphase : c.phase <;> simp only [Compressor.inv, hphase] at hinv
  case header => exact absurd hphase hp
  case window =>
    rw [Compressor.act_window n src t hphase, List.append_nil]
    exact h.windowSetup hphase t
  case scan =>
    rw [Compressor.act_scan n src t hphase, List.append_nil]
    exact h.scanTest hphase
  case probe =>
    obtain ⟨hw, hemit, -⟩ := hinv
    rw [Compressor.act_probe n src t hphase]
    exact h.probe hphase hw hemit
  case copy =>
    obtain ⟨hw, hlim, hcand, hlt, -⟩ := hinv
    rw [Compressor.act_copy n src t hphase]
    exact h.copyTurn hphase hw hlim hcand hlt
  case tail =>
    obtain ⟨hw, hemit, -⟩ := hinv
    rw [Compressor.act_tail n src t hphase]
    exact h.remainder hphase hw hemit

/-! ### From the header to the end -/

/-- What holds of all bytes `out` emitted so far: none before the header, then the header and what follows it. -/
def Compressor.Made (n : Nat) (src : Nat → Byte) (c : Compressor) (out : List Byte) : Prop :=
  (c.phase = .header ∧ out = []) ∨ (c.phase ≠ .header ∧ ∃ body, out = encodeVarint n ++ body ∧ c.Emitted n src body)

/-- Every action goes on with what has been made. -/
theorem Compressor.Made.act {n : Nat} {src : Nat → Byte} {c : Compressor} {t : HashTable} {out : List Byte}
    (h : c.Made n src out) (hinv : c.inv n t) : (c.act n src t).1.Made n src (out ++ (c.act n src t).2.2) := by
  refine .inr ⟨Compressor.act_phase_ne_header n src c t, ?_⟩
  rcases h with ⟨hp, rfl⟩ | ⟨hp, body, rfl, hbody⟩
  · simp only [Compressor.inv, hp] at hinv
    rw [Compressor.act_header n src t hp]
    refine ⟨[], by simp, by simp, ?_, by simp⟩
    simp only [Compressor.emittedUpTo, hinv.2.1]
    exact Expands.nil n []
  · exact ⟨_, List.append_assoc _ _ _, hbody.act hinv hp⟩

/-- A header is at most five bytes (R121). -/
theorem encodeVarint_length_le (v : Nat) : (encodeVarint v).length ≤ 5 := by
  by_contra h
  have := (lt_length_encodeVarintUpTo_iff 4 v 5).1 (Nat.lt_of_not_le h)
  omega

/-- Under the invariant, nothing past the source is emitted. -/
theorem Compressor.inv_emittedUpTo_le {n : Nat} {c : Compressor} {t : HashTable} (h : c.inv n t) :
    c.emittedUpTo ≤ n ∧ c.wb ≤ n := by
  cases hp : c.phase <;> simp only [Compressor.inv, Compressor.emittedUpTo, hp] at h ⊢
  case header => omega
  case window => omega
  all_goals
    have hends := h.1.ends
    have hlimit := h.1.limit
    have hnonempty := h.1.nonempty
    have hemitted := h.1.emitted
    simp only [Config.inputMargin] at hlimit
    omega

/-- Nothing made is longer than `MAXLEN` (R190). -/
theorem Compressor.Made.length_le {n : Nat} {src : Nat → Byte} {c : Compressor} {t : HashTable} {out : List Byte}
    (h : c.Made n src out) (hinv : c.inv n t) : out.length ≤ Config.maxLen n := by
  rcases h with ⟨-, rfl⟩ | ⟨-, body, rfl, hbody⟩
  · exact Nat.zero_le _
  · obtain ⟨hemit, hwb⟩ := Compressor.inv_emittedUpTo_le hinv
    have hheader := encodeVarint_length_le n
    have hsize := hbody.size
    have hdebt : (if c.phase = .copy then 60 else 0) ≤ 60 := by split <;> omega
    simp only [Compressor.windowsDone] at hsize
    rw [List.length_append, Config.maxLen]
    omega

/-- A run with enough actions ends, and what it has made then is what it had made and the block from there on. -/
theorem Compressor.Made.exists_finished {n k : Nat} {src : Nat → Byte} {c : Compressor} {t : HashTable}
    {out : List Byte} (h : c.Made n src out) (hinv : c.inv n t) (hk : c.actionsLeft n ≤ k) :
    ∃ (c' : Compressor) (t' : HashTable), c'.finished n ∧ c'.inv n t'
      ∧ c'.Made n src (out ++ exactFrom k n src c t) := by
  induction k generalizing c t out with
  | zero =>
    have hf : c.finished n := by
      by_contra hf
      have := Compressor.act_actionsLeft hinv hf src
      omega
    exact ⟨c, t, hf, hinv, by simpa [exactFrom] using h⟩
  | succ k ih =>
    by_cases hf : c.finished n
    · exact ⟨c, t, hf, hinv, by simpa [exactFrom_of_finished hf] using h⟩
    · have hless := Compressor.act_actionsLeft hinv hf src
      rw [exactFrom_succ hf, ← List.append_assoc]
      exact ih (h.act hinv) (Compressor.act_inv hinv hf src) (by omega)

/-- The exact block is the header and elements that expand to the source, within the size bound. -/
theorem exactBlock_expands (n : Nat) (src : Nat → Byte) :
    ∃ body, exactBlock n src = encodeVarint n ++ body ∧ Expands n body [] (sourcePrefix src n)
      ∧ (exactBlock n src).length ≤ Config.maxLen n := by
  have hmade : Compressor.initial.Made n src [] := .inl ⟨rfl, rfl⟩
  obtain ⟨c, t, hf, hinv, h⟩ :=
    hmade.exists_finished (Compressor.initial_inv n ⟨0, [], 0⟩) (Compressor.initial_actionsLeft n).le
  rw [List.nil_append, ← exactBlock] at h
  have hlen := h.length_le hinv
  obtain ⟨hp, -⟩ | ⟨-, body, hbody, hemitted⟩ := h
  · exact absurd (hf.1.symm.trans hp) (by simp)
  · have hupTo : c.emittedUpTo = n := by
      have hle := (Compressor.inv_emittedUpTo_le hinv).2
      simp only [Compressor.emittedUpTo, hf.1]
      exact Nat.le_antisymm hle hf.2
    exact ⟨body, hbody, hupTo ▸ hemitted.expands, hlen⟩

/-! ### The header decodes -/

/-- The groups of a header's first `k` bytes are the low bits of its value (R121). -/
theorem headerValue_encodeVarint {v k : Nat} (hv : v < 2 ^ 32) (hk : k ≤ (encodeVarint v).length) (rest : List Byte) :
    headerValue (fun j => (encodeVarint v ++ rest).getD j 0#8) k = v % 128 ^ k := by
  induction k with
  | zero => simp [headerValue, Nat.mod_one]
  | succ k ih =>
    have hbyte := (getD_encodeVarintUpTo (k := 4) (hv.trans (by norm_num)) hk).1
    rw [headerValue_succ, ih (by omega), List.getD_append _ _ _ _ hk, Nat.pow_succ, Nat.mod_mul]
    rw [encodeVarint, hbyte, Nat.mul_comm]

/-- The decoder reads back the header (R121, R122). -/
theorem decodeHeader_encodeVarint {v : Nat} (hv : v < 2 ^ 32) (rest : List Byte) :
    decodeHeader (fun j => (encodeVarint v ++ rest).getD j 0#8) (encodeVarint v ++ rest).length
      = .ok (v, (encodeVarint v).length) := by
  have hle := encodeVarint_length_le v
  have hlt : ∀ j, j < (encodeVarint v).length ↔ j = 0 ∨ j ≤ 4 ∧ 128 ^ j ≤ v := lt_length_encodeVarintUpTo_iff 4 v
  have hpos : 0 < (encodeVarint v).length := (hlt 0).2 (.inl rfl)
  have hbyte {j : Nat} (hj : j < (encodeVarint v).length) :
      ((encodeVarint v ++ rest).getD j 0#8).toNat % 128 = v / 128 ^ j % 128
        ∧ (128 ≤ ((encodeVarint v ++ rest).getD j 0#8).toNat ↔ j + 1 < (encodeVarint v).length) := by
    rw [List.getD_append _ _ _ _ hj]
    exact getD_encodeVarintUpTo (hv.trans (by norm_num)) hj
  have hsmall : v < 128 ^ (encodeVarint v).length := by
    rcases Nat.lt_or_ge 4 (encodeVarint v).length with h4 | h4
    · exact hv.trans_le ((by norm_num : 2 ^ 32 ≤ 128 ^ 5).trans (Nat.pow_le_pow_right (by norm_num) h4))
    · have := mt (hlt (encodeVarint v).length).2 (lt_irrefl _)
      omega
  refine (decodeHeader_eq_iff _).2 ⟨hpos, hle, by rw [List.length_append]; omega, fun j hj => ?_, ?_, fun h5 => ?_, ?_⟩
  · exact (hbyte (by omega)).2.2 hj
  · have := (hbyte (j := (encodeVarint v).length - 1) (by omega)).2
    dsimp only
    omega
  · have := hbyte (j := 4) (by omega)
    dsimp only
    have hdiv : v / 128 ^ 4 < 16 := Nat.div_lt_of_lt_mul (hv.trans_le (by norm_num))
    omega
  · rw [headerValue_encodeVarint hv (Nat.le_refl _), Nat.mod_eq_of_lt hsmall]

/-- A header and emitted elements that expand to the bytes it announces decode to them (R189). -/
theorem expandBlockWith_emitted {out body : List Byte} (hout : out.length < 2 ^ 32)
    (h : Expands out.length body [] out) :
    expandBlockWith emitted out.length (encodeVarint out.length ++ body) = some out := by
  have hexp := h.expandFrom_eq (fuel := (encodeVarint out.length ++ body).length) (by simp)
  simp only [expandBlockWith, decodeHeader_encodeVarint hout, lt_irrefl, if_false, List.drop_left, hexp, if_true]

/-- R191 admits the exact block of any source. -/
theorem admissible_exactBlock {n : Nat} (hn : n ≤ Config.lenMax) (src : Nat → Byte) :
    admissible (sourcePrefix src n) (exactBlock n src) = true := by
  obtain ⟨body, hblock, hexp, hsize⟩ := exactBlock_expands n src
  have hn' : n < 2 ^ 32 := hn.trans_lt (by norm_num [Config.lenMax])
  have hdecodes := expandBlockWith_emitted (out := sourcePrefix src n) (body := body) (by simpa using hn')
    (by simpa using hexp)
  rw [sourcePrefix_length] at hdecodes
  simp only [admissible, sourcePrefix_length, Bool.and_eq_true, decide_eq_true_eq]
  exact ⟨⟨by rw [hblock, List.take_left], by rw [hblock, hdecodes]⟩, hsize⟩

theorem sourcePrefix_getD_length (b : List Byte) : sourcePrefix (fun i => b.getD i 0#8) b.length = b := by
  refine List.ext_getElem (by simp) fun i _ hi => ?_
  simp [sourcePrefix, hi]

/-- Settles O23: R191 admits the exact block, of which every part has been followed from the header to the end. -/
theorem exactBlocksRoundTripWithinBound : Obligations.ExactBlocksRoundTripWithinBound := by
  unfold Obligations.ExactBlocksRoundTripWithinBound
  intro b hb
  have := admissible_exactBlock hb fun i => b.getD i 0#8
  rwa [sourcePrefix_getD_length] at this

end Sys2Proof.Machine
end

section
/-! COMPRESS in the machine (40_compressor.md R170 to R172, R187, R188, R191, R192): the destination holds what the run
has emitted, and no other byte outside the destination changes. So the command writes the exact block (O21), a block
that R191 admits (O22), and one that depends on the source alone (O24). -/

namespace Sys2Proof.Machine

/-! ### What a running COMPRESS keeps -/

/-- COMPRESS, begun in `s₀`, has written `out` at the start of the destination and nothing outside it. -/
structure Writing (s₀ s : State) (out : List Byte) : Prop extends DeviceFrame s₀ s where
  status : s.status = s₀.status
  unseen : s.unseen = s₀.unseen
  written : ∀ j, j < out.length → s.dstByte j = out.getD j 0#8
  outside : SameOutsideDst s₀ s

theorem Writing.begin (s : State) (e : Engine) : Writing s { s with engine := e } [] where
  params := rfl
  cfg := rfl
  latch := rfl
  turns := rfl
  hostData := rfl
  status := rfl
  unseen := rfl
  written _ hj := absurd hj (Nat.not_lt_zero _)
  outside _ _ := rfl

/-- The source of legal regions reads as before (20_memory.md R82). -/
theorem Writing.source {s₀ s : State} {out : List Byte} (h : Writing s₀ s out) (hapart : s₀.latch.apart) {i : Nat}
    (hi : i < s₀.latch.srcLen.toNat) : s.srcByte i = s₀.srcByte i := by
  rw [State.srcByte, State.srcByte, h.latch]
  exact h.outside _ (Regions.src_not_inDst hapart hi)

/-- Emission appends to what is written, if it fits (R172). -/
theorem Writing.emit {s₀ s : State} {out bytes : List Byte} {c : Compressor} (h : Writing s₀ s out)
    (hop : c.op = out.length) (hfits : (out ++ bytes).length ≤ s₀.latch.dstCap.toNat) (t : HashTable) (draws : Nat) :
    Writing s₀ { s.emit c t bytes with draws := draws } (out ++ bytes) where
  params := h.params
  cfg := h.cfg
  latch := h.latch
  turns := h.turns
  hostData := h.hostData
  status := h.status
  unseen := h.unseen
  written j hj := by
    simp only [State.dstByte, State.emit_latch, State.emit_mem, Memory.read_writeList, inRange]
    rw [List.length_append] at hj
    rcases Nat.lt_or_ge j out.length with hlt | hge
    · rw [if_neg (by omega), List.getD_append _ _ _ _ hlt]
      exact h.written j hlt
    · rw [if_pos (by omega), List.getD_append_right _ _ _ _ hge]
      congr 1
      omega
  outside a ha := by
    simp only [Regions.inDst, inRange, Regions.dstEnd] at ha
    rw [List.length_append] at hfits
    simp only [State.emit_mem, Memory.read_writeList, inRange, h.latch]
    rw [if_neg (by omega)]
    exact h.outside a (by simpa only [Regions.inDst, inRange, Regions.dstEnd] using ha)

/-- A draw for destination bytes does not change how a command has ended. -/
theorem Ended.spoilDst {s t : State} {e : Option ErrorKind} {result expect pos : Nat}
    (h : Ended s t e result expect pos) (lo : Nat) : Ended s (t.spoilDst lo) e result expect pos where
  params := h.params
  cfg := h.cfg
  latch := h.latch
  turns := h.turns
  hostData := h.hostData
  busy := h.busy
  done := h.done
  err := h.err
  errCode := h.errCode
  ignored := h.ignored
  lastCmd := h.lastCmd
  resultLen := h.resultLen
  expectLen := h.expectLen
  errPos := h.errPos
  engine := h.engine
  unseen := h.unseen

/-- COMPRESS, begun in `s`, has ended in `t` with the block at the start of its destination (R187). -/
def CompressEnds (s t : State) (block : List Byte) : Prop :=
  Ended s t none block.length 0 0 ∧ (∀ j, j < block.length → t.dstByte j = block.getD j 0#8) ∧ SameOutsideDst s t

theorem Writing.finish {s₀ s : State} {out : List Byte} {c : Compressor} (h : Writing s₀ s out)
    (hop : c.op = out.length) (hlen : out.length < 2 ^ 32) : CompressEnds s₀ (finishCompress s c) out := by
  have hended := (s.finish_ended (BitVec.ofNat 32 c.op) 0#32 0#32).spoilDst c.op
  have hresult : (BitVec.ofNat 32 c.op).toNat = out.length := by
    rw [BitVec.toNat_ofNat, hop, Nat.mod_eq_of_lt hlen]
  rw [hresult] at hended
  refine ⟨hended.congr h.toDeviceFrame h.status h.unseen, fun j hj => ?_, fun a ha => ?_⟩
  · rw [← h.written j hj]
    exact State.read_spoilDst_below (s.finish none (BitVec.ofNat 32 c.op) 0#32 0#32) (hop ▸ hj)
  · rw [← h.outside a ha]
    refine State.read_spoilDst_outside (s.finish none (BitVec.ofNat 32 c.op) 0#32 0#32) c.op ?_
    rwa [State.finish_latch, h.latch]

/-! ### The actions of a run without bus faults -/

theorem compressorAction_of_no_faults {s : State} {c : Compressor} (hbus : s.params.busFaults = .none)
    (hf : ¬ c.finished s.latch.srcLen.toNat) (hsp : s.latch.inSpace) :
    compressorAction s c = .next (compressorWork s c) := by
  rw [compressorAction, if_neg hf, if_neg (not_not_intro hsp)]
  split
  · rw [State.onBus_of_not_fails (State.busFails_eq_false hbus), State.busNext_eq_self hbus]
  · rfl

/-- Under `exact`, an action emits what the algorithm emits. -/
theorem compressorWork_of_exact {s : State} (h : s.params.mode = .exact) (c : Compressor) :
    compressorWork s c = s.emit (c.act s.latch.srcLen.toNat s.srcByte s.table).1
      (c.act s.latch.srcLen.toNat s.srcByte s.table).2.1 (c.act s.latch.srcLen.toNat s.srcByte s.table).2.2 := by
  rw [compressorWork, if_neg (by simp [h])]

/-- Under `relational`, the first action writes the whole block (log 7). -/
theorem compressorWork_of_relational {s : State} {c : Compressor} (h : s.params.mode = .relational)
    (hp : c.phase = .header) :
    compressorWork s c =
      { s.emit { c with phase := .window, wb := s.latch.srcLen.toNat } s.table
          (relationalBlock s.draws s.latch.srcLen.toNat s.srcByte) with draws := s.draws + 1 } := by
  rw [compressorWork, if_pos ⟨h, hp⟩]

/-- With no window left, the run ends. -/
theorem runCompressor_of_finished {s : State} {c : Compressor} (he : s.engine = .compress c)
    (hf : c.finished s.latch.srcLen.toNat) (k : Nat) : runCompressor (k + 1) s = .next (finishCompress s c) := by
  rw [runCompressor_succ he, compressorAction, if_pos hf, andThen_next]
  exact runCompressor_of_not_running (fun _ hc => Engine.noConfusion hc) k

/-- An action leaves `op` alone. -/
theorem Compressor.act_op (n : Nat) (src : Nat → Byte) (c : Compressor) (t : HashTable) :
    (c.act n src t).1.op = c.op := by
  cases hp : c.phase with
  | header => rw [Compressor.act_header n src t hp]
  | window => rw [Compressor.act_window n src t hp]; rfl
  | scan =>
    rw [Compressor.act_scan n src t hp, scanTest]
    split <;> rfl
  | probe =>
    rw [Compressor.act_probe n src t hp]
    obtain ⟨-, heq⟩ | ⟨-, here, cand, -, -, ⟨-, heq⟩ | ⟨-, heq⟩⟩ := probe_cases src c t <;> rw [heq]
  | copy =>
    rw [Compressor.act_copy n src t hp]
    obtain ⟨m, -, -, ⟨-, heq⟩ | ⟨-, u, before, here, cand, -, -, -, -, heq⟩⟩ := copyTurn_cases src c t <;> rw [heq]
  | tail => rw [Compressor.act_tail n src t hp]; rfl

/-- Two runs that cannot be told apart differ in `op` alone. -/
theorem Compressor.SameRun.state_withOp {n : Nat} {src src' : Nat → Byte} {c c' : Compressor} {t t' : HashTable}
    (h : SameRun n src src' c c' t t') (op : Nat) : ({ c' with op := op } : Compressor) = { c with op := op } := by
  rw [h.state]

/-! ### The exact block -/

/-- What holds while COMPRESS, begun in `s₀`, runs in `s`: its run cannot be told apart from the one that makes the
exact block, which stands at `c` and `t`, and it has written what that one has made. -/
structure Compressing (s₀ s : State) (c : Compressor) (t : HashTable) (out : List Byte) : Prop extends
    Writing s₀ s out where
  inv : c.inv s₀.latch.srcLen.toNat t
  made : c.Made s₀.latch.srcLen.toNat s₀.srcByte out
  running : ∃ c', s.engine = .compress c' ∧ c'.op = out.length
    ∧ c.SameRun s₀.latch.srcLen.toNat s₀.srcByte s.srcByte c' t s.table

section Exact

variable {s₀ s : State} {c : Compressor} {t : HashTable} {out : List Byte} (hlegal : s₀.latch.legal)
  (hcap : Config.maxLen s₀.latch.srcLen.toNat ≤ s₀.latch.dstCap.toNat) (hbus : s₀.params.busFaults = .none)
  (hmode : s₀.params.mode = .exact) (h : Compressing s₀ s c t out)

include hlegal hcap hbus hmode h

/-- One action of the machine is one action of the algorithm. -/
theorem Compressing.act (hf : ¬ c.finished s₀.latch.srcLen.toNat) :
    ∃ c' u, s.engine = .compress c' ∧ compressorAction s c' = .next u
      ∧ Compressing s₀ u (c.act s₀.latch.srcLen.toNat s₀.srcByte t).1 (c.act s₀.latch.srcLen.toNat s₀.srcByte t).2.1
        (out ++ (c.act s₀.latch.srcLen.toNat s₀.srcByte t).2.2) := by
  obtain ⟨hw, hinv, hmade, c', he, hop, hsame⟩ := h
  obtain ⟨-, hsp, hapart⟩ := hlegal
  obtain ⟨hbytes, hnext⟩ := Compressor.act_sameRun hsame hinv
  have hmade' := hmade.act (t := t) hinv
  have hinv' := Compressor.act_inv hinv hf s₀.srcByte
  have haction : compressorAction s c' = .next (s.emit (c'.act s₀.latch.srcLen.toNat s.srcByte s.table).1
      (c'.act s₀.latch.srcLen.toNat s.srcByte s.table).2.1 (c.act s₀.latch.srcLen.toNat s₀.srcByte t).2.2) := by
    rw [compressorAction_of_no_faults (by rw [hw.params, hbus]) (by rw [hw.latch]; exact mt hsame.finished_iff.1 hf)
      (by rw [hw.latch]; exact hsp), compressorWork_of_exact (by rw [hw.params, hmode]), hw.latch, hbytes]
  have hop' := (Compressor.act_op s₀.latch.srcLen.toNat s.srcByte c' s.table).trans hop
  have hwriting := hw.emit hop' ((hmade'.length_le hinv').trans hcap)
    (c'.act s₀.latch.srcLen.toNat s.srcByte s.table).2.1 s.draws
  refine ⟨c', _, he, haction, hwriting, hinv', hmade', _, rfl, ?_, fun i hi => hwriting.source hapart hi, ?_,
    hnext.table⟩
  · rw [List.length_append, ← hop']
  · exact hnext.state_withOp _

/-- The run ends with what has been made and the block from there on. -/
theorem Compressing.ends {k : Nat} (hk : c.actionsLeft s₀.latch.srcLen.toNat < k) :
    ∃ u, runCompressor k s = .next u
      ∧ CompressEnds s₀ u (out ++ exactFrom k s₀.latch.srcLen.toNat s₀.srcByte c t) := by
  induction k generalizing s c t out with
  | zero => exact absurd hk (Nat.not_lt_zero _)
  | succ k ih =>
    by_cases hf : c.finished s₀.latch.srcLen.toNat
    · obtain ⟨hw, hinv, hmade, c', he, hop, hsame⟩ := h
      have hlen := (hmade.length_le hinv).trans hcap
      rw [exactFrom_of_finished hf, List.append_nil]
      exact ⟨_, runCompressor_of_finished he (by rw [hw.latch]; exact hsame.finished_iff.2 hf) k,
        hw.finish hop (hlen.trans_lt s₀.latch.dstCap.isLt)⟩
    · have hless := Compressor.act_actionsLeft h.inv hf s₀.srcByte
      obtain ⟨c', u, he, haction, hnext⟩ := h.act hlegal hcap hbus hmode hf
      rw [runCompressor_succ he, haction, andThen_next, exactFrom_succ hf, ← List.append_assoc]
      exact ih hnext (by omega)

end Exact

/-- COMPRESS under `exact` ends with the exact block. -/
theorem exec_compress_exact {s : State} (hlegal : s.latch.legal)
    (hcap : Config.maxLen s.latch.srcLen.toNat ≤ s.latch.dstCap.toNat) (hbus : s.params.busFaults = .none)
    (hmode : s.params.mode = .exact) (hturns : s.turns = []) :
    ∃ t, exec .compress s = .next t ∧ CompressEnds s t (exactBlock s.latch.srcLen.toNat s.srcByte) := by
  have hstart : Compressing s { s with engine := .compress Compressor.initial } Compressor.initial ⟨0, [], 0⟩ [] :=
    ⟨Writing.begin s _, Compressor.initial_inv _ _, .inl ⟨rfl, rfl⟩, _, rfl, rfl, fun _ _ => rfl, rfl,
      by simp [Compressor.initial]⟩
  have hends := hstart.ends hlegal hcap hbus hmode (Compressor.initial_actionsLeft _)
  rw [List.nil_append, ← exactBlock] at hends
  rwa [exec_compress_begins hlegal hcap, settle_of_no_turns (by exact hturns)]

/-- Settles O21: the run of the machine is the run that makes the exact block. -/
theorem compressWritesTheExactBlock : Obligations.CompressWritesTheExactBlock := by
  unfold Obligations.CompressWritesTheExactBlock
  exact fun _ _ _ hlegal hcap hbus hmode hturns => exec_compress_exact hlegal hcap hbus hmode hturns

/-! ### A relational block -/

/-- R191 admits the block written under `relational`, whatever is drawn (log 7). -/
theorem admissible_relationalBlock {n : Nat} (hn : n ≤ Config.lenMax) (draw : Nat) (src : Nat → Byte) :
    admissible (sourcePrefix src n) (relationalBlock draw n src) = true := by
  unfold relationalBlock
  dsimp only
  split
  next h => exact h
  next => exact admissible_exactBlock hn src

theorem length_le_of_admissible {b block : List Byte} (h : admissible b block = true) :
    block.length ≤ Config.maxLen b.length := by
  simp only [admissible, Bool.and_eq_true, decide_eq_true_eq] at h
  exact h.2

/-- COMPRESS under `relational` ends with the block it draws: the first action writes it, and the second ends the
command. -/
theorem exec_compress_relational {s : State} (hlegal : s.latch.legal)
    (hcap : Config.maxLen s.latch.srcLen.toNat ≤ s.latch.dstCap.toNat) (hbus : s.params.busFaults = .none)
    (hmode : s.params.mode = .relational) (hturns : s.turns = [])
    (hfits : (relationalBlock s.draws s.latch.srcLen.toNat s.srcByte).length ≤ s.latch.dstCap.toNat) :
    ∃ t, exec .compress s = .next t
      ∧ CompressEnds s t (relationalBlock s.draws s.latch.srcLen.toNat s.srcByte) := by
  have ⟨_, hsp, _⟩ := hlegal
  have hwork := compressorWork_of_relational (s := { s with engine := .compress Compressor.initial }) hmode
    (rfl : Compressor.initial.phase = .header)
  simp only [show State.srcByte { s with engine := .compress Compressor.initial } = s.srcByte from rfl] at hwork
  generalize relationalBlock s.draws s.latch.srcLen.toNat s.srcByte = block at hfits hwork ⊢
  have hwriting := (Writing.begin s (.compress Compressor.initial)).emit
    (c := { Compressor.initial with phase := .window, wb := s.latch.srcLen.toNat }) rfl hfits s.table (s.draws + 1)
  rw [exec_compress_begins hlegal hcap, settle_of_no_turns (by exact hturns), finishCompressor, compressorActions,
    runCompressor_succ rfl, compressorAction_of_no_faults (by exact hbus)
      (Compressor.not_finished_of_phase (by simp [Compressor.initial])) (by exact hsp), hwork, andThen_next]
  exact ⟨_, runCompressor_of_finished rfl ⟨rfl, Nat.le_refl _⟩ _,
    hwriting.finish (Nat.zero_add block.length) (hfits.trans_lt s.latch.dstCap.isLt)⟩

/-- Settles O22: the block drawn is one that R191 admits, or else the exact one. -/
theorem compressRelationalIsAdmissible : Obligations.CompressRelationalIsAdmissible := by
  unfold Obligations.CompressRelationalIsAdmissible
  intro s v _ hlegal hcap hbus hmode hturns
  have ⟨⟨hlen, _⟩, _⟩ := hlegal
  have hadmissible := admissible_relationalBlock hlen s.draws s.srcByte
  have hfits := length_le_of_admissible hadmissible
  rw [sourcePrefix_length] at hfits
  obtain ⟨t, hexec, hends⟩ := exec_compress_relational hlegal hcap hbus hmode hturns (hfits.trans hcap)
  exact ⟨t, _, hexec, hadmissible, hends⟩

/-! ### The source alone -/

/-- Settles O24: the exact block is a function of the source bytes, and each command writes it. -/
theorem compressDependsOnSourceAlone : Obligations.CompressDependsOnSourceAlone := by
  unfold Obligations.CompressDependsOnSourceAlone
  intro s₁ s₂ _ _ _ _ hlegal₁ hlegal₂ hsource hcap₁ hcap₂ hbus₁ hbus₂ hmode₁ hmode₂ hturns₁ hturns₂
  have hlen : s₁.latch.srcLen.toNat = s₂.latch.srcLen.toNat := by
    simpa [State.source] using congrArg List.length hsource
  have hbytes : ∀ i, i < s₁.latch.srcLen.toNat → s₂.srcByte i = s₁.srcByte i := by
    intro i hi
    rw [← sourcePrefix_getD s₁.srcByte hi, ← sourcePrefix_getD s₂.srcByte (hlen ▸ hi)]
    exact congrArg (List.getD · i 0#8) hsource.symm
  obtain ⟨t₁, hexec₁, hended₁, hblock₁, -⟩ := exec_compress_exact hlegal₁ hcap₁ hbus₁ hmode₁ hturns₁
  obtain ⟨t₂, hexec₂, hended₂, hblock₂, -⟩ := exec_compress_exact hlegal₂ hcap₂ hbus₂ hmode₂ hturns₂
  rw [← hlen, exactBlock_congr hbytes] at hended₂ hblock₂
  refine ⟨t₁, t₂, hexec₁, hexec₂, BitVec.eq_of_toNat_eq (hended₁.resultLen.trans hended₂.resultLen.symm), ?_⟩
  intro j hj
  rw [hended₁.resultLen] at hj
  rw [hblock₁ j hj, hblock₂ j hj]

end Sys2Proof.Machine
end

section
/-! What the device makes of the element at `in_pos` (41_decompressor.md R233, R234): the tag and trailer it fetches are
those of the source bytes, each element advances `in_pos`, and a run of the whole command has actions enough. That
settles O9, O10 and O11. -/

namespace Sys2Proof

/-- A tag and its trailer are at most five bytes, so the decoder reads the same element from the first five. -/
theorem decodeElement_take_five (bytes : List Byte) :
    (decodeElement (bytes.take 5)).map Prod.fst = (decodeElement bytes).map Prod.fst := by
  cases bytes with
  | nil => rfl
  | cons tag rest =>
    have hle := trailerBytes_le tag
    have hlen : (rest.take 4).length < trailerBytes tag ↔ rest.length < trailerBytes tag := by
      rw [List.length_take]
      omega
    simp only [List.take_succ_cons, decodeElement, hlen, List.take_take, min_eq_left hle]
    split <;> rfl

/-- A decoded element has taken its tag and its trailer. -/
theorem decodeElement_rest {bytes rest : List Byte} {i : Instr} (h : decodeElement bytes = .ok (i, rest)) :
    1 + i.trailer ≤ bytes.length ∧ rest = bytes.drop (1 + i.trailer) := by
  obtain ⟨tag, trailer, form, hform, rfl, rfl⟩ := decodeElement_eq_ok h
  rw [hform.trailer_eq, Nat.add_comm, List.drop_succ_cons, List.drop_left]
  simp

end Sys2Proof

namespace Sys2Proof.Machine

/-! ### Fetching an element -/

@[simp] theorem State.length_source (s : State) : s.source.length = s.latch.srcLen.toNat := by
  simp [State.source]

@[simp] theorem State.source_busNext (s : State) : s.busNext.source = s.source := by
  simp [State.source]

/-- The source bytes the device touches are the source from there on, cut short. -/
theorem State.srcBytes_eq (s : State) (i k : Nat) : s.srcBytes i k = (s.source.drop i).take k := by
  refine List.ext_getElem (by simp [State.srcBytes]) fun j hj hj' => ?_
  simp [State.srcBytes, State.source]

/-- The element fetched is the one that the source bytes from `in_pos` on decode to. -/
theorem State.fetchElement_eq (s : State) (d : Decompressor) :
    s.fetchElement d = (decodeElement (s.source.drop d.inPos)).map Prod.fst := by
  rw [← decodeElement_take_five, ← State.srcBytes_eq]
  unfold State.fetchElement
  cases decodeElement (s.srcBytes d.inPos 5) <;> rfl

section Action

variable {s : State} {d : Decompressor} {run : Instr → State → Host.Outcome State Fault Refusal}

theorem decompressorAction_of_element {i : Instr} {after : List Byte} (hb : s.busFails = false)
    (hsp : s.latch.inSpace) (hd : decodeElement (s.source.drop d.inPos) = .ok (i, after)) :
    decompressorAction run s d = run i s.busNext := by
  have hlt : d.inPos < s.latch.srcLen.toNat := by
    have := (decodeElement_rest hd).1
    rw [List.length_drop, State.length_source] at this
    omega
  have hfetch : s.busNext.fetchElement d = .ok i := by
    rw [State.fetchElement_eq, State.source_busNext, hd]
    rfl
  simp only [decompressorAction, if_pos hlt, if_neg (not_not_intro hsp), State.onBus_of_not_fails hb, hfetch]

theorem decompressorAction_of_no_element {r : Reject} (hb : s.busFails = false) (hsp : s.latch.inSpace)
    (hlt : d.inPos < s.latch.srcLen.toNat) (hd : decodeElement (s.source.drop d.inPos) = .error r) :
    decompressorAction run s d = .next (s.busNext.elementError d) := by
  have hfetch : s.busNext.fetchElement d = .error r := by
    rw [State.fetchElement_eq, State.source_busNext, hd]
    rfl
  simp only [decompressorAction, if_pos hlt, if_neg (not_not_intro hsp), State.onBus_of_not_fails hb, hfetch]

theorem decompressorAction_at_end (h : s.latch.srcLen.toNat ≤ d.inPos) :
    decompressorAction run s d = .next (finishDecompress s d) := by
  rw [decompressorAction, if_neg (not_lt.2 h)]

end Action

/-! ### One action, and the whole run -/

/-- An action that ends the command ends the run. -/
theorem runDecompressor_ends {s t : State} {d : Decompressor} (he : s.engine = .decompress d)
    (h : decompressorAction execElement s d = .next t) (hidle : t.engine = .idle) (k : Nat) :
    runDecompressor (k + 1) s = .next t := by
  rw [runDecompressor_succ he, h, andThen_next, runDecompressor_of_not_running (by simp [hidle])]

/-- An action that ends the command is the device's move, with turns to come or without. -/
theorem deviceMove_decompress_ends {s t : State} {d : Decompressor} (he : s.engine = .decompress d)
    (h : ∀ run, decompressorAction run s d = .next t) (hidle : t.engine = .idle) : deviceMove s = .next t := by
  simp only [deviceMove, he]
  split
  · exact runDecompressor_ends he (h _) hidle _
  · exact h _

/-- Whatever an element does, it is the effect of some form (R236, R242). -/
theorem execElement_effect {i : Instr} {s t : State} (h : execElement i s = .next t) :
    ∃ d tb taken len src, s.engine = .decompress d ∧ ElementEffect s d tb taken len src t := by
  cases i with
  | lit | lit1 | lit2 | lit3 | lit4 =>
    obtain ⟨d, he, -, heff⟩ := doLiteral_next h
    exact ⟨d, _, _, _, _, he, heff⟩
  | copy1 | copy2 | copy4 =>
    obtain ⟨d, he, -, heff, -⟩ := doCopy_next h
    exact ⟨d, _, _, _, _, he, heff⟩
  | nop | compress | decompress | maxlen => cases h

/-- An element ends the command, or it advances `in_pos` within the source (R235). -/
theorem execElement_advances {i : Instr} {s t : State} {d : Decompressor} (he : s.engine = .decompress d)
    (h : execElement i s = .next t) :
    t.engine = .idle ∨ ∃ d', t.engine = .decompress d' ∧ d.inPos < d'.inPos ∧ d'.inPos ≤ s.latch.srcLen.toNat
      ∧ t.latch = s.latch := by
  obtain ⟨d₀, tb, taken, len, src, he₀, heff⟩ := execElement_effect h
  cases he.symm.trans he₀
  rcases heff with rfl | ⟨-, rfl⟩ | ⟨-, hsrc, -, rfl⟩
  · exact .inl rfl
  · exact .inl rfl
  · exact .inr ⟨_, rfl, by dsimp only; omega, hsrc, s.busNext_latch⟩

/-- As many actions as there are source bytes left, and the end, are enough (R235). -/
theorem runDecompressor_succ_of_enough {k : Nat} {s : State}
    (h : ∀ d, s.engine = .decompress d → s.latch.srcLen.toNat - d.inPos < k) :
    runDecompressor (k + 1) s = runDecompressor k s := by
  induction k generalizing s with
  | zero =>
    have hidle : ∀ d, s.engine ≠ .decompress d := fun d he => Nat.not_lt_zero _ (h d he)
    rw [runDecompressor_of_not_running hidle, runDecompressor_of_not_running hidle]
  | succ k ih =>
    by_cases hrun : ∃ d, s.engine = .decompress d
    · obtain ⟨d, he⟩ := hrun
      have hleft := h d he
      rw [runDecompressor_succ he, runDecompressor_succ he]
      cases hact : decompressorAction execElement s d with
      | fault f => rfl
      | refused r => rfl
      | next t =>
        refine ih fun d' he' => ?_
        rcases decompressorAction_ends_or_runs hact with hidle | ⟨i, hi⟩
        · simp [hidle] at he'
        · rcases execElement_advances (by simpa using he) hi with hidle | ⟨d'', he'', hlt, hle, hlatch⟩
          · simp [hidle] at he'
          · cases he'.symm.trans he''
            rw [hlatch]
            simp only [State.busNext_latch] at hle ⊢
            omega
    · have hidle : ∀ d, s.engine ≠ .decompress d := fun d he => hrun ⟨d, he⟩
      rw [runDecompressor_of_not_running hidle, runDecompressor_of_not_running hidle]

/-- The platform's decision does not depend on the schedule. -/
theorem State.busNext_withTurns (s : State) (turns : List Turn) :
    ({ s with turns := turns } : State).busNext = { s.busNext with turns := turns } := by
  unfold State.busNext
  dsimp only
  split <;> rfl

/-- Settles O9: with a turn to come the device makes one action, and the action runs the element it fetches. -/
theorem stepRunsElement : Obligations.StepRunsElement := by
  unfold Obligations.StepRunsElement
  intro s d u rest i after hturns he hsp hb hd
  rw [step_of_device hturns, ← State.busNext_withTurns]
  simp only [deviceMove, he, List.cons_ne_nil, if_false]
  exact decompressorAction_of_element hb hsp hd

/-- Settles O10: the run goes on after its first action as a step from there would, since the actions left are
enough. -/
theorem stepRunsElementAndGoesOn : Obligations.StepRunsElementAndGoesOn := by
  unfold Obligations.StepRunsElementAndGoesOn
  intro s d i after hinv hturns he hb hd
  obtain ⟨⟨-, hsp, -⟩, -⟩ := hinv.decompressor d he
  obtain ⟨-, hspace, -⟩ := decodedElementEncodesBack _ _ _ hd
  have hstep : step s = andThen (exec i s.busNext) (runDecompressor s.latch.srcLen.toNat) := by
    rw [step_of_no_turns hturns]
    simp only [deviceMove, he, if_pos hturns, finishDecompressor]
    rw [runDecompressor_succ he, decompressorAction_of_element hb hsp hd, exec_eq_execElement hspace]
  rw [hstep]
  cases hexec : exec i s.busNext with
  | fault f => rfl
  | refused r => rfl
  | next t =>
    have hturns' : t.turns = [] := by rw [(exec_consumes hexec).turns, State.busNext_turns, hturns]
    rw [exec_eq_execElement hspace] at hexec
    rw [andThen_next, andThen_next, step_of_no_turns hturns']
    rcases execElement_advances (by simpa using he) hexec with hidle | ⟨d', he', hlt, hle, hlatch⟩
    · rw [runDecompressor_of_not_running (by simp [hidle])]
      simp only [deviceMove, hidle]
    · simp only [State.busNext_latch] at hle hlatch
      simp only [deviceMove, he', if_pos hturns', finishDecompressor, hlatch]
      refine (runDecompressor_succ_of_enough fun d'' he'' => ?_).symm
      cases he'.symm.trans he''
      rw [hlatch]
      omega

end Sys2Proof.Machine
end

section
/-! How DECOMPRESS ends (41_decompressor.md R231, R232, R234, R246 to R248): the error of an element (O11), the errors
of the header (O25, O26), and the end of the element loop (O28). -/

namespace Sys2Proof.Machine

/-! ### Failing -/

/-- The command of `s` has failed in `t`, and at most its destination region has changed (R246). -/
structure Failed (s t : State) (e : ErrorKind) (expect pos : Nat) : Prop
    extends Ended s t (some e) 0 expect pos where
  outside : SameOutsideDst s t
  table : t.table = s.table

/-- How a command failed does not depend on which of two states of its run it is said of. -/
theorem Failed.congr {s s' t : State} {e : ErrorKind} {expect pos : Nat} (h : Failed s' t e expect pos)
    (hf : DeviceFrame s s') (hs : s'.status = s.status) (hu : s'.unseen = s.unseen) (hout : SameOutsideDst s s')
    (ht : s'.table = s.table) : Failed s t e expect pos where
  toEnded := h.toEnded.congr hf hs hu
  outside a ha := (h.outside a (by rwa [hf.latch])).trans (hout a ha)
  table := h.table.trans ht

/-- The platform's decision writes the plan alone (log 6). -/
theorem State.busNext_eq (s : State) : s.busNext = { s with busPlan := s.busNext.busPlan } := by
  unfold State.busNext
  split <;> rfl

theorem State.busNext_frame (s : State) : DeviceFrame s s.busNext :=
  ⟨s.busNext_params, s.busNext_cfg, s.busNext_latch, s.busNext_turns, s.busNext_hostData⟩

/-- The same of a memory phase that the platform lets pass. -/
theorem Failed.of_busNext {s t : State} {e : ErrorKind} {expect pos : Nat} (h : Failed s.busNext t e expect pos) :
    Failed s t e expect pos :=
  h.congr s.busNext_frame s.busNext_status s.busNext_unseen (fun _ _ => by rw [s.busNext_mem]) s.busNext_table

/-- An error while the elements run (60_exceptions.md R313). -/
theorem State.raiseSpoiled_failed {s : State} {d : Decompressor} (he : s.engine = .decompress d) (e : ErrorKind)
    {pos : Nat} (hpos : pos < 2 ^ 32) : Failed s (s.raiseSpoiled e pos) e d.expect.toNat pos where
  toEnded := State.decodedLen_of_decompress he ▸ s.raiseSpoiled_ended e hpos
  outside := s.raiseSpoiled_outside e pos
  table := rfl

theorem State.elementError_failed {s : State} {d : Decompressor} (he : s.engine = .decompress d)
    (hpos : d.inPos < 2 ^ 32) : Failed s (s.elementError d) .parsingError d.expect.toNat d.inPos :=
  State.raiseSpoiled_failed he _ hpos

/-- On the device's turn a failure of the move is one of the step, whose schedule has gone on. -/
theorem DeviceTurn.fails {s s' t : State} {e : ErrorKind} {expect pos : Nat} (hturn : DeviceTurn s s')
    (hmove : deviceMove s' = .next t) (h : Failed s' t e expect pos) :
    ∃ t, Machine.step s = .next t ∧ Ended s' t (some e) 0 expect pos ∧ SameOutsideDst s t ∧ t.table = s.table := by
  refine ⟨t, hturn.step.trans hmove, h.toEnded, ?_, ?_⟩
  · have hout := h.outside
    rwa [hturn.eq] at hout
  · rw [h.table, hturn.eq]

/-- Settles O11: whether it is one action or the whole run, the fetch of the element ends the command. -/
theorem truncatedTrailerIsParsingError : Obligations.TruncatedTrailerIsParsingError := by
  unfold Obligations.TruncatedTrailerIsParsingError
  intro s s' d hinv hturn he hb hlt hd
  obtain ⟨⟨-, hsp, -⟩, -⟩ := hinv.decompressor d he
  obtain ⟨turns, hs'⟩ : ∃ turns, s' = { s with turns := turns } := ⟨_, hturn.eq⟩
  have he' : s'.engine = .decompress d := by rw [hs', he]
  have hmove : deviceMove s' = .next (s'.busNext.elementError d) := by
    subst hs'
    exact deviceMove_decompress_ends he' (fun _ => decompressorAction_of_no_element hb hsp hlt hd) rfl
  exact hturn.fails hmove
    (State.elementError_failed (by simpa using he') (hlt.trans s.latch.srcLen.isLt)).of_busNext

/-! ### The header's errors -/

/-- A header that does not decode (R231); an empty source is not read. -/
theorem beginDecompress_of_bad_header {s : State} {pos : Nat} (hb : s.busFails = false)
    (hh : decodeHeader s.srcByte s.latch.srcLen.toNat = .error pos) :
    ∃ plan, beginDecompress s = .next ({ s with busPlan := plan }.raise .parsingError pos) := by
  by_cases hlen : s.latch.srcLen.toNat = 0
  · exact ⟨s.busPlan, by simp only [beginDecompress, if_pos hlen, hh]⟩
  · refine ⟨s.busNext.busPlan, ?_⟩
    rw [← s.busNext_eq]
    simp only [beginDecompress, if_neg hlen, State.onBus_of_not_fails hb, State.srcByte_busNext, State.busNext_latch,
      hh]

/-- A header whose length exceeds the capacity (R232). -/
theorem beginDecompress_of_oversized {s : State} {len hlen : Nat} (hb : s.busFails = false)
    (hh : decodeHeader s.srcByte s.latch.srcLen.toNat = .ok (len, hlen)) (hcap : s.latch.dstCap.toNat < len) :
    ∃ plan, beginDecompress s =
      .next ({ s with busPlan := plan, engine := .decompress ⟨hlen, 0, BitVec.ofNat 32 len⟩ }.raise
        .invalidChunkSize hlen) := by
  obtain ⟨-, hle, hpos⟩ := decodeHeader_ok hh
  have hlen : s.latch.srcLen.toNat ≠ 0 := by omega
  refine ⟨s.busNext.busPlan, ?_⟩
  simp only [beginDecompress, if_neg hlen, State.onBus_of_not_fails hb, State.srcByte_busNext, State.busNext_latch, hh,
    if_pos hcap]
  rw [s.busNext_eq]

/-- A DECOMPRESS that ends with its header has no element to run. -/
theorem exec_decompress_ends {s t : State} (hlegal : s.latch.legal) (h : beginDecompress s = .next t)
    (hidle : t.engine = .idle) : exec .decompress s = .next t := by
  rw [exec, execDecompress, if_neg (not_not_intro hlegal), h, andThen_next, settle]
  split
  · exact runDecompressor_of_not_running (by simp [hidle]) _
  · rfl

/-- Settles O25: raising the error writes the result registers only. -/
theorem badHeaderIsParsingError : Obligations.BadHeaderIsParsingError := by
  unfold Obligations.BadHeaderIsParsingError
  intro s v pos he hlegal hb hh
  obtain ⟨plan, hbegin⟩ := beginDecompress_of_bad_header hb hh
  have hpos : pos < 2 ^ 32 := by
    have := s.latch.srcLen.isLt
    rcases (decodeHeader_eq_iff _).1 hh with ⟨-, -, rfl⟩ | ⟨-, -, -, rfl⟩ <;> omega
  have hended := ({ s with busPlan := plan } : State).raise_ended .parsingError hpos
  have hlen : ({ s with busPlan := plan } : State).decodedLen = 0#32 := by simp only [State.decodedLen, he]
  rw [hlen] at hended
  exact ⟨_, exec_decompress_ends hlegal hbegin rfl, hended.congr ⟨rfl, rfl, rfl, rfl, rfl⟩ rfl rfl, fun _ => rfl, rfl,
    rfl⟩

/-- Settles O26: the length is known when the error is raised, so `EXPECT_LEN` reports it. -/
theorem oversizedHeaderIsInvalidChunkSize : Obligations.OversizedHeaderIsInvalidChunkSize := by
  unfold Obligations.OversizedHeaderIsInvalidChunkSize
  intro s v len hlen he hlegal hb hh hcap
  obtain ⟨hlt, hle, -⟩ := decodeHeader_ok hh
  obtain ⟨plan, hbegin⟩ := beginDecompress_of_oversized hb hh hcap
  have hended := State.raise_ended
    { s with busPlan := plan, engine := .decompress ⟨hlen, 0, BitVec.ofNat 32 len⟩ } .invalidChunkSize
    (hle.trans_lt s.latch.srcLen.isLt)
  rw [State.decodedLen_of_decompress rfl, BitVec.toNat_ofNat, Nat.mod_eq_of_lt hlt] at hended
  exact ⟨_, exec_decompress_ends hlegal hbegin rfl, hended.congr ⟨rfl, rfl, rfl, rfl, rfl⟩ rfl rfl, fun _ => rfl, rfl,
    rfl⟩

/-! ### The end of the element loop -/

/-- The final length check succeeds (R248): the bytes below `out_pos` stay, and those beyond are unspecified. -/
theorem finishDecompress_succeeds {s : State} {d : Decompressor} (h : d.outPos = d.expect.toNat) :
    Ended s (finishDecompress s d) none d.expect.toNat d.expect.toNat 0
      ∧ (∀ j, j < d.expect.toNat → (finishDecompress s d).dstByte j = s.dstByte j)
      ∧ SameOutsideDst s (finishDecompress s d) ∧ (finishDecompress s d).table = s.table := by
  rw [finishDecompress, if_pos h]
  exact ⟨(s.finish_ended d.expect d.expect 0#32).spoilDst d.outPos,
    fun j hj => State.read_spoilDst_below (s.finish none d.expect d.expect 0#32) (h ▸ hj),
    fun a ha => State.read_spoilDst_outside (s.finish none d.expect d.expect 0#32) d.outPos ha, rfl⟩

/-- The final length check fails (R247). -/
theorem finishDecompress_fails {s : State} {d : Decompressor} (he : s.engine = .decompress d)
    (h : d.outPos ≠ d.expect.toNat) :
    Failed s (finishDecompress s d) .invalidChunkSize d.expect.toNat s.latch.srcLen.toNat := by
  rw [finishDecompress, if_neg h]
  exact State.raiseSpoiled_failed he _ s.latch.srcLen.isLt

/-- Settles O28: whether it is one action or the whole run, the action at the end of the input is the length check. -/
theorem elementLoopEndChecksLength : Obligations.ElementLoopEndChecksLength := by
  unfold Obligations.ElementLoopEndChecksLength
  intro s s' d _ hturn he hin
  obtain ⟨turns, hs'⟩ : ∃ turns, s' = { s with turns := turns } := ⟨_, hturn.eq⟩
  have he' : s'.engine = .decompress d := by rw [hs', he]
  have hlatch : s'.latch = s.latch := by rw [hs']
  have hmove : deviceMove s' = .next (finishDecompress s' d) :=
    deviceMove_decompress_ends he' (fun _ => decompressorAction_at_end (by rw [hlatch, hin]))
      (finishDecompress_engine s' d)
  constructor
  · intro hlen
    refine ⟨_, hturn.step.trans hmove, ?_⟩
    have hends := finishDecompress_succeeds (s := s') hlen
    subst hs'
    exact hends
  · intro hlen
    rw [← hlatch]
    exact hturn.fails hmove (finishDecompress_fails he' hlen)

end Sys2Proof.Machine
end

section
/-! The element forms (41_decompressor.md R236, R242): what a literal and a copy do where they fit, and that they are in
error where they do not (O13, O14). -/

namespace Sys2Proof.Machine

/-- `s` once its element has moved `len` bytes from the address `src` to `out_pos`; the next tag is at `next`. -/
def State.moved (s : State) (d : Decompressor) (src len next : Nat) : State :=
  { s.busNext with
    mem := s.mem.move (s.latch.dstAddr.toNat + d.outPos) src len
    engine := .decompress ⟨next, d.outPos + len, d.expect⟩ }

/-- An element of `s` has ended without error in `t`: the `len` bytes from `out_pos` on are those of `byte`, no other
byte of memory has changed, and the next tag is at `next`. -/
structure ElementDone (s t : State) (d : Decompressor) (next len : Nat) (byte : Nat → Byte) : Prop
    extends ElementFrame s t where
  engine : t.engine = .decompress ⟨next, d.outPos + len, d.expect⟩
  bytes : ∀ j, j < len → t.mem.read (s.latch.dstAddr.toNat + d.outPos + j) = byte j
  outside : ∀ a, ¬ inRange (s.latch.dstAddr.toNat + d.outPos) (s.latch.dstAddr.toNat + d.outPos + len) a →
    t.mem.read a = s.mem.read a

theorem State.moved_done {s : State} {d : Decompressor} {src len : Nat} {byte : Nat → Byte} (next : Nat)
    (h : ∀ j, j < len → (s.mem.move (s.latch.dstAddr.toNat + d.outPos) src len).read
      (s.latch.dstAddr.toNat + d.outPos + j) = byte j) :
    ElementDone s (s.moved d src len next) d next len byte where
  params := s.busNext_params
  cfg := s.busNext_cfg
  latch := s.busNext_latch
  turns := s.busNext_turns
  hostData := s.busNext_hostData
  status := s.busNext_status
  resultLen := s.busNext_resultLen
  expectLen := s.busNext_expectLen
  errPos := s.busNext_errPos
  table := s.busNext_table
  draws := s.busNext_draws
  busPlan := rfl
  unseen := s.busNext_unseen
  engine := rfl
  bytes := h
  outside _ ha := Memory.read_move_outside _ ha

/-! ### The two operations -/

section Operations

variable {s : State} {d : Decompressor} {tb off len : Nat} (he : s.engine = .decompress d) (hsp : s.latch.inSpace)

include he hsp

theorem doLiteral_fits (hb : s.busFails = false) (hsrc : d.inPos + 1 + tb + len ≤ s.latch.srcLen.toNat)
    (hdst : d.outPos + len ≤ s.latch.dstCap.toNat) :
    doLiteral tb len s
      = .next (s.moved d (s.latch.srcAddr.toNat + (d.inPos + 1 + tb)) len (d.inPos + 1 + tb + len)) := by
  rw [doLiteral, onElement_eq he, if_neg (not_not_intro hsp), if_neg (by omega), if_neg (by omega),
    State.onBus_of_not_fails hb]
  simp only [State.busNext_mem, State.busNext_latch, State.moved]

theorem doLiteral_errs
    (h : s.latch.srcLen.toNat < d.inPos + 1 + tb + len ∨ s.latch.dstCap.toNat < d.outPos + len) :
    doLiteral tb len s = .next (s.elementError d) := by
  rw [doLiteral, onElement_eq he, if_neg (not_not_intro hsp), if_pos h, ite_self]

theorem doCopy_fits (hb : s.busFails = false) (hsrc : d.inPos + 1 + tb ≤ s.latch.srcLen.toNat) (hpos : 1 ≤ off)
    (hoff : off ≤ d.outPos) (hdst : d.outPos + len ≤ s.latch.dstCap.toNat) :
    doCopy tb off len s = .next (s.moved d (s.latch.dstAddr.toNat + (d.outPos - off)) len (d.inPos + 1 + tb)) := by
  rw [doCopy, onElement_eq he, if_neg (not_not_intro hsp), if_neg (by omega), if_neg (by omega),
    State.onBus_of_not_fails hb]
  simp only [State.busNext_mem, State.busNext_latch, State.moved]

theorem doCopy_errs (h : s.latch.srcLen.toNat < d.inPos + 1 + tb ∨ off = 0 ∨ d.outPos < off
      ∨ s.latch.dstCap.toNat < d.outPos + len) :
    doCopy tb off len s = .next (s.elementError d) := by
  rw [doCopy, onElement_eq he, if_neg (not_not_intro hsp)]
  rcases h with htb | h
  · rw [if_pos htb]
  · rw [if_pos h, ite_self]

end Operations

/-- A move from `off` bytes below its destination repeats the `off` bytes before it (R242). -/
theorem Memory.read_move_repeats (m : Memory) {dst off len : Nat} (hpos : 1 ≤ off) (hoff : off ≤ dst) {j : Nat}
    (hj : j < len) : (m.move dst (dst - off) len).read (dst + j) = m.read (dst - off + j % off) := by
  induction j using Nat.strong_induction_on with | _ j ih
  rw [Memory.read_move_back m hj hpos hoff]
  rcases Nat.lt_or_ge j off with hlt | hge
  · rw [Memory.read_move_outside _ (by simp only [inRange]; omega), Nat.mod_eq_of_lt hlt]
    congr 1
    omega
  · rw [Nat.add_sub_assoc hge, ih (j - off) (by omega) (by omega), Nat.mod_eq_sub_mod hge]

/-! ### The forms -/

/-- The literal forms (R237 to R241). -/
abbrev IsLiteral (i : Instr) (len : Nat) : Prop :=
  i = .lit len ∨ i = .lit1 len ∨ i = .lit2 len ∨ i = .lit3 len ∨ i = .lit4 len

/-- The copy forms (R243 to R245). -/
abbrev IsCopy (i : Instr) (off len : Nat) : Prop := i = .copy1 off len ∨ i = .copy2 off len ∨ i = .copy4 off len

section Forms

variable {s : State} {d : Decompressor} {i : Instr} {off len : Nat} (hlegal : s.latch.legal)
  (he : s.engine = .decompress d)

include hlegal he

/-- A literal that fits copies the payload after its tag and trailer (R236); the source of legal regions lies outside
the destination. -/
theorem exec_literal_done (hi : IsLiteral i len)
    (hb : s.busFails = false) (hsrc : d.inPos + 1 + i.trailer + len ≤ s.latch.srcLen.toNat)
    (hdst : d.outPos + len ≤ s.latch.dstCap.toNat) :
    ∃ t, exec i s = .next t ∧ ElementDone s t d (d.inPos + 1 + i.trailer + len) len
      fun j => s.srcByte (d.inPos + 1 + i.trailer + j) := by
  obtain ⟨-, hsp, hapart⟩ := hlegal
  refine ⟨_, (exec_eq_doLiteral hi s).trans (doLiteral_fits he hsp hb hsrc hdst), State.moved_done _ fun j hj => ?_⟩
  rw [Memory.read_move_apart _ hj, State.srcByte, Nat.add_assoc s.latch.srcAddr.toNat]
  simp only [Regions.apart, Regions.srcEnd, Regions.dstEnd] at hapart
  omega

/-- A copy that fits repeats the bytes before `out_pos` (R242). -/
theorem exec_copy_done (hi : IsCopy i off len)
    (hb : s.busFails = false) (hsrc : d.inPos + 1 + i.trailer ≤ s.latch.srcLen.toNat) (hpos : 1 ≤ off)
    (hoff : off ≤ d.outPos) (hdst : d.outPos + len ≤ s.latch.dstCap.toNat) :
    ∃ t, exec i s = .next t ∧ ElementDone s t d (d.inPos + 1 + i.trailer) len
      fun j => s.dstByte (d.outPos - off + j % off) := by
  obtain ⟨-, hsp, -⟩ := hlegal
  refine ⟨_, (exec_eq_doCopy hi s).trans (doCopy_fits he hsp hb hsrc hpos hoff hdst),
    State.moved_done _ fun j hj => ?_⟩
  rw [State.dstByte, ← Nat.add_assoc, ← Nat.add_sub_assoc hoff,
    Memory.read_move_repeats _ hpos (hoff.trans (Nat.le_add_left _ _)) hj]

theorem exec_literal_errs (hi : IsLiteral i len)
    (h : s.latch.srcLen.toNat < d.inPos + 1 + i.trailer + len ∨ s.latch.dstCap.toNat < d.outPos + len) :
    exec i s = .next (s.elementError d) := by
  obtain ⟨-, hsp, -⟩ := hlegal
  exact (exec_eq_doLiteral hi s).trans (doLiteral_errs he hsp h)

theorem exec_copy_errs (hi : IsCopy i off len)
    (h : s.latch.srcLen.toNat < d.inPos + 1 + i.trailer ∨ off = 0 ∨ d.outPos < off
      ∨ s.latch.dstCap.toNat < d.outPos + len) :
    exec i s = .next (s.elementError d) := by
  obtain ⟨-, hsp, -⟩ := hlegal
  exact (exec_eq_doCopy hi s).trans (doCopy_errs he hsp h)

end Forms

/-- Settles O13: the two clauses are the two branches of a literal; the invariant gives legal regions. -/
theorem literalCopiesItsPayload : Obligations.LiteralCopiesItsPayload := by
  unfold Obligations.LiteralCopiesItsPayload
  intro i len hi s d hinv he hb payload dst
  obtain ⟨hlegal, hin, -⟩ := hinv.decompressor d he
  constructor
  · intro hsrc hdst
    obtain ⟨t, hexec, hdone⟩ := exec_literal_done hlegal he hi hb hsrc hdst
    exact ⟨t, hexec, hdone.engine, hdone.bytes, hdone.outside, hdone.toElementFrame⟩
  · intro h
    have hfailed := State.elementError_failed he (hin.trans_lt s.latch.srcLen.isLt)
    exact ⟨_, exec_literal_errs hlegal he hi h, hfailed.toEnded, hfailed.outside, hfailed.table, rfl⟩

/-- Settles O14: the two clauses are the two branches of a copy; the bytes moved repeat those before `out_pos`. -/
theorem copyRepeatsTheOutput : Obligations.CopyRepeatsTheOutput := by
  unfold Obligations.CopyRepeatsTheOutput
  intro i off len hi s d hinv he hb next dst
  obtain ⟨hlegal, hin, -⟩ := hinv.decompressor d he
  constructor
  · intro hsrc hpos hoff hdst
    obtain ⟨t, hexec, hdone⟩ := exec_copy_done hlegal he hi hb hsrc hpos hoff hdst
    exact ⟨t, hexec, hdone.engine, hdone.bytes, hdone.outside, hdone.toElementFrame⟩
  · intro h
    have hfailed := State.elementError_failed he (hin.trans_lt s.latch.srcLen.isLt)
    exact ⟨_, exec_copy_errs hlegal he hi h, hfailed.toEnded, hfailed.outside, hfailed.table, rfl⟩

end Sys2Proof.Machine
end

section
/-! DECOMPRESS as a whole (41_decompressor.md R230, R246, R250, R251): `blockEnd` says how it ends as a function of the
block and the capacity alone. The machine ends so, action by action (O30), and what `blockEnd` puts out is what
`expandBlock` puts out (O29). -/

namespace Sys2Proof.Machine

/-! ### How a block ends -/

/-- How DECOMPRESS of a block ends: with its output, or with an error that reports `EXPECT_LEN` and `ERR_POS`. -/
inductive BlockEnd where
  /-- Without error (R248). -/
  | output (out : List Byte)
  /-- With `PARSING_ERROR` (R231, R234, R236, R242). -/
  | malformed (expect pos : Nat)
  /-- With `INVALID_CHUNK_SIZE` (R232, R247). -/
  | wrongSize (expect pos : Nat)

/-- The output after the element at the head of the stream, and the stream after it; nothing where it is in error. -/
def expandElement (cap : Nat) (stream out : List Byte) : Option (List Byte × List Byte) :=
  match decodeElement stream with
  | .error _ => none
  | .ok (i, rest) => elementOutput cap i rest out

/-- How at most `k` elements end that come last in a block of `n` bytes whose header gives `len`, with `out` put out
before them (R233, R247). The position of an element is `n` less what is left of the stream. -/
def elementsEnd (cap len n : Nat) : Nat → List Byte → List Byte → BlockEnd
  | _, [], out => if out.length = len then .output out else .wrongSize len n
  | 0, b :: bs, _ => .malformed len (n - (b :: bs).length)
  | k + 1, b :: bs, out =>
    match expandElement cap (b :: bs) out with
    | none => .malformed len (n - (b :: bs).length)
    | some (stream, out) => elementsEnd cap len n k stream out

/-- How DECOMPRESS of a block ends (R230). -/
def blockEnd (cap : Nat) (block : List Byte) : BlockEnd :=
  match decodeHeader (fun k => block.getD k 0#8) block.length with
  | .error pos => .malformed 0 pos
  | .ok (len, hlen) =>
    if cap < len then .wrongSize len hlen
    else elementsEnd cap len block.length block.length (block.drop hlen) []

/-- The output of a block that ends without error. -/
def BlockEnd.output? : BlockEnd → Option (List Byte)
  | .output out => some out
  | .malformed _ _ | .wrongSize _ _ => none

@[simp] theorem elementsEnd_nil (cap len n k : Nat) (out : List Byte) :
    elementsEnd cap len n k [] out = if out.length = len then .output out else .wrongSize len n := by
  cases k <;> rfl

theorem elementsEnd_of_element {cap len n k : Nat} {stream stream' out out' : List Byte}
    (h : expandElement cap stream out = some (stream', out')) :
    elementsEnd cap len n (k + 1) stream out = elementsEnd cap len n k stream' out' := by
  cases stream with
  | nil => cases h
  | cons b bs => simp only [elementsEnd, h]

theorem elementsEnd_of_no_element {cap len n k : Nat} {stream out : List Byte} (hne : stream ≠ [])
    (h : expandElement cap stream out = none) :
    elementsEnd cap len n (k + 1) stream out = .malformed len (n - stream.length) := by
  cases stream with
  | nil => exact absurd rfl hne
  | cons b bs => simp only [elementsEnd, h]

/-- The expansion of the elements is their output, if it is as long as the header says. -/
theorem output?_elementsEnd (cap len n k : Nat) (stream out : List Byte) :
    (elementsEnd cap len n k stream out).output?
      = (expandFrom (fun _ _ => true) cap k stream out).bind fun out =>
          if out.length = len then some out else none := by
  induction k generalizing stream out with
  | zero =>
    cases stream with
    | nil =>
      rw [elementsEnd_nil, expandFrom, apply_ite BlockEnd.output?]
      rfl
    | cons b bs => rfl
  | succ k ih =>
    cases stream with
    | nil =>
      rw [elementsEnd_nil, expandFrom, apply_ite BlockEnd.output?]
      rfl
    | cons b bs =>
      simp only [elementsEnd, expandFrom, expandElement, if_true]
      cases decodeElement (b :: bs) with
      | error r => rfl
      | ok p =>
        dsimp only
        cases elementOutput cap p.1 p.2 out with
        | none => rfl
        | some q => exact ih q.1 q.2

/-- `expandBlock` and `blockEnd` put out the same bytes. -/
theorem output?_blockEnd (cap : Nat) (block : List Byte) : (blockEnd cap block).output? = expandBlock cap block := by
  unfold blockEnd expandBlock expandBlockWith
  cases decodeHeader (fun k => block.getD k 0#8) block.length with
  | error pos => rfl
  | ok p =>
    dsimp only
    split
    · rfl
    · rw [output?_elementsEnd]
      cases expandFrom (fun _ _ => true) cap block.length (block.drop p.2) [] <;> rfl

/-- DECOMPRESS, begun in `s`, has ended in `t` as the block does. -/
def DecompressEnds (s t : State) : BlockEnd → Prop
  | .output out =>
    Ended s t none out.length out.length 0 ∧ (∀ j, j < out.length → t.dstByte j = out.getD j 0#8)
      ∧ SameOutsideDst s t ∧ t.table = s.table
  | .malformed expect pos => Failed s t .parsingError expect pos
  | .wrongSize expect pos => Failed s t .invalidChunkSize expect pos

/-! ### The elements of a running DECOMPRESS -/

/-- DECOMPRESS, begun in `s₀`, stands at `d` and has put out `out`. -/
structure Expanding (s₀ s : State) (d : Decompressor) (out : List Byte) : Prop extends Writing s₀ s out where
  engine : s.engine = .decompress d
  outPos : d.outPos = out.length
  table : s.table = s₀.table

/-- What the machine makes of an element agrees with the bytes it stands for. -/
def ElementAgrees (s₀ s : State) (d : Decompressor) (o : Host.Outcome State Fault Refusal) :
    Option (List Byte × List Byte) → Prop
  | none => o = .next (s.elementError d)
  | some (stream, out) => ∃ t d', o = .next t ∧ Expanding s₀ t d' out ∧ d'.expect = d.expect ∧ d.inPos < d'.inPos
      ∧ stream = s₀.source.drop d'.inPos

theorem isLiteral_or_isCopy {i : Instr} (h : i.space = .element) :
    (∃ len, IsLiteral i len) ∨ ∃ off len, IsCopy i off len := by
  cases i with
  | lit len | lit1 len | lit2 len | lit3 len | lit4 len => exact .inl ⟨len, by simp [IsLiteral]⟩
  | copy1 off len | copy2 off len | copy4 off len => exact .inr ⟨off, len, by simp [IsCopy]⟩
  | nop | compress | decompress | maxlen => cases h

theorem elementOutput_literal {i : Instr} {len : Nat} (hi : IsLiteral i len) (cap : Nat) (rest out : List Byte) :
    elementOutput cap i rest out =
      if rest.length < len ∨ cap < out.length + len then none else some (rest.drop len, out ++ rest.take len) := by
  rcases hi with rfl | rfl | rfl | rfl | rfl <;> rfl

theorem elementOutput_copy {i : Instr} {off len : Nat} (hi : IsCopy i off len) (cap : Nat) (rest out : List Byte) :
    elementOutput cap i rest out =
      if off = 0 ∨ out.length < off ∨ cap < out.length + len then none else some (rest, appendCopy out off len) := by
  rcases hi with rfl | rfl | rfl <;> rfl

/-- What is written is the destination up to there. -/
theorem Writing.out_eq {s₀ s : State} {out : List Byte} (h : Writing s₀ s out) :
    out = sourcePrefix s.dstByte out.length := by
  refine List.ext_getElem (by simp) fun j hj _ => ?_
  simp [sourcePrefix, h.written j hj, hj]

section Element

variable {s₀ s t : State} {d : Decompressor} {out : List Byte} (h : Expanding s₀ s d out)

include h

theorem Expanding.source_eq (hapart : s₀.latch.apart) : s.source = s₀.source := by
  unfold State.source
  rw [h.latch]
  exact List.map_congr_left fun i hi => h.toWriting.source hapart (List.mem_range.1 hi)

/-- An element leaves every byte that was put out before it. -/
theorem Expanding.dstByte_old {next len : Nat} {byte : Nat → Byte} (hdone : ElementDone s t d next len byte) {j : Nat}
    (hj : j < out.length) : t.dstByte j = s.dstByte j := by
  rw [State.dstByte, hdone.latch]
  refine hdone.outside _ ?_
  simp only [inRange, h.outPos]
  omega

theorem Expanding.sourcePrefix_old {next len : Nat} {byte : Nat → Byte} (hdone : ElementDone s t d next len byte) :
    sourcePrefix t.dstByte out.length = out := by
  rw [h.toWriting.out_eq, sourcePrefix_length]
  exact List.map_congr_left fun j hj => h.dstByte_old hdone (List.mem_range.1 hj)

/-- An element puts out the bytes it has moved. -/
theorem Expanding.dstByte_new {next len : Nat} {byte : Nat → Byte} (hdone : ElementDone s t d next len byte) {j : Nat}
    (hj : j < len) : t.dstByte (out.length + j) = byte j := by
  rw [State.dstByte, hdone.latch, ← h.outPos, ← Nat.add_assoc]
  exact hdone.bytes j hj

/-- An element that fits the capacity puts out the destination up to its end. -/
theorem Expanding.advance {next len : Nat} {byte : Nat → Byte} (hdone : ElementDone s t d next len byte)
    (hcap : out.length + len ≤ s₀.latch.dstCap.toNat) :
    Expanding s₀ t ⟨next, d.outPos + len, d.expect⟩ (sourcePrefix t.dstByte (out.length + len)) where
  params := hdone.params.trans h.params
  cfg := hdone.cfg.trans h.cfg
  latch := hdone.latch.trans h.latch
  turns := hdone.turns.trans h.turns
  hostData := hdone.hostData.trans h.hostData
  status := hdone.status.trans h.status
  unseen := hdone.unseen.trans h.unseen
  written j hj := by
    rw [sourcePrefix_length] at hj
    rw [sourcePrefix_getD _ hj]
  outside a ha := by
    rw [← h.outside a ha]
    refine hdone.outside a ?_
    simp only [Regions.inDst, inRange, Regions.dstEnd, h.latch, h.outPos] at ha ⊢
    omega
  engine := hdone.engine
  outPos := by rw [sourcePrefix_length, h.outPos]
  table := hdone.table.trans h.table

variable {i : Instr} (hlegal : s₀.latch.legal) (hbus : s₀.params.busFaults = .none)
  (hsrc : d.inPos + 1 + i.trailer ≤ s₀.latch.srcLen.toNat)

include hlegal hbus hsrc

/-- A literal puts out its payload (R236). -/
theorem Expanding.literal {len : Nat} (hi : IsLiteral i len) :
    ElementAgrees s₀ s d (exec i s)
      (elementOutput s₀.latch.dstCap.toNat i (s₀.source.drop (d.inPos + 1 + i.trailer)) out) := by
  have ⟨_, _, hapart⟩ := hlegal
  have hlatch := h.latch
  have hpos := h.outPos
  have hlegal' : s.latch.legal := hlatch ▸ hlegal
  rw [elementOutput_literal hi, List.length_drop, State.length_source]
  split
  next herr => exact exec_literal_errs hlegal' h.engine hi (by rw [hlatch]; omega)
  next hfits =>
    obtain ⟨t, hexec, hdone⟩ := exec_literal_done hlegal' h.engine hi
      (State.busFails_eq_false (h.params ▸ hbus)) (by rw [hlatch]; omega) (by rw [hlatch]; omega)
    have hout : out ++ (s₀.source.drop (d.inPos + 1 + i.trailer)).take len
        = sourcePrefix t.dstByte (out.length + len) := by
      rw [sourcePrefix_add, h.sourcePrefix_old hdone]
      congr 1
      refine List.ext_getElem (by simp; omega) fun j hj hj' => ?_
      have hlen : j < len := by simpa using hj'
      rw [List.getElem_map, List.getElem_range, h.dstByte_new hdone hlen, h.toWriting.source hapart (by omega)]
      simp [State.source]
    rw [hout]
    exact ⟨t, _, hexec, h.advance hdone (by omega), rfl, by dsimp only; omega, by rw [List.drop_drop]⟩

/-- A copy puts out the bytes before it again (R242). -/
theorem Expanding.copy {off len : Nat} (hi : IsCopy i off len) :
    ElementAgrees s₀ s d (exec i s)
      (elementOutput s₀.latch.dstCap.toNat i (s₀.source.drop (d.inPos + 1 + i.trailer)) out) := by
  have hlatch := h.latch
  have hpos := h.outPos
  have hlegal' : s.latch.legal := hlatch ▸ hlegal
  rw [elementOutput_copy hi]
  split
  next herr => exact exec_copy_errs hlegal' h.engine hi (.inr (by rw [hlatch]; omega))
  next hfits =>
    obtain ⟨t, hexec, hdone⟩ := exec_copy_done hlegal' h.engine hi
      (State.busFails_eq_false (h.params ▸ hbus)) (by rw [hlatch]; omega) (by omega) (by omega) (by rw [hlatch]; omega)
    have hrepeats (j : Nat) (hj : j < len) : t.dstByte (out.length + j - off) = t.dstByte (out.length + j) := by
      rw [h.dstByte_new hdone hj, hpos]
      rcases Nat.lt_or_ge j off with hlt | hge
      · rw [Nat.mod_eq_of_lt hlt, h.dstByte_old hdone (by omega)]
        congr 1
        omega
      · rw [Nat.add_sub_assoc hge, h.dstByte_new hdone (by omega), Nat.mod_eq_sub_mod hge, hpos]
    have hout : appendCopy out off len = sourcePrefix t.dstByte (out.length + len) := by
      rw [← appendCopy_sourcePrefix (by omega) (by omega) hrepeats, h.sourcePrefix_old hdone]
    rw [hout]
    exact ⟨t, _, hexec, h.advance hdone (by omega), rfl, by dsimp only; omega, rfl⟩

end Element

/-! ### The run -/

section Run

variable {s₀ s : State} {d : Decompressor} {out : List Byte} (h : Expanding s₀ s d out) (hlegal : s₀.latch.legal)
  (hbus : s₀.params.busFaults = .none)

include h

theorem Expanding.failed {t : State} {e : ErrorKind} {expect pos : Nat} (hf : Failed s t e expect pos) :
    Failed s₀ t e expect pos :=
  hf.congr h.toDeviceFrame h.status h.unseen h.outside h.table

/-- The end of the element loop is the end of a block with no element left (R247, R248). -/
theorem Expanding.finish :
    DecompressEnds s₀ (finishDecompress s d)
      (if out.length = d.expect.toNat then .output out else .wrongSize d.expect.toNat s₀.latch.srcLen.toNat) := by
  split
  next hlen =>
    obtain ⟨hended, hbytes, hout, htable⟩ := finishDecompress_succeeds (s := s) (h.outPos.trans hlen)
    rw [← hlen] at hended hbytes
    refine ⟨hended.congr h.toDeviceFrame h.status h.unseen, fun j hj => (hbytes j hj).trans (h.written j hj),
      fun a ha => ?_, htable.trans h.table⟩
    exact (hout a (by rwa [h.latch])).trans (h.outside a ha)
  next hlen =>
    rw [← h.latch]
    exact h.failed (finishDecompress_fails h.engine (by rwa [h.outPos]))

/-- With the input used up, the run ends. -/
theorem Expanding.ends_at_end (hend : s₀.latch.srcLen.toNat ≤ d.inPos) (k : Nat) :
    ∃ t, runDecompressor (k + 1) s = .next t
      ∧ DecompressEnds s₀ t (elementsEnd s₀.latch.dstCap.toNat d.expect.toNat s₀.latch.srcLen.toNat k
          (s₀.source.drop d.inPos) out) := by
  rw [List.drop_eq_nil_of_le (by rwa [State.length_source]), elementsEnd_nil]
  exact ⟨_, runDecompressor_ends h.engine (decompressorAction_at_end (by rwa [h.latch]))
    (finishDecompress_engine s d) k, h.finish⟩

include hlegal hbus

/-- One action of the machine agrees with the bytes of one element. -/
theorem Expanding.action (hlt : d.inPos < s₀.latch.srcLen.toNat) :
    ElementAgrees s₀ s d (decompressorAction execElement s d)
      (expandElement s₀.latch.dstCap.toNat (s₀.source.drop d.inPos) out) := by
  have hbus' : s.params.busFaults = .none := h.params ▸ hbus
  have hb := State.busFails_eq_false hbus'
  have ⟨_, hsp₀, hapart⟩ := hlegal
  have hsp : s.latch.inSpace := h.latch ▸ hsp₀
  have hsource := h.source_eq hapart
  unfold expandElement
  cases hd : decodeElement (s₀.source.drop d.inPos) with
  | error r =>
    rw [← hsource] at hd
    rw [decompressorAction_of_no_element hb hsp (h.latch ▸ hlt) hd, State.busNext_eq_self hbus']
    rfl
  | ok p =>
    obtain ⟨i, rest⟩ := p
    obtain ⟨-, hspace, -⟩ := decodedElementEncodesBack _ _ _ hd
    obtain ⟨htrailer, rfl⟩ := decodeElement_rest hd
    rw [List.length_drop, State.length_source] at htrailer
    rw [List.drop_drop, ← Nat.add_assoc] at hd ⊢
    rw [← hsource] at hd
    rw [decompressorAction_of_element hb hsp hd, State.busNext_eq_self hbus', ← exec_eq_execElement hspace]
    rcases isLiteral_or_isCopy hspace with ⟨len, hi⟩ | ⟨off, len, hi⟩
    · exact h.literal hlegal hbus (by omega) hi
    · exact h.copy hlegal hbus (by omega) hi

/-- A run ends as its elements do. -/
theorem Expanding.ends {k : Nat} (hk : s₀.latch.srcLen.toNat - d.inPos ≤ k) :
    ∃ t, runDecompressor (k + 1) s = .next t
      ∧ DecompressEnds s₀ t (elementsEnd s₀.latch.dstCap.toNat d.expect.toNat s₀.latch.srcLen.toNat k
          (s₀.source.drop d.inPos) out) := by
  induction k generalizing s d out with
  | zero => exact h.ends_at_end (by omega) 0
  | succ k ih =>
    rcases Nat.lt_or_ge d.inPos s₀.latch.srcLen.toNat with hlt | hend
    · have haction := h.action hlegal hbus hlt
      cases helem : expandElement s₀.latch.dstCap.toNat (s₀.source.drop d.inPos) out with
      | none =>
        rw [helem] at haction
        have hlen : (s₀.source.drop d.inPos).length = s₀.latch.srcLen.toNat - d.inPos := by
          rw [List.length_drop, State.length_source]
        rw [elementsEnd_of_no_element (List.ne_nil_of_length_pos (by omega)) helem, hlen, Nat.sub_sub_self hlt.le]
        exact ⟨_, runDecompressor_ends h.engine haction rfl _,
          h.failed (State.elementError_failed h.engine (hlt.trans s₀.latch.srcLen.isLt))⟩
      | some p =>
        rw [helem] at haction
        obtain ⟨t, d', hact, hnext, hexpect, hadvance, hstream⟩ := haction
        rw [elementsEnd_of_element helem, hstream, ← hexpect, runDecompressor_succ h.engine, hact, andThen_next]
        exact ih hnext (by omega)
    · exact h.ends_at_end hend _

end Run

/-! ### The command -/

theorem decodeHeaderFrom_congr {src src' : Nat → Byte} {n : Nat} (h : ∀ i, i < n → src' i = src i)
    (fuel k v : Nat) : decodeHeaderFrom fuel src' n k v = decodeHeaderFrom fuel src n k v := by
  induction fuel generalizing k v with
  | zero => rfl
  | succ fuel ih =>
    rw [decodeHeaderFrom, decodeHeaderFrom]
    split
    next => rfl
    next hk => simp only [h k (by omega), ih]

/-- The header depends on the source bytes alone (R231). -/
theorem decodeHeader_source (s : State) :
    decodeHeader (fun k => s.source.getD k 0#8) s.source.length = decodeHeader s.srcByte s.latch.srcLen.toNat := by
  rw [State.length_source]
  exact decodeHeaderFrom_congr (fun _ hi => sourcePrefix_getD s.srcByte hi) _ _ _

/-- DECOMPRESS ends as its block does: a function of the source bytes and the capacity (R251). -/
theorem exec_decompress_blockEnd {s : State} {v : Word} (he : s.engine = .started v) (hlegal : s.latch.legal)
    (hbus : s.params.busFaults = .none) (hturns : s.turns = []) :
    ∃ t, exec .decompress s = .next t ∧ DecompressEnds s t (blockEnd s.latch.dstCap.toNat s.source) := by
  have hb := State.busFails_eq_false hbus
  unfold blockEnd
  rw [decodeHeader_source]
  cases hh : decodeHeader s.srcByte s.latch.srcLen.toNat with
  | error pos =>
    obtain ⟨t, hexec, hended, hmem, htable, -⟩ := badHeaderIsParsingError s v pos he hlegal hb hh
    exact ⟨t, hexec, hended, fun a _ => hmem a, htable⟩
  | ok p =>
    obtain ⟨len, hlen⟩ := p
    dsimp only
    split
    next hcap =>
      obtain ⟨t, hexec, hended, hmem, htable, -⟩ := oversizedHeaderIsInvalidChunkSize s v len hlen he hlegal hb hh hcap
      exact ⟨t, hexec, hended, fun a _ => hmem a, htable⟩
    next hcap =>
      have hexpect : (BitVec.ofNat 32 len).toNat = len := by
        rw [BitVec.toNat_ofNat, Nat.mod_eq_of_lt (decodeHeader_ok hh).1]
      have hstart : Expanding s { s with engine := .decompress ⟨hlen, 0, BitVec.ofNat 32 len⟩ }
          ⟨hlen, 0, BitVec.ofNat 32 len⟩ [] :=
        ⟨Writing.begin s _, rfl, rfl, rfl⟩
      have hends := hstart.ends hlegal hbus (k := s.latch.srcLen.toNat) (Nat.sub_le _ _)
      rw [hexpect] at hends
      rw [State.length_source, exec, execDecompress, if_neg (not_not_intro hlegal),
        beginDecompress_of_header hb hh (not_lt.1 hcap), State.busNext_eq_self hbus, andThen_next,
        settle_of_no_turns (by exact hturns)]
      exact hends

/-- Settles O29: the command ends as `blockEnd` says, whose output is the expansion of the block. -/
theorem decompressExpandsTheBlock : Obligations.DecompressExpandsTheBlock := by
  unfold Obligations.DecompressExpandsTheBlock
  intro s v he hlegal hbus hturns
  obtain ⟨t, hexec, hends⟩ := exec_decompress_blockEnd he hlegal hbus hturns
  rw [← output?_blockEnd]
  cases hblock : blockEnd s.latch.dstCap.toNat s.source with
  | output out =>
    rw [hblock] at hends
    refine ⟨fun out' hout => ?_, fun hout => nomatch hout⟩
    cases hout
    exact ⟨t, hexec, hends⟩
  | malformed expect pos =>
    rw [hblock] at hends
    exact ⟨(fun _ hout => nomatch hout),
      fun _ => ⟨t, _, _, _, hexec, .inl rfl, hends.toEnded, hends.outside, hends.table⟩⟩
  | wrongSize expect pos =>
    rw [hblock] at hends
    exact ⟨(fun _ hout => nomatch hout),
      fun _ => ⟨t, _, _, _, hexec, .inr rfl, hends.toEnded, hends.outside, hends.table⟩⟩

/-- What the host sees of two commands that have ended alike is the same. -/
theorem Ended.results_eq {s₁ s₂ t₁ t₂ : State} {e : Option ErrorKind} {result expect pos : Nat}
    (h₁ : Ended s₁ t₁ e result expect pos) (h₂ : Ended s₂ t₂ e result expect pos) :
    t₁.status.err = t₂.status.err ∧ t₁.status.errCode = t₂.status.errCode ∧ t₁.resultLen = t₂.resultLen
      ∧ t₁.expectLen = t₂.expectLen ∧ t₁.errPos = t₂.errPos :=
  ⟨h₁.err.trans h₂.err.symm, h₁.errCode.trans h₂.errCode.symm,
    BitVec.eq_of_toNat_eq (h₁.resultLen.trans h₂.resultLen.symm),
    BitVec.eq_of_toNat_eq (h₁.expectLen.trans h₂.expectLen.symm),
    BitVec.eq_of_toNat_eq (h₁.errPos.trans h₂.errPos.symm)⟩

/-- Settles O30: both commands end as `blockEnd` says of the same block and the same capacity. -/
theorem decompressDependsOnSourceAndCapacity : Obligations.DecompressDependsOnSourceAndCapacity := by
  unfold Obligations.DecompressDependsOnSourceAndCapacity
  intro s₁ s₂ v₁ v₂ he₁ he₂ hlegal₁ hlegal₂ hsource hcap hbus₁ hbus₂ hturns₁ hturns₂
  obtain ⟨t₁, hexec₁, hends₁⟩ := exec_decompress_blockEnd he₁ hlegal₁ hbus₁ hturns₁
  obtain ⟨t₂, hexec₂, hends₂⟩ := exec_decompress_blockEnd he₂ hlegal₂ hbus₂ hturns₂
  rw [← hsource, ← hcap] at hends₂
  refine ⟨t₁, t₂, hexec₁, hexec₂, ?_⟩
  cases hblock : blockEnd s₁.latch.dstCap.toNat s₁.source with
  | output out =>
    rw [hblock] at hends₁ hends₂
    obtain ⟨hended₁, hbytes₁, -⟩ := hends₁
    obtain ⟨hended₂, hbytes₂, -⟩ := hends₂
    obtain ⟨herr, hcode, hresult, hexpect, hpos⟩ := hended₁.results_eq hended₂
    refine ⟨herr, hcode, hresult, hexpect, hpos, fun _ j hj => ?_⟩
    rw [hended₁.resultLen] at hj
    rw [hbytes₁ j hj, hbytes₂ j hj]
  | malformed expect pos | wrongSize expect pos =>
    rw [hblock] at hends₁ hends₂
    obtain ⟨herr, hcode, hresult, hexpect, hpos⟩ := hends₁.results_eq hends₂.toEnded
    exact ⟨herr, hcode, hresult, hexpect, hpos, fun hok => by simp [hends₁.err] at hok⟩

end Sys2Proof.Machine
end

section
/-! The device on its own turn (42_commands.md R294, R297, R302): no action of it stops the machine (O55), and an
accepted command ends, since every action of an engine lowers the number of actions left (O56). -/

namespace Sys2Proof.Machine

/-- The command has ended: no engine works, and `STATUS` shows `DONE` (42_commands.md R298). -/
structure State.AtRest (t : State) : Prop where
  engine : t.engine = .idle
  busy : t.status.busy = false
  done : t.status.done = true

/-! ### Actions of the decompressor -/

/-- What is fetched from the stream is an element (60_exceptions.md R325). -/
theorem State.fetchElement_space {s : State} {d : Decompressor} {i : Instr} (h : s.fetchElement d = .ok i) :
    i.space = .element := by
  rw [State.fetchElement_eq] at h
  cases hd : decodeElement (s.source.drop d.inPos) with
  | error r => rw [hd] at h; cases h
  | ok p =>
    rw [hd] at h; cases h
    obtain ⟨-, hspace, -⟩ := decodedElementEncodesBack _ _ _ hd
    exact hspace

/-- So it makes no difference whether the device runs it as an instruction or as an element. -/
theorem decompressorAction_exec (s : State) (d : Decompressor) :
    decompressorAction exec s d = decompressorAction execElement s d := by
  unfold decompressorAction
  congr 3
  funext u
  cases hf : u.fetchElement d with
  | error r => rfl
  | ok i => exact exec_eq_execElement (State.fetchElement_space hf) u

/-- A memory phase stops the machine only where what it goes on with does. -/
theorem State.onBus_total {s : State} {k : State → Host.Outcome State Fault Refusal}
    (h : ∃ t, k s.busNext = .next t) : ∃ t, s.onBus k = .next t := by
  rcases s.onBus_cases k with hb | hb
  · exact ⟨_, hb⟩
  · exact hb ▸ h

/-- So does an element of a running DECOMPRESS whose regions lie in memory (logs 11 and 12). -/
theorem onElement_total {s : State} {d : Decompressor} {k : Decompressor → Host.Outcome State Fault Refusal}
    (he : s.engine = .decompress d) (hsp : s.latch.inSpace) (tb : Nat) (h : ∃ t, k d = .next t) :
    ∃ t, onElement tb s k = .next t := by
  rw [onElement_eq he, if_neg (not_not_intro hsp)]
  split
  · exact ⟨_, rfl⟩
  · exact h

theorem doLiteral_total {s : State} {d : Decompressor} (he : s.engine = .decompress d) (hsp : s.latch.inSpace)
    (tb len : Nat) : ∃ t, doLiteral tb len s = .next t := by
  refine onElement_total he hsp tb ?_
  split
  · exact ⟨_, rfl⟩
  · exact State.onBus_total ⟨_, rfl⟩

theorem doCopy_total {s : State} {d : Decompressor} (he : s.engine = .decompress d) (hsp : s.latch.inSpace)
    (tb off len : Nat) : ∃ t, doCopy tb off len s = .next t := by
  refine onElement_total he hsp tb ?_
  split
  · exact ⟨_, rfl⟩
  · exact State.onBus_total ⟨_, rfl⟩

theorem execElement_total {i : Instr} {s : State} {d : Decompressor} (hi : i.space = .element)
    (he : s.engine = .decompress d) (hsp : s.latch.inSpace) : ∃ t, execElement i s = .next t := by
  cases i with
  | lit | lit1 | lit2 | lit3 | lit4 => exact doLiteral_total he hsp _ _
  | copy1 | copy2 | copy4 => exact doCopy_total he hsp _ _ _
  | nop | compress | decompress | maxlen => cases hi

theorem decompressorAction_total {s : State} {d : Decompressor} (he : s.engine = .decompress d)
    (hsp : s.latch.inSpace) : ∃ t, decompressorAction execElement s d = .next t := by
  rcases decompressorAction_cases execElement s d with ⟨-, hout, -⟩ | ⟨-, -, -, hb⟩
      | ⟨-, -, -, ⟨r, -, herr⟩ | ⟨i, hf, hi⟩⟩ | ⟨-, hend⟩
  · exact absurd hsp hout
  · exact ⟨_, hb⟩
  · exact ⟨_, herr⟩
  · rw [hi]
    exact execElement_total (State.fetchElement_space hf) (by simpa using he) (by simpa using hsp)
  · exact ⟨_, hend⟩

/-- An element that leaves no engine at work has ended the command. -/
theorem execElement_atRest {i : Instr} {s t : State} (h : execElement i s = .next t) (hidle : t.engine = .idle) :
    t.AtRest := by
  obtain ⟨d, tb, taken, len, src, -, rfl | ⟨-, rfl⟩ | ⟨-, -, -, rfl⟩⟩ := execElement_effect h
  · exact ⟨rfl, rfl, rfl⟩
  · exact ⟨rfl, rfl, rfl⟩
  · cases hidle

theorem finishDecompress_atRest (s : State) (d : Decompressor) : (finishDecompress s d).AtRest := by
  unfold finishDecompress
  split <;> exact ⟨rfl, rfl, rfl⟩

/-- Every action of the decompressor ends the command or advances `in_pos` within the source (R235). -/
theorem decompressorAction_advances {s t : State} {d : Decompressor} (he : s.engine = .decompress d)
    (h : decompressorAction execElement s d = .next t) :
    t.AtRest ∨ ∃ d', t.engine = .decompress d' ∧ d.inPos < d'.inPos ∧ d'.inPos ≤ s.latch.srcLen.toNat
      ∧ t.latch = s.latch := by
  rcases decompressorAction_cases execElement s d with ⟨-, -, hf⟩ | ⟨-, -, -, hb⟩
      | ⟨-, -, -, ⟨r, -, herr⟩ | ⟨i, -, hi⟩⟩ | ⟨-, hend⟩
  · rw [hf] at h; cases h
  · rw [hb] at h; cases h
    exact .inl ⟨rfl, rfl, rfl⟩
  · rw [herr] at h; cases h
    exact .inl ⟨rfl, rfl, rfl⟩
  · rw [hi] at h
    rcases execElement_advances (by simpa using he) h with hidle | hgoes
    · exact .inl (execElement_atRest h hidle)
    · exact .inr (by simpa only [State.busNext_latch] using hgoes)
  · rw [hend] at h; cases h
    exact .inl (finishDecompress_atRest s d)

/-- A run of the decompressor with actions enough ends the command (R235, R302). -/
theorem runDecompressor_atRest {k : Nat} {s : State} {d : Decompressor} (he : s.engine = .decompress d)
    (hsp : s.latch.inSpace) (hk : s.latch.srcLen.toNat - d.inPos < k) :
    ∃ t, runDecompressor k s = .next t ∧ t.AtRest := by
  induction k generalizing s d with
  | zero => exact absurd hk (Nat.not_lt_zero _)
  | succ k ih =>
    obtain ⟨u, hu⟩ := decompressorAction_total he hsp
    rw [runDecompressor_succ he, hu, andThen_next]
    rcases decompressorAction_advances he hu with hrest | ⟨d', he', hlt, hle, hlatch⟩
    · exact ⟨u, runDecompressor_of_not_running (by simp [hrest.engine]) k, hrest⟩
    · exact ih he' (hlatch ▸ hsp) (by rw [hlatch]; omega)

/-- A DECOMPRESS that its header has ended, or that runs, is carried to its end. -/
theorem finishDecompressor_atRest {s : State} (hsp : s.latch.inSpace)
    (h : s.AtRest ∨ ∃ d, s.engine = .decompress d) : ∃ t, finishDecompressor s = .next t ∧ t.AtRest := by
  rcases h with hrest | ⟨d, he⟩
  · exact ⟨s, runDecompressor_of_not_running (by simp [hrest.engine]) _, hrest⟩
  · exact runDecompressor_atRest he hsp (by omega)

/-! ### Actions of the compressor -/

/-- The compressor's work goes on with COMPRESS, and with fewer actions left; a relational block leaves no window. -/
theorem compressorWork_goesOn (s : State) (c : Compressor) :
    (compressorWork s c).latch = s.latch ∧ ∃ c', (compressorWork s c).engine = .compress c'
      ∧ (c.inv s.latch.srcLen.toNat s.table → ¬ c.finished s.latch.srcLen.toNat →
          c'.actionsLeft s.latch.srcLen.toNat < c.actionsLeft s.latch.srcLen.toNat) := by
  unfold compressorWork
  dsimp only
  split
  next hmode =>
    refine ⟨rfl, _, rfl, fun _ _ => ?_⟩
    simp only [Compressor.actionsLeft, hmode.2]
    omega
  next => exact ⟨rfl, _, rfl, fun hinv hf => Compressor.act_actionsLeft hinv hf s.srcByte⟩

theorem compressorAction_total {s : State} (hsp : s.latch.inSpace) (c : Compressor) :
    ∃ t, compressorAction s c = .next t := by
  rcases compressorAction_cases s c with ⟨-, hend⟩ | ⟨-, hout, -⟩ | ⟨-, -, hb⟩ | ⟨-, -, hw | hw⟩
  · exact ⟨_, hend⟩
  · exact absurd hsp hout
  · exact ⟨_, hb⟩
  · exact ⟨_, hw⟩
  · exact ⟨_, hw⟩

/-- Every action of the compressor keeps the latches; it ends the command, or goes on with fewer actions left
(40_compressor.md R178). -/
theorem compressorAction_advances {s t : State} {c : Compressor} (h : compressorAction s c = .next t) :
    t.latch = s.latch ∧ (t.AtRest ∨ ∃ c', t.engine = .compress c' ∧ (c.inv s.latch.srcLen.toNat s.table →
      c'.actionsLeft s.latch.srcLen.toNat < c.actionsLeft s.latch.srcLen.toNat)) := by
  rcases compressorAction_cases s c with ⟨-, hend⟩ | ⟨-, -, hf⟩ | ⟨-, -, hb⟩ | ⟨hfin, -, hw | hw⟩
  · rw [hend] at h; cases h
    exact ⟨rfl, .inl ⟨rfl, rfl, rfl⟩⟩
  · rw [hf] at h; cases h
  · rw [hb] at h; cases h
    exact ⟨s.busNext_latch, .inl ⟨rfl, rfl, rfl⟩⟩
  · rw [hw] at h; cases h
    obtain ⟨hlatch, c', he, hless⟩ := compressorWork_goesOn s c
    exact ⟨hlatch, .inr ⟨c', he, fun hinv => hless hinv hfin⟩⟩
  · rw [hw] at h; cases h
    obtain ⟨hlatch, c', he, hless⟩ := compressorWork_goesOn s.busNext c
    simp only [State.busNext_latch, State.busNext_table] at hlatch hless
    exact ⟨hlatch, .inr ⟨c', he, fun hinv => hless hinv hfin⟩⟩

/-- No number of actions of the compressor stops the machine while its regions lie in memory (log 12). -/
theorem runCompressor_total (k : Nat) {s : State} (hsp : s.latch.inSpace) : ∃ t, runCompressor k s = .next t := by
  induction k generalizing s with
  | zero => exact ⟨s, rfl⟩
  | succ k ih =>
    by_cases hrun : ∃ c, s.engine = .compress c
    · obtain ⟨c, he⟩ := hrun
      obtain ⟨u, hu⟩ := compressorAction_total hsp c
      rw [runCompressor_succ he, hu, andThen_next]
      exact ih ((compressorAction_advances hu).1 ▸ hsp)
    · exact ⟨s, runCompressor_of_not_running (not_exists.1 hrun) _⟩

/-- A run of the compressor with actions enough ends the command (R178, R302). -/
theorem runCompressor_atRest {k : Nat} {s : State} {c : Compressor} (he : s.engine = .compress c)
    (hsp : s.latch.inSpace) (hinv : CompressorInv s) (hk : c.actionsLeft s.latch.srcLen.toNat < k) :
    ∃ t, runCompressor k s = .next t ∧ t.AtRest := by
  induction k generalizing s c with
  | zero => exact absurd hk (Nat.not_lt_zero _)
  | succ k ih =>
    obtain ⟨u, hu⟩ := compressorAction_total hsp c
    rw [runCompressor_succ he, hu, andThen_next]
    obtain ⟨hlatch, hrest | ⟨c', he', hless⟩⟩ := compressorAction_advances hu
    · exact ⟨u, runCompressor_of_not_running (by simp [hrest.engine]) k, hrest⟩
    · refine ih he' (hlatch ▸ hsp) (compressorAction_compressorInv hinv he hu) ?_
      have := hless (hinv c he)
      rw [hlatch]
      omega

/-- COMPRESS from its beginning is carried to its end. -/
theorem finishCompressor_atRest {s : State} (hsp : s.latch.inSpace) (he : s.engine = .compress Compressor.initial) :
    ∃ t, finishCompressor s = .next t ∧ t.AtRest := by
  refine runCompressor_atRest he hsp (fun c hc => ?_) (Compressor.initial_actionsLeft _)
  cases he.symm.trans hc
  exact Compressor.initial_inv _ _

/-! ### Commands -/

/-- A command that has begun settles; with no turn to come it has ended. -/
theorem settle_atRest {carry : State → Host.Outcome State Fault Refusal} {s : State}
    (h : ∃ t, carry s = .next t ∧ t.AtRest) : ∃ t, settle carry s = .next t ∧ (s.turns = [] → t.AtRest) := by
  obtain ⟨t, ht, hrest⟩ := h
  by_cases hturns : s.turns = []
  · exact ⟨t, (settle_of_no_turns hturns carry).trans ht, fun _ => hrest⟩
  · exact ⟨s, settle_of_turns hturns carry, fun h => absurd h hturns⟩

theorem execMaxlen_atRest (s : State) : ∃ t, execMaxlen s = .next t ∧ t.AtRest := by
  unfold execMaxlen
  split <;> exact ⟨_, rfl, rfl, rfl, rfl⟩

theorem execCompress_atRest (s : State) : ∃ t, execCompress s = .next t ∧ (s.turns = [] → t.AtRest) := by
  unfold execCompress
  split
  next => exact ⟨_, rfl, fun _ => ⟨rfl, rfl, rfl⟩⟩
  next hlegal =>
    obtain ⟨-, hsp, -⟩ := not_not.1 hlegal
    split
    next => exact ⟨_, rfl, fun _ => ⟨rfl, rfl, rfl⟩⟩
    next => exact settle_atRest (finishCompressor_atRest hsp rfl)

/-- The header has ended DECOMPRESS, or its elements run. -/
theorem HeaderEffect.atRest_or_running {u t : State} (h : HeaderEffect u t) :
    t.latch = u.latch ∧ (t.AtRest ∨ ∃ d, t.engine = .decompress d) := by
  rcases h with ⟨pos, rfl⟩ | ⟨len, hlen, -, rfl | ⟨-, rfl⟩⟩
  · exact ⟨rfl, .inl ⟨rfl, rfl, rfl⟩⟩
  · exact ⟨rfl, .inl ⟨rfl, rfl, rfl⟩⟩
  · exact ⟨rfl, .inr ⟨_, rfl⟩⟩

theorem beginDecompress_atRest_or_running {s u : State} (h : beginDecompress s = .next u) :
    u.latch = s.latch ∧ (u.AtRest ∨ ∃ d, u.engine = .decompress d) := by
  rcases beginDecompress_next h with rfl | heff | heff
  · exact ⟨s.busNext_latch, .inl ⟨rfl, rfl, rfl⟩⟩
  · exact heff.atRest_or_running
  · simpa only [State.busNext_latch] using heff.atRest_or_running

theorem beginDecompress_total (s : State) : ∃ u, beginDecompress s = .next u := by
  unfold beginDecompress
  extract_lets header
  have hheader (u : State) : ∃ v, header u = .next v := by
    simp only [header]
    split
    · exact ⟨_, rfl⟩
    · split <;> exact ⟨_, rfl⟩
  split
  · exact hheader s
  · exact State.onBus_total (hheader s.busNext)

theorem execDecompress_atRest (s : State) : ∃ t, execDecompress s = .next t ∧ (s.turns = [] → t.AtRest) := by
  unfold execDecompress
  split
  next => exact ⟨_, rfl, fun _ => ⟨rfl, rfl, rfl⟩⟩
  next hlegal =>
    obtain ⟨-, hsp, -⟩ := not_not.1 hlegal
    obtain ⟨u, hu⟩ := beginDecompress_total s
    obtain ⟨hlatch, hbegun⟩ := beginDecompress_atRest_or_running hu
    rw [hu, andThen_next, ← (beginDecompress_consumes hu).turns]
    exact settle_atRest (finishDecompressor_atRest (hlatch ▸ hsp) hbegun)

theorem decodeCommand_space {v : Word} {i : Instr} (h : decodeCommand v = .ok i) : i.space = .command := by
  unfold decodeCommand at h
  split at h <;> cases h <;> rfl

/-- No command stops the machine, and with no turn to come it has ended. -/
theorem exec_command_atRest {i : Instr} (hi : i.space = .command) (s : State) :
    ∃ t, exec i s = .next t ∧ (s.turns = [] → t.AtRest) := by
  cases i with
  | lit | lit1 | lit2 | lit3 | lit4 | copy1 | copy2 | copy4 => cases hi
  | nop => exact ⟨_, rfl, fun _ => ⟨rfl, rfl, rfl⟩⟩
  | compress => exact execCompress_atRest s
  | decompress => exact execDecompress_atRest s
  | maxlen =>
    obtain ⟨t, ht, hrest⟩ := execMaxlen_atRest s
    exact ⟨t, ht, fun _ => hrest⟩

/-! ### The device's move -/

theorem deviceMove_of_idle {s : State} (he : s.engine = .idle) : deviceMove s = .next s := by
  simp only [deviceMove, he]

theorem deviceMove_of_compress {s : State} {c : Compressor} (he : s.engine = .compress c) :
    deviceMove s = if s.turns = [] then finishCompressor s else compressorAction s c := by
  simp only [deviceMove, he]

theorem deviceMove_of_decompress {s : State} {d : Decompressor} (he : s.engine = .decompress d) :
    deviceMove s = if s.turns = [] then finishDecompressor s else decompressorAction execElement s d := by
  simp only [deviceMove, he, decompressorAction_exec]

/-- An accepted value that selects a command is run (R295). -/
theorem deviceMove_of_command {s : State} {v : Word} {i : Instr} (he : s.engine = .started v)
    (hv : decodeCommand v = .ok i) : deviceMove s = exec i s := by
  simp only [deviceMove, he, hv]

/-- One that selects none is an error (R296). -/
theorem deviceMove_of_illegal {s : State} {v : Word} {r : Reject} (he : s.engine = .started v)
    (hv : decodeCommand v = .error r) : deviceMove s = illegalCommand s := by
  simp only [deviceMove, he, hv]

theorem deviceMove_started_atRest {s : State} {v : Word} (he : s.engine = .started v) :
    ∃ t, deviceMove s = .next t ∧ (s.turns = [] → t.AtRest) := by
  cases hv : decodeCommand v with
  | ok i =>
    rw [deviceMove_of_command he hv]
    exact exec_command_atRest (decodeCommand_space hv) s
  | error r =>
    rw [deviceMove_of_illegal he hv]
    exact ⟨_, rfl, fun _ => ⟨rfl, rfl, rfl⟩⟩

/-- Settles O56: a command begins at rest or with an engine whose actions are enough to bring it there. -/
theorem acceptedCommandFinishes : Obligations.AcceptedCommandFinishes := by
  unfold Obligations.AcceptedCommandFinishes
  intro s v he hturns
  obtain ⟨t, hmove, hrest⟩ := deviceMove_started_atRest he
  obtain ⟨hidle, hbusy, hdone⟩ := hrest hturns
  exact ⟨t, (step_of_no_turns hturns).trans hmove, hidle, hbusy, hdone⟩

/-- Under the invariant the regions of a running engine lie in memory, so its move does not fault. -/
theorem deviceMove_total {s : State} (h : Inv s) : ∃ t, deviceMove s = .next t := by
  cases he : s.engine with
  | idle => exact ⟨s, deviceMove_of_idle he⟩
  | started v =>
    obtain ⟨t, hmove, -⟩ := deviceMove_started_atRest he
    exact ⟨t, hmove⟩
  | compress c =>
    obtain ⟨⟨-, hsp, -⟩, -⟩ := h.compressor c he
    rw [deviceMove_of_compress he]
    split
    · exact runCompressor_total _ hsp
    · exact compressorAction_total hsp c
  | decompress d =>
    obtain ⟨⟨-, hsp, -⟩, -⟩ := h.decompressor d he
    rw [deviceMove_of_decompress he]
    split
    · obtain ⟨t, ht, -⟩ := finishDecompressor_atRest hsp (.inr ⟨d, he⟩)
      exact ⟨t, ht⟩
    · exact decompressorAction_total he hsp

/-- Settles O55: the step is the device's move from a state that differs in the schedule alone, of which the invariant
does not speak. -/
theorem deviceNeverStops : Obligations.DeviceNeverStops := by
  unfold Obligations.DeviceNeverStops
  intro s s' h hturn
  rw [hturn.step]
  refine deviceMove_total ?_
  rw [hturn.eq]
  exact { h with }

end Sys2Proof.Machine
end

section
/-! The short commands and the host's way in (42_commands.md R290 to R300): how NOP, MAXLEN, an illegal value and bad
regions end (O16 to O19), the acceptance of a command (O41), and register reads (O44). -/

namespace Sys2Proof.Machine

/-! ### Commands that end at once -/

/-- Ending a command writes neither memory nor the table, the plan or the draws (42_commands.md R298). -/
theorem State.finish_untouched (s : State) (e : Option ErrorKind) (result expect pos : Word) :
    Untouched s (s.finish e result expect pos) := ⟨rfl, rfl, rfl, rfl⟩

/-- An accepted command that fails before it begins reports no length and position 0 (60_exceptions.md R312, R313). -/
theorem State.raise_started_ended {s : State} {v : Word} (he : s.engine = .started v) (e : ErrorKind) :
    Ended s (s.raise e 0) (some e) 0 0 0 := by
  have hlen : s.decodedLen = 0#32 := by simp only [State.decodedLen, he]
  have hended := s.raise_ended e (pos := 0) (by norm_num)
  rwa [hlen] at hended

/-- Settles O16: acceptance has fixed every field of `STATUS` that `Finish` leaves alone. -/
theorem nopClearsTheResults : Obligations.NopClearsTheResults := by
  unfold Obligations.NopClearsTheResults
  intro s
  refine ⟨s.finish none 0#32 0#32 0#32, rfl, s.finish_ended _ _ _, s.finish_untouched _ _ _ _, fun hst => ?_⟩
  rw [State.finish_status, hst]
  decide

/-- Settles O17: up to `LEN_MAX` the bound fits the result register. -/
theorem maxlenGivesTheBound : Obligations.MaxlenGivesTheBound := by
  unfold Obligations.MaxlenGivesTheBound
  intro s v he n
  constructor
  · intro hle
    have hexec : exec .maxlen s = .next (s.finish none (BitVec.ofNat 32 (Config.maxLen n)) 0#32 0#32) :=
      if_neg (not_lt.2 hle)
    have hfits : (BitVec.ofNat 32 (Config.maxLen n)).toNat = 32 + n + n / 6 := by
      rw [BitVec.toNat_ofNat, Config.maxLen, Nat.mod_eq_of_lt (by omega)]
    have hended := s.finish_ended (BitVec.ofNat 32 (Config.maxLen n)) 0#32 0#32
    rw [hfits] at hended
    exact ⟨_, hexec, hended, s.finish_untouched _ _ _ _⟩
  · intro hlt
    exact ⟨_, if_pos hlt, State.raise_started_ended he .regionError, s.finish_untouched _ _ _ _⟩

/-- Only the values 0 to 3 select a command (R136). -/
theorem decodeCommand_illegal {v : Word} (h : 4 ≤ v.toNat) : decodeCommand v = .error .illegalCommand := by
  unfold decodeCommand
  split
  case h_5 => rfl
  all_goals omega

/-- Bits 31:2 of a word are clear exactly for the values 0 to 3. -/
theorem extractLsb_31_2_eq_zero_iff (v : Word) : v.extractLsb 31 2 = 0#30 ↔ v.toNat < 4 := by
  rw [← BitVec.toNat_inj, BitVec.extractLsb_toNat, Nat.shiftRight_eq_div_pow]
  have := v.isLt
  simp only [BitVec.toNat_ofNat]
  omega

/-- Settles O18: no command is decoded, and the error is raised in its place. -/
theorem illegalCommandIsReported : Obligations.IllegalCommandIsReported := by
  unfold Obligations.IllegalCommandIsReported
  intro s s' v hturn he hv
  have hfour : ¬ v.toNat < 4 := mt (extractLsb_31_2_eq_zero_iff v).2 hv
  have he' : s'.engine = .started v := by rw [hturn.eq]; exact he
  have hstep : step s = .next (s'.raise .illegalCommand 0) :=
    hturn.step.trans (deviceMove_of_illegal he' (decodeCommand_illegal (not_lt.1 hfour)))
  rw [hstep, hturn.eq]
  refine ⟨_, rfl, State.raise_started_ended (s := { s with turns := s'.turns }) he _, ⟨rfl, rfl, rfl, rfl⟩,
    fun hst => ?_⟩
  have hlast : lastCmdOf v = 0#2 := if_neg hfour
  simp only [State.raise_status, hst, Status.accepted, hlast]
  decide

/-- Regions that fail one of the checks are not legal (R294). -/
theorem Regions.not_legal {r : Regions}
    (h : 2147483647 < r.srcLen.toNat ∨ 2147483647 < r.dstCap.toNat ∨ 2 ^ 32 < r.srcEnd ∨ 2 ^ 32 < r.dstEnd
      ∨ (0 < r.srcLen.toNat ∧ 0 < r.dstCap.toNat ∧ r.dstAddr.toNat < r.srcEnd ∧ r.srcAddr.toNat < r.dstEnd)) :
    ¬ r.legal := by
  simp only [Regions.legal, Regions.lengthsLegal, Regions.inSpace, Regions.apart, Config.lenMax, Config.addrSpace]
  omega

/-- Settles O19: the region checks come first in both commands (R295). -/
theorem badRegionsAreRejected : Obligations.BadRegionsAreRejected := by
  unfold Obligations.BadRegionsAreRejected
  intro s v i he hi srcLen dstCap srcEnd dstEnd hbad
  have hlegal : ¬ s.latch.legal := Regions.not_legal hbad
  have hexec : exec i s = .next (s.raise .regionError 0) := by
    rcases hi with rfl | rfl <;> exact if_pos hlegal
  exact ⟨_, hexec, State.raise_started_ended he _, s.finish_untouched _ _ _ _⟩

/-! ### Acceptance and register reads -/

/-- `LASTCMD` is `v[1:0]` where bits 31:2 are clear (R292). -/
theorem lastCmdOf_eq (v : Word) :
    lastCmdOf v = if v.extractLsb 31 2 = 0#30 then v.extractLsb 1 0 else 0#2 := by
  simp only [lastCmdOf, extractLsb_31_2_eq_zero_iff]
  split
  · apply BitVec.eq_of_toNat_eq
    rw [BitVec.extractLsb_toNat]
    simp
  · rfl

/-- Settles O41: while idle the write reaches `State.accept`, whose `LASTCMD` is the one R292 gives. -/
theorem commandWriteIsAccepted : Obligations.CommandWriteIsAccepted := by
  unfold Obligations.CommandWriteIsAccepted
  intro s s' a v hturn hreg hidle
  have hidle' : s'.status.busy = false := by rw [hturn.status]; exact hidle
  rw [step_of_writeReg hturn hreg (by decide) (by decide), ← lastCmdOf_eq]
  simp only [State.writeReg, State.unlessBusy_of_idle hidle']
  rw [hturn.eq]
  rfl

/-- The register block, by its offsets; the others read 0 (10_state.md R32, R44). -/
theorem State.readReg_eq (s : State) (offset : Nat) :
    s.readReg offset =
      if offset = 0x00 then Config.idValue
      else if offset = 0x08 then s.status.word
      else if offset = 0x0C then s.cfg.srcAddr
      else if offset = 0x10 then s.cfg.srcLen
      else if offset = 0x14 then s.cfg.dstAddr
      else if offset = 0x18 then s.cfg.dstCap
      else if offset = 0x1C then s.resultLen
      else if offset = 0x20 then s.expectLen
      else if offset = 0x24 then s.errPos
      else 0#32 := by
  unfold State.readReg
  split
  case h_10 h00 h08 h0C h10 h14 h18 h1C h20 h24 =>
    rw [if_neg h00, if_neg h08, if_neg h0C, if_neg h10, if_neg h14, if_neg h18, if_neg h1C, if_neg h20, if_neg h24]
  all_goals rfl

/-- Settles O44: the host's turn changes the schedule alone, and a read writes `hostData` and `unseen` alone. -/
theorem registerReadsReturnTheRegister : Obligations.RegisterReadsReturnTheRegister := by
  unfold Obligations.RegisterReadsReturnTheRegister
  intro s s' a offset hturn hreg hle haligned
  rw [hturn.step]
  obtain ⟨rest, -, rfl⟩ := hturn
  rw [hostMove_readReg (s := { s with turns := rest }) hreg haligned (by omega), State.hostReadReg, State.readReg_eq]
  rfl

end Sys2Proof.Machine
end

section
/-! The grain of the schedule (42_commands.md R297, 70_reset_and_hazards.md R366; log 5): no action of the device reads
the turns to come, so one action and the rest of the command is the whole command, and any number of turns ends where
one step does (O57). -/

namespace Sys2Proof.Machine

/-! ### Another schedule -/

/-- The state with the turns to come replaced. -/
def State.withTurns (s : State) (turns : List Turn) : State := { s with turns := turns }

@[simp] theorem State.withTurns_engine (s : State) (turns : List Turn) : (s.withTurns turns).engine = s.engine := rfl

@[simp] theorem State.withTurns_turns (s : State) (turns : List Turn) : (s.withTurns turns).turns = turns := rfl

theorem State.withTurns_of_turns {s : State} {turns : List Turn} (h : s.turns = turns) : s.withTurns turns = s := by
  subst h
  rfl

/-- The outcome with the turns to come replaced in the next state. -/
def reschedule (turns : List Turn) (o : Host.Outcome State Fault Refusal) : Host.Outcome State Fault Refusal :=
  andThen o fun t => .next (t.withTurns turns)

theorem andThen_reschedule (turns : List Turn) (o : Host.Outcome State Fault Refusal)
    (k : State → Host.Outcome State Fault Refusal) :
    andThen (reschedule turns o) k = andThen o fun t => k (t.withTurns turns) :=
  andThen_assoc o _ k

theorem andThen_congr {o : Host.Outcome State Fault Refusal} {k l : State → Host.Outcome State Fault Refusal}
    (h : ∀ t, o = .next t → k t = l t) : andThen o k = andThen o l := by
  cases o with
  | next t => exact h t rfl
  | fault f => rfl
  | refused r => rfl

section Schedule

variable (s : State) (turns : List Turn)

theorem State.onBus_withTurns {k : State → Host.Outcome State Fault Refusal}
    (hk : ∀ u : State, k (u.withTurns turns) = reschedule turns (k u)) :
    (s.withTurns turns).onBus k = reschedule turns (s.onBus k) := by
  have hnext : (s.withTurns turns).busNext = s.busNext.withTurns turns := s.busNext_withTurns turns
  cases hf : s.busFails with
  | true =>
    rw [State.onBus_of_fails hf, State.onBus_of_fails (by exact hf), hnext]
    rfl
  | false => rw [State.onBus_of_not_fails hf, State.onBus_of_not_fails (by exact hf), hnext, hk]

theorem onElement_withTurns (tb : Nat) {k l : Decompressor → Host.Outcome State Fault Refusal}
    (h : ∀ d, k d = reschedule turns (l d)) :
    onElement tb (s.withTurns turns) k = reschedule turns (onElement tb s l) := by
  unfold onElement State.withTurns
  dsimp only
  split
  · split
    · rfl
    · split
      · rfl
      · exact h _
  all_goals rfl

theorem doLiteral_withTurns (tb len : Nat) :
    doLiteral tb len (s.withTurns turns) = reschedule turns (doLiteral tb len s) := by
  refine onElement_withTurns s turns tb fun d => ?_
  unfold State.withTurns
  dsimp only
  split
  · rfl
  · exact s.onBus_withTurns turns fun _ => rfl

theorem doCopy_withTurns (tb off len : Nat) :
    doCopy tb off len (s.withTurns turns) = reschedule turns (doCopy tb off len s) := by
  refine onElement_withTurns s turns tb fun d => ?_
  unfold State.withTurns
  dsimp only
  split
  · rfl
  · exact s.onBus_withTurns turns fun _ => rfl

theorem execElement_withTurns (i : Instr) :
    execElement i (s.withTurns turns) = reschedule turns (execElement i s) := by
  cases i with
  | lit | lit1 | lit2 | lit3 | lit4 => exact doLiteral_withTurns s turns _ _
  | copy1 | copy2 | copy4 => exact doCopy_withTurns s turns _ _ _
  | nop | compress | decompress | maxlen => rfl

theorem finishDecompress_withTurns (d : Decompressor) :
    finishDecompress (s.withTurns turns) d = (finishDecompress s d).withTurns turns := by
  unfold finishDecompress State.withTurns
  dsimp only
  split <;> rfl

/-- An action of the decompressor does not read the turns to come. -/
theorem decompressorAction_withTurns (d : Decompressor) :
    decompressorAction execElement (s.withTurns turns) d
      = reschedule turns (decompressorAction execElement s d) := by
  unfold decompressorAction
  rw [finishDecompress_withTurns]
  unfold State.withTurns
  dsimp only
  split
  · split
    · rfl
    · refine s.onBus_withTurns turns fun u => ?_
      have hfetch : (u.withTurns turns).fetchElement d = u.fetchElement d := rfl
      rw [hfetch]
      cases u.fetchElement d with
      | ok i => exact execElement_withTurns u turns i
      | error r => rfl
  · rfl

/-- Nor does the header. -/
theorem beginDecompress_withTurns :
    beginDecompress (s.withTurns turns) = reschedule turns (beginDecompress s) := by
  unfold beginDecompress
  extract_lets header
  have hheader (u : State) : header (u.withTurns turns) = reschedule turns (header u) := by
    have hsrc : (u.withTurns turns).srcByte = u.srcByte := rfl
    have hlatch : (u.withTurns turns).latch = u.latch := rfl
    simp only [header, hsrc, hlatch]
    cases decodeHeader u.srcByte u.latch.srcLen.toNat with
    | error pos => rfl
    | ok p =>
      dsimp only
      split <;> rfl
  have hlatch : (s.withTurns turns).latch = s.latch := rfl
  rw [hlatch]
  split
  · exact hheader s
  · exact s.onBus_withTurns turns hheader

theorem compressorWork_withTurns (c : Compressor) :
    compressorWork (s.withTurns turns) c = (compressorWork s c).withTurns turns := by
  unfold compressorWork State.withTurns
  dsimp only
  split <;> rfl

/-- Nor does an action of the compressor. -/
theorem compressorAction_withTurns (c : Compressor) :
    compressorAction (s.withTurns turns) c = reschedule turns (compressorAction s c) := by
  unfold compressorAction
  rw [compressorWork_withTurns]
  unfold State.withTurns
  dsimp only
  split
  · rfl
  · split
    · rfl
    · split
      · exact s.onBus_withTurns turns fun u => congrArg _ (compressorWork_withTurns u turns c)
      · rfl

end Schedule

/-! ### Actions enough -/

/-- Under the compressor's invariant a run of COMPRESS has actions to spare (R178; log 20). -/
theorem Compressor.inv_actionsLeft_le {n : Nat} {c : Compressor} {t : HashTable} (h : c.inv n t) :
    c.actionsLeft n ≤ 8 * n + 5 := by
  cases hp : c.phase <;> simp only [Compressor.inv, Compressor.actionsLeft, hp] at h ⊢
  case header | window => omega
  all_goals
    have hends := h.1.ends
    omega

/-- One action more than enough changes nothing. -/
theorem runCompressor_succ_of_enough {k : Nat} {s : State} (hinv : CompressorInv s)
    (h : ∀ c, s.engine = .compress c → c.actionsLeft s.latch.srcLen.toNat < k) :
    runCompressor (k + 1) s = runCompressor k s := by
  induction k generalizing s with
  | zero =>
    have hidle : ∀ c, s.engine ≠ .compress c := fun c he => Nat.not_lt_zero _ (h c he)
    rw [runCompressor_of_not_running hidle, runCompressor_of_not_running hidle]
  | succ k ih =>
    by_cases hrun : ∃ c, s.engine = .compress c
    · obtain ⟨c, he⟩ := hrun
      have hleft := h c he
      rw [runCompressor_succ he, runCompressor_succ he]
      refine andThen_congr fun t ht => ih (compressorAction_compressorInv hinv he ht) fun c' he' => ?_
      obtain ⟨hlatch, hrest | ⟨c'', he'', hless⟩⟩ := compressorAction_advances ht
      · cases he'.symm.trans hrest.engine
      · cases he'.symm.trans he''
        have := hless (hinv c he)
        rw [hlatch]
        omega
    · have hidle := not_exists.1 hrun
      rw [runCompressor_of_not_running hidle, runCompressor_of_not_running hidle]

/-! ### One action, then the rest -/

/-- With no turn to come, a COMPRESS that runs or has ended is carried to its end. -/
theorem deviceMove_eq_finishCompressor {s : State} (hturns : s.turns = [])
    (h : s.AtRest ∨ ∃ c, s.engine = .compress c) : deviceMove s = finishCompressor s := by
  rcases h with hrest | ⟨c, he⟩
  · rw [deviceMove_of_idle hrest.engine]
    exact (runCompressor_of_not_running (by simp [hrest.engine]) _).symm
  · rw [deviceMove_of_compress he, if_pos hturns]

/-- With no turn to come, a DECOMPRESS that runs or has ended is carried to its end. -/
theorem deviceMove_eq_finishDecompressor {s : State} (hturns : s.turns = [])
    (h : s.AtRest ∨ ∃ d, s.engine = .decompress d) : deviceMove s = finishDecompressor s := by
  rcases h with hrest | ⟨d, he⟩
  · rw [deviceMove_of_idle hrest.engine]
    exact (runDecompressor_of_not_running (by simp [hrest.engine]) _).symm
  · rw [deviceMove_of_decompress he, if_pos hturns]

/-- With no turn to come, the move of a running COMPRESS is one action and the move after it. -/
theorem deviceMove_compress_eq_action {s : State} {c : Compressor} (he : s.engine = .compress c)
    (hinv : CompressorInv s) (hturns : s.turns = []) :
    deviceMove s = andThen (compressorAction s c) deviceMove := by
  rw [deviceMove_eq_finishCompressor hturns (.inr ⟨c, he⟩), finishCompressor, compressorActions, runCompressor_succ he]
  refine andThen_congr fun t ht => ?_
  obtain ⟨hlatch, hnext⟩ := compressorAction_advances ht
  have hinv' := compressorAction_compressorInv hinv he ht
  have hrunning : t.AtRest ∨ ∃ c', t.engine = .compress c' := hnext.imp_right fun ⟨c', he', _⟩ => ⟨c', he'⟩
  rw [deviceMove_eq_finishCompressor ((compressorAction_consumes ht).turns.trans hturns) hrunning, finishCompressor,
    compressorActions, hlatch]
  refine (runCompressor_succ_of_enough hinv' fun c' he' => ?_).symm
  have hle := Compressor.inv_actionsLeft_le (hinv' c' he')
  rw [hlatch] at hle ⊢
  omega

/-- The same of a running DECOMPRESS (R235). -/
theorem deviceMove_decompress_eq_action {s : State} {d : Decompressor} (he : s.engine = .decompress d)
    (hturns : s.turns = []) :
    deviceMove s = andThen (decompressorAction execElement s d) deviceMove := by
  rw [deviceMove_eq_finishDecompressor hturns (.inr ⟨d, he⟩), finishDecompressor, runDecompressor_succ he]
  refine andThen_congr fun t ht => ?_
  have hturns' := (decompressorAction_consumes (fun _ _ _ => execElement_consumes) ht).turns.trans hturns
  rcases decompressorAction_advances he ht with hrest | ⟨d', he', hlt, hle, hlatch⟩
  · rw [deviceMove_of_idle hrest.engine, runDecompressor_of_not_running (by simp [hrest.engine])]
  · rw [deviceMove_eq_finishDecompressor hturns' (.inr ⟨d', he'⟩), finishDecompressor, hlatch]
    refine (runDecompressor_succ_of_enough fun d'' he'' => ?_).symm
    cases he'.symm.trans he''
    rw [hlatch]
    omega

/-- COMPRESS that begins and then goes on is COMPRESS run in one step. -/
theorem execCompress_split {s : State} (hturns : s.turns ≠ []) :
    andThen (execCompress s) (fun t => deviceMove (t.withTurns [])) = execCompress (s.withTurns []) := by
  have hlatch : (s.withTurns []).latch = s.latch := rfl
  unfold execCompress
  rw [hlatch]
  split
  · rfl
  · split
    · rfl
    · rw [settle_of_turns (by exact hturns), settle_of_no_turns (by rfl), andThen_next,
        deviceMove_eq_finishCompressor (by rfl) (.inr ⟨_, rfl⟩)]
      rfl

/-- DECOMPRESS that begins and then goes on is DECOMPRESS run in one step. -/
theorem execDecompress_split {s : State} (hturns : s.turns ≠ []) :
    andThen (execDecompress s) (fun t => deviceMove (t.withTurns [])) = execDecompress (s.withTurns []) := by
  have hlatch : (s.withTurns []).latch = s.latch := rfl
  unfold execDecompress
  rw [hlatch]
  split
  · rfl
  · rw [beginDecompress_withTurns, andThen_reschedule, andThen_assoc]
    refine andThen_congr fun t ht => ?_
    obtain ⟨-, hbegun⟩ := beginDecompress_atRest_or_running ht
    have hrunning : (t.withTurns []).AtRest ∨ ∃ d, (t.withTurns []).engine = .decompress d :=
      hbegun.imp_left fun hrest => ⟨hrest.engine, hrest.busy, hrest.done⟩
    rw [settle_of_turns (by rw [(beginDecompress_consumes ht).turns]; exact hturns), andThen_next,
      settle_of_no_turns (by rfl), deviceMove_eq_finishDecompressor (by rfl) hrunning]

theorem exec_command_split {i : Instr} (hi : i.space = .command) {s : State} (hturns : s.turns ≠ []) :
    andThen (exec i s) (fun t => deviceMove (t.withTurns [])) = exec i (s.withTurns []) := by
  cases i with
  | lit | lit1 | lit2 | lit3 | lit4 | copy1 | copy2 | copy4 => cases hi
  | nop => rfl
  | compress => exact execCompress_split hturns
  | decompress => exact execDecompress_split hturns
  | maxlen =>
    have hlatch : (s.withTurns []).latch = s.latch := rfl
    rw [exec, exec, execMaxlen, execMaxlen, hlatch]
    split <;> rfl

/-- One action of the device, and then the rest with no turn to come, is the whole with no turn to come. -/
theorem deviceMove_split {s : State} (hinv : CompressorInv s) (hturns : s.turns ≠ []) :
    andThen (deviceMove s) (fun t => deviceMove (t.withTurns [])) = deviceMove (s.withTurns []) := by
  cases he : s.engine with
  | idle => rw [deviceMove_of_idle he, andThen_next]
  | started v =>
    cases hv : decodeCommand v with
    | ok i =>
      rw [deviceMove_of_command he hv, deviceMove_of_command (s := s.withTurns []) he hv,
        exec_command_split (decodeCommand_space hv) hturns]
    | error r =>
      rw [deviceMove_of_illegal he hv, deviceMove_of_illegal (s := s.withTurns []) he hv]
      rfl
  | compress c =>
    rw [deviceMove_of_compress he, if_neg hturns,
      deviceMove_compress_eq_action (s := s.withTurns []) he hinv rfl, compressorAction_withTurns, andThen_reschedule]
  | decompress d =>
    rw [deviceMove_of_decompress he, if_neg hturns,
      deviceMove_decompress_eq_action (s := s.withTurns []) he rfl, decompressorAction_withTurns, andThen_reschedule]

/-! ### Many steps -/

theorem run_succ (k : Nat) (s : State) :
    Host.Core.run Sys2Proof.core (k + 1) s = andThen (step s) (Host.Core.run Sys2Proof.core k) := by
  cases h : step s
  all_goals
    replace h : Sys2Proof.core.step s = _ := h
    simp only [Host.Core.run, h]
    rfl

theorem run_one (s : State) : Host.Core.run Sys2Proof.core 1 s = step s := by
  rw [run_succ]
  cases step s <;> rfl

/-- Device turns, as many as steps, end where the device's move with no turn to come does. -/
theorem run_device_turns (k : Nat) {s : State} (hinv : CompressorInv s) :
    Host.Core.run Sys2Proof.core (k + 1) (s.withTurns (List.replicate (k + 1) .device))
      = deviceMove (s.withTurns []) := by
  induction k generalizing s with
  | zero => exact run_one _
  | succ k ih =>
    have hstep : step (s.withTurns (List.replicate (k + 2) .device))
        = deviceMove (s.withTurns (List.replicate (k + 1) .device)) := rfl
    have hinv' : CompressorInv (s.withTurns (List.replicate (k + 1) .device)) := hinv
    have hsplit := deviceMove_split hinv' (by simp)
    rw [run_succ, hstep]
    refine (andThen_congr fun t ht => ?_).trans hsplit
    have hself := State.withTurns_of_turns (deviceMove_consumes ht).turns
    have hrest := ih (deviceMove_compressorInv hinv' ht)
    rw [State.withTurns_turns] at hself
    rwa [hself] at hrest

/-- Settles O57: before it begins, a command has no compressor at work whose invariant could fail. -/
theorem granularityDoesNotMatter : Obligations.GranularityDoesNotMatter := by
  unfold Obligations.GranularityDoesNotMatter
  intro s v k he hturns hk
  have hinv : CompressorInv s := fun c hc => by cases he.symm.trans hc
  obtain ⟨k, rfl⟩ := Nat.exists_eq_add_of_le' hk
  rw [step_of_no_turns hturns, ← State.withTurns_of_turns hturns]
  exact run_device_turns k hinv

end Sys2Proof.Machine
end

section
/-! What starts the device (60_exceptions.md R330; 70_reset_and_hazards.md R353): nothing on its own turn (O12), and on
the host's turn a write to `CMD` alone (O58). -/

namespace Sys2Proof.Machine

/-! ### The device's turn -/

/-- Settles O12: the schedule is all that the turn takes, and an idle device's move is empty. -/
theorem idleDeviceStaysIdle : Obligations.IdleDeviceStaysIdle := by
  unfold Obligations.IdleDeviceStaysIdle
  intro s s' hturn hidle
  have hidle' : s'.engine = .idle := by rw [hturn.eq, hidle]
  rw [hturn.step, deviceMove_of_idle hidle']

/-! ### The host's turn -/

/-- An access that names a register is 32 bits wide and aligned (10_state.md R31, R44). -/
theorem State.registerAt_of_registerOffset {s : State} {addr : Word} {width offset : Nat}
    (h : s.registerOffset addr width = .ok offset) : width = 4 ∧ s.registerAt addr offset := by
  simp only [State.registerOffset] at h
  split at h
  · cases h
  next hinside =>
    split at h
    next hshape =>
      obtain ⟨hwidth, haligned, -⟩ := hshape
      cases h
      exact ⟨hwidth, by omega, haligned⟩
    · cases h

theorem State.unlessBusy_engine {s : State} {k : State → State} (hk : (k s).engine = s.engine) :
    (s.unlessBusy k).engine = s.engine := by
  cases hb : s.status.busy with
  | true => rw [State.unlessBusy_of_busy hb]
  | false => rw [State.unlessBusy_of_idle hb, hk]

/-- Of the registers, `CMD` alone reaches the engine. -/
theorem State.writeReg_engine_of_ne_command {offset : Nat} (ho : offset ≠ 0x04) (s : State) (v : Word) :
    (s.writeReg offset v).engine = s.engine := by
  unfold State.writeReg
  split
  case h_1 => exact absurd rfl ho
  case h_6 => rfl
  all_goals exact State.unlessBusy_engine rfl

/-- A host move after which an idle device runs is a write to `CMD`: reads and memory writes leave the engine, and
reset leaves it idle. -/
theorem hostMove_starts {a : HostAction} {s t : State} (h : hostMove a s = .next t) (hidle : s.engine = .idle)
    (hruns : t.engine ≠ .idle) : ∃ addr v, a = .writeReg addr 4 v ∧ s.registerAt addr 0x04 := by
  rcases hostMove_next h with ⟨addr, width, offset, -, -, rfl⟩ | ⟨addr, width, v, offset, rfl, hoff, rfl⟩
      | ⟨addr, -, -, rfl⟩ | ⟨addr, b, -, -, rfl⟩ | ⟨-, rfl⟩
  · exact absurd hidle hruns
  · obtain ⟨rfl, hat⟩ := State.registerAt_of_registerOffset hoff
    obtain rfl : offset = 0x04 := by
      by_contra hne
      exact hruns ((State.writeReg_engine_of_ne_command hne s v).trans hidle)
    exact ⟨addr, v, rfl, hat⟩
  · obtain ⟨data, draws, heq⟩ := s.hostRead_eq addr
    rw [heq] at hruns
    exact absurd hidle hruns
  · exact absurd hidle hruns
  · exact absurd s.resetEvent_engine hruns

/-- Settles O58: the device's turn leaves an idle engine idle (O12), and the host's turn starts it by a `CMD` write
only. -/
theorem onlyCommandWriteStartsDevice : Obligations.OnlyCommandWriteStartsDevice := by
  unfold Obligations.OnlyCommandWriteStartsDevice
  intro s t hidle hstep hruns
  have hnotDevice (s' : State) (hturn : DeviceTurn s s') : False := by
    obtain rfl : s' = t := Host.Outcome.next.inj ((idleDeviceStaysIdle s s' hturn hidle).symm.trans hstep)
    exact hruns (by rw [hturn.eq, hidle])
  cases hturns : s.turns with
  | nil => exact (hnotDevice s (.inl ⟨hturns, rfl⟩)).elim
  | cons turn rest =>
    cases turn with
    | device => exact (hnotDevice _ (.inr ⟨rest, hturns, rfl⟩)).elim
    | host a =>
      have hturn : HostTurn s a { s with turns := rest } := ⟨rest, hturns, rfl⟩
      obtain ⟨addr, v, rfl, hat⟩ := hostMove_starts (hturn.step.symm.trans hstep) hidle hruns
      exact ⟨addr, v, _, hturn, hat⟩

end Sys2Proof.Machine
end

section
/-! The reset event on the host's turn (10_state.md R65; 70_reset_and_hazards.md R350 to R352): the memory it leaves
alone (O50) and the register values it gives (O49). -/

namespace Sys2Proof.Machine

/-- On its turn, a reset is the step, whatever runs (R350). -/
theorem HostTurn.step_reset {s s' : State} (h : HostTurn s .reset s') : Machine.step s = .next s'.resetEvent :=
  h.step

/-- A reset spoils at most the destination bytes of the command it cuts off (R352). -/
theorem State.resetEvent_outside (s : State) : SameOutsideDst s s.resetEvent := by
  intro a ha
  rw [State.resetEvent_mem]
  split
  · exact s.read_spoilDst_outside 0 ha
  · rfl

/-- While idle, a reset leaves memory alone (R352). -/
theorem State.resetEvent_mem_of_idle {s : State} (h : s.status.busy = false) : s.resetEvent.mem = s.mem := by
  rw [State.resetEvent_mem, h, if_neg Bool.false_ne_true]

theorem Status.zero_word : Status.zero.word = 0#32 := by decide

/-- Settles O50: what lies outside the destination is kept, and the source of legal regions lies outside it. -/
theorem resetKeepsMemoryOutsideDestination : Obligations.ResetKeepsMemoryOutsideDestination := by
  unfold Obligations.ResetKeepsMemoryOutsideDestination
  intro s s' hturn
  have houtside : SameOutsideDst s s'.resetEvent := by
    rw [hturn.eq]
    exact State.resetEvent_outside { s with turns := s'.turns }
  refine ⟨_, hturn.step_reset, houtside, fun hlegal i hi => ?_⟩
  obtain ⟨-, -, hapart⟩ := hlegal
  exact houtside _ (Regions.src_not_inDst hapart hi)

/-- Settles O49: each field of the reset event, and `ID`, which no state changes (R33). -/
theorem resetEventGivesResetValues : Obligations.ResetEventGivesResetValues := by
  unfold Obligations.ResetEventGivesResetValues
  intro s s' hturn
  have hword : s'.resetEvent.status.word = 0#32 := by rw [State.resetEvent_status, Status.zero_word]
  have hparams : s'.resetEvent.params = s.params := by rw [State.resetEvent_params, hturn.eq]
  have hmem (hidle : s.status.busy = false) : s'.resetEvent.mem = s.mem := by
    rw [State.resetEvent_mem_of_idle (hturn.status ▸ hidle), hturn.eq]
  exact ⟨_, hturn.step_reset, s'.resetEvent_engine, hword, s'.resetEvent_cfg, s'.resetEvent_latch,
    s'.resetEvent_resultLen, s'.resetEvent_expectLen, s'.resetEvent_errPos, rfl, hparams, s'.resetEvent_turns, hmem⟩

end Sys2Proof.Machine
end
